-- ==== Sys2Proof/Word.lean ====
section
/-! DEFINITION. The widths of the block (00_scope.md R7, R8) and nothing else. -/

namespace Sys2Proof

/-- A chip byte: 8 bits, bit 0 least significant (R7 BYTE_W, R8). -/
abbrev Byte := BitVec 8

/-- A command word: 32 bits (R7 CMD_W, R74). -/
abbrev CmdWord := BitVec 32

end Sys2Proof
end

