-- ==== Sys2Proof/Config.lean ====
section
/-! DEFINITION. The parameters of the block (00_scope.md R7, 92_eei_decisions.md "Parameters left OPEN") and the free values
of what the spec leaves unspecified (93_implementation_defined.md V1, V2). -/

namespace Sys2Proof.Config

/-- CHIP_COUNT as sampled by the reset that `State.reset` stands for.  DESIGN CHOICE (log 1, unsafe): CHIP_COUNT is an input
with no default (R7, R200); 2 is the smallest count at which the chip order of R56 shows.  Statements quantify over every
CHIP_COUNT through `State.afterReset` and `State.resetTo`. -/
def chipCount : BitVec 8 := 2

/-- NIBBLE_MASK: the bits of a chip byte the core controls (R7). -/
def nibbleMask : Byte := 0x0F

/-- INFLATE_MASK: bit-group {0,1} (R7). -/
def inflateMask : Byte := 0x03

/-- DEFLATE_MASK: bit-group {2,3} (R7). -/
def deflateMask : Byte := 0x0C

/-- The high nibble of a chip byte, passed through untouched (R40, R133). -/
def highMask : Byte := 0xF0

/-- OE_DISABLE_LEVEL: the electrical level of the line OE that disables the outputs.  An OPEN parameter (R7, R28); a free
value, no rule reads it (log 14). -/
opaque oeDisableLevel : Bool

/-- T_SETTLE: the length of a settling delay.  An OPEN parameter (R7, R101); a free value (log 15). -/
opaque tSettle : Nat

/-- T_TICK: the length of one unit of DUR.  An OPEN parameter (R7, R77); a free value (log 15). -/
opaque tTick : Nat

/-- The shift stages of chip `k` after the `draw`-th power-on: "any value: a draw at power-on" (V1, R37); a free value
(log 23). -/
opaque powerOnShift (draw k : Nat) : Byte

/-- The output stages of chip `k` after the `draw`-th power-on (V1, R38); a free value (log 23). -/
opaque powerOnOutput (draw k : Nat) : Byte

/-- The 32 bits of the latched command C after the `draw`-th RESET: "any value; no rule reads it" (V2, R32); a free value
(log 3). -/
opaque resetCommand (draw : Nat) : CmdWord

end Sys2Proof.Config
end

