-- ==== Sys2Proof/Syntax.lean ====
section
/-! DEFINITION. The command set (30_encoding.md R73): the decoded commands, and the commands as a host writes them down
(R83, R84), with operands that are numbers and may fail to fit their field. -/

namespace Sys2Proof

/-- One constructor per row of spec/opcode_table.json.  The operand widths are those of the fields (R75 to R77), so every
term is an instruction that some word encodes. -/
inductive Instr where
  /-- `setRelays(chipIndex, nibble)` (R131) -/
  | setr (idx val : BitVec 8)
  /-- `setRelays(chipIndex, nibble, duration)` (R135) -/
  | setrt (idx val : BitVec 8) (dur : BitVec 12)
  /-- `inflate(chipIndex)` (R138) -/
  | inflate (idx : BitVec 8)
  /-- `deflate(chipIndex)` (R139) -/
  | deflate (idx : BitVec 8)
  /-- `hold(chipIndex)` (R140) -/
  | hold (idx : BitVec 8)
  /-- `hold()` (R141) -/
  | holdall
  deriving DecidableEq, Repr

/-- A command as an assembler line spells it (R83): operands are numbers of any size. -/
inductive SourceCmd where
  | setr (idx val : Nat)
  | setrt (idx val dur : Nat)
  | inflate (idx : Nat)
  | deflate (idx : Nat)
  | hold (idx : Nat)
  | holdall
  deriving DecidableEq, Repr

/-- A call of DOC00's API, accepted as a pseudo-command (R84); an optional argument is an `Option` (R73). -/
inductive ApiCall where
  | setRelays (chipIndex nibble : Nat) (duration : Option Nat)
  | inflate (chipIndex : Nat)
  | deflate (chipIndex : Nat)
  | hold (chipIndex : Option Nat)
  deriving DecidableEq, Repr

end Sys2Proof
end

