-- ==== Sys2Proof/Machine/State.lean ====
section
/-! DEFINITION. Everything the machine holds: the state of the core and of the chain (10_state.md), the ports of
30_encoding.md R70 that a step reads or writes, and the model's own fields (trace, draw counter, granularity), with the
state right after reset (R42, R200). -/

namespace Sys2Proof.Machine

/-- The status codes of a response (R85, R170).  Codes 5 to 7 are never produced, so the type has five (log 20). -/
inductive Status where
  | ok
  | configError
  | indexError
  | invalidStateError
  | illegalCommand
  deriving DecidableEq, Repr

/-- The four output lines (R50, R70). -/
inductive Line where
  | data
  | clock
  | latch
  | oe
  deriving DecidableEq, Repr

/-- The symbolic length of a delay (R12). -/
inductive Duration where
  /-- T_SETTLE (R101) -/
  | settle
  /-- `d * T_TICK` (R136) -/
  | ticks (d : BitVec 12)
  deriving DecidableEq, Repr

/-- The primitive events (R12).  For the line OE the level written is the flag: true means outputs disabled (R28). -/
inductive Event where
  | emit (line : Line) (v : Bool)
  | delay (t : Duration)
  deriving DecidableEq, Repr

/-- The index u of SEQ: the first or the second UPDATE of a command (R33). -/
inductive UpdateNo where
  | first
  | second
  deriving DecidableEq, Repr

/-- The five positions of a bit cell (R33). -/
inductive CellPhase where
  | setData
  | clkHigh
  | waitHigh
  | clkLow
  | waitLow
  deriving DecidableEq, Repr

/-- The four positions of the latch pulse (R33). -/
inductive LatchPhase where
  | high
  | waitHigh
  | low
  | waitLow
  deriving DecidableEq, Repr

/-- SEQ, the position of the micro-sequencer inside the command in execution (R33). -/
inductive Seq where
  | idle
  | check
  | oeOff (u : UpdateNo)
  | shift (u : UpdateNo) (k b : Nat) (p : CellPhase)
  | latch (u : UpdateNo) (p : LatchPhase)
  | oeOn (u : UpdateNo)
  | wait
  deriving DecidableEq, Repr

/-- The latched command C (R32). -/
structure Command where
  opc : BitVec 4
  idx : BitVec 8
  val : BitVec 8
  dur : BitVec 12
  deriving DecidableEq, Repr

/-- The bytes that are not 0x00, by chip index, in one canonical form: addresses strictly rising and no byte equal to what
an unlisted address reads as (log 19). -/
abbrev Memory := List Host.Cell

/-- What the outside world holds at the block while a step runs.  The first four are ports (R70); the others are the model's
own.  A step reads these levels and never writes them (log 5). -/
structure Inputs where
  /-- port RESET, read as a level: construction is repeated at every step it is held (R70, R200; DESIGN CHOICE, log 30) -/
  reset : Bool
  /-- port CHIP_COUNT, sampled at reset only, and anew at every step RESET is held (R70; log 30) -/
  chipCount : BitVec 8
  /-- port CMD_VALID (R71) -/
  cmdValid : Bool
  /-- port CMD (R74) -/
  cmd : CmdWord
  /-- a command is stepped event by event rather than as one transition (D22, log 6) -/
  byEvent : Bool
  /-- power has just returned; read as a level like RESET (R192, R201, log 23, log 30) -/
  powerUp : Bool
  /-- something other than this block drives the four lines (R190, R211, log 17) -/
  foreignDriver : Bool
  /-- a host-level fault strikes (R179, log 18) -/
  hostFault : Bool
  deriving DecidableEq, Repr

/-- The machine: core (R21 to R33), chain (R37, R38), response port (R72), inputs, and the model's trace and draw
counter. -/
structure State where
  /-- N, the chip count (R21) -/
  n : BitVec 8
  /-- CFG_ERR (R22) -/
  cfgErr : Bool
  /-- SHADOW (R23) -/
  shadow : Memory
  /-- the level of DATA (R25) -/
  data : Bool
  /-- the level of CLOCK (R26) -/
  clock : Bool
  /-- the level of LATCH (R27) -/
  latch : Bool
  /-- OE_DIS, true when the outputs are disabled (R28) -/
  oeDis : Bool
  /-- BUSY (R29) -/
  busy : Bool
  /-- LAST (R30) -/
  last : Status
  /-- HOLD_CNT (R31) -/
  holdCnt : BitVec 12
  /-- C, the latched command (R32); what it holds while BUSY = 0 is the model's choice (log 3, log 29) -/
  cmd : Command
  /-- SEQ (R33) -/
  seq : Seq
  /-- SR, chip 0 first (R37) -/
  sr : List Byte
  /-- OUT, chip 0 first (R38) -/
  out : List Byte
  /-- port RSP_VALID (R70, R72) -/
  rspValid : Bool
  /-- port RSP_STATUS (R70, R72) -/
  rspStatus : Status
  /-- the model's own: the events of the command accepted last, oldest first (R12, log 7) -/
  trace : List Event
  /-- the model's own: how many free values have been drawn (log 23) -/
  draws : Nat
  /-- what the outside world holds (log 5) -/
  inputs : Inputs
  deriving DecidableEq, Repr

/-- Why the machine stops. -/
inductive Fault where
  /-- Raised by `step` when `inputs.hostFault` is held while a command runs or is accepted: "a model treats any other
  interruption of an UPDATE as having no step" (R179, U5; log 18).  Safe: nothing is claimed of what follows. -/
  | hostFault
  /-- Raised by the sequencer at SHIFT(k, b, p) with k not below N: SHADOW[k] does not exist (R50, R51; log 21).  Safe: no
  run from reset comes there. -/
  | noSuchChip
  /-- Raised by the sequencer when BUSY = 1 and SEQ = IDLE, a pair R29 and R33 exclude (log 21).  Safe: no run from reset
  comes there. -/
  | noPosition
  deriving DecidableEq, Repr

/-- Why the machine gives no meaning. -/
inductive Refusal where
  /-- Raised by an arm of `exec` for an instruction without a meaning.  Safe.  No arm raises it. -/
  | notModelled (mnemonic : String)
  /-- Raised by `step` when something else drives the four lines: "a model refuses such a configuration" (R190, U4;
  log 17).  Safe. -/
  | secondDriver
  deriving DecidableEq, Repr

/-- The state right after a reset of a fresh block with CHIP_COUNT = c, the collected values of R42, in both columns.  What
R42 leaves unspecified holds the values of logs 2, 3, 4 and 5. -/
def State.afterReset (c : BitVec 8) : State where
  n := c
  cfgErr := c == 0
  shadow := []
  data := false
  clock := false
  latch := false
  oeDis := true
  busy := false
  last := if c = 0 then .configError else .ok
  holdCnt := 0
  cmd := ⟨0, 0, 0, 0⟩
  seq := .idle
  sr := List.replicate c.toNat 0
  out := List.replicate c.toNat 0
  rspValid := false
  rspStatus := .ok
  trace := []
  draws := 0
  inputs :=
    { reset := false, chipCount := c, cmdValid := false, cmd := 0, byEvent := false, powerUp := false,
      foreignDriver := false, hostFault := false }

/-- The machine right after reset (R42, R200), with the CHIP_COUNT of log 1. -/
def State.reset : State := State.afterReset Config.chipCount

end Sys2Proof.Machine
end

