-- ==== Sys2Proof/Machine/Operands.lean ====
section
/-! DEFINITION. The operand forms of the commands: the direct chip index (20_memory.md R51), the raw requested nibble and
its merge into a chip byte (41_relay_commands.md R133), the latched fields of a command word (10_state.md R32). -/

namespace Sys2Proof.Machine

/-- `MERGE(old, v) = (old & 0xF0) | (v & NIBBLE_MASK)` (R133): the low nibble is replaced, not ORed into. -/
def merge (old v : Byte) : Byte := (old &&& Config.highMask) ||| (v &&& Config.nibbleMask)

/-- `old & 0xF0`, what a hold writes (R140). -/
def clearLow (old : Byte) : Byte := old &&& Config.highMask

/-- An index is valid iff `idx < N`, unsigned, never reduced (R51, R153). -/
def State.validIndex (s : State) (idx : BitVec 8) : Bool := idx < s.n

/-- The four fields latched from CMD at acceptance (R32, R71). -/
def Command.ofWord (w : CmdWord) : Command where
  opc := w.extractLsb' 28 4
  idx := w.extractLsb' 20 8
  val := w.extractLsb' 12 8
  dur := w.extractLsb' 0 12

/-- The word whose fields a latched command holds (R74). -/
def Command.word (c : Command) : CmdWord := c.opc ++ c.idx ++ c.val ++ c.dur

end Sys2Proof.Machine
end

