-- ==== Sys2Proof/Machine/Flags.lean ====
section
/-! DEFINITION. The predicates and derived words of the block.  It has no condition codes (10_state.md R35); what stands in
their place is the interlock predicate (R132), the classes of a low nibble (R143), the status codes (R85), the STATUS word
(R34), the command port's ready (R71), the OE level (R28) and what a relay sees (R39). -/

namespace Sys2Proof.Machine

/-- `CONTRA(v)`: both bit-groups requested (R132).  It reads bits 3 to 0 of the request only, never SHADOW (R35). -/
def contra (v : Byte) : Bool := (v &&& Config.inflateMask != 0) && (v &&& Config.deflateMask != 0)

/-- The classes of a low nibble (R143). -/
inductive ChipClass where
  | idle
  | inflate
  | deflate
  | forbidden
  deriving DecidableEq, Repr

/-- The class of the low nibble of a chip byte (R143). -/
def chipClass (b : Byte) : ChipClass :=
  if contra b then .forbidden
  else if b &&& Config.inflateMask != 0 then .inflate
  else if b &&& Config.deflateMask != 0 then .deflate
  else .idle

/-- The number of a status code (R85). -/
def Status.code : Status → BitVec 3
  | .ok => 0
  | .configError => 1
  | .indexError => 2
  | .invalidStateError => 3
  | .illegalCommand => 4

/-- The STATUS word: N in 7:0, CFG_ERR in 8, BUSY in 9, OE_DIS in 10, LAST in 13:11, 15:14 read as 0 (R34). -/
def State.statusWord (s : State) : BitVec 16 :=
  0#2 ++ s.last.code ++ BitVec.ofBool s.oeDis ++ BitVec.ofBool s.busy ++ BitVec.ofBool s.cfgErr ++ s.n

/-- Port CMD_READY = not BUSY (R70, R71). -/
def State.cmdReady (s : State) : Bool := !s.busy

/-- The electrical level of the line OE (R28). -/
def State.oeLevel (s : State) : Bool := if s.oeDis then Config.oeDisableLevel else !Config.oeDisableLevel

/-- `RELAY[k][j]`: energised iff the outputs are enabled and `OUT[k][j] = 1` (R39, R119).  That a disabled output leaves
its relay unenergised is PRESUMED (K3, log 13). -/
def State.relay (s : State) (k j : Nat) : Bool := !s.oeDis && (s.out.getD k 0).getLsbD j

end Sys2Proof.Machine
end

