-- ==== Sys2Proof/Machine/Ops.lean ====
section
/-! DEFINITION. The named operations of the block: access to SHADOW (20_memory.md R52), events and what the lines and the
chain do on them (00_scope.md R12, 40_chain_driver.md R113 to R115), the micro-operations (R100 to R105), acceptance,
response, rejection and the command frame (30_encoding.md R71, R72, 60_exceptions.md R177, 41_relay_commands.md R130), and
reset (70_reset_and_hazards.md R200). -/

namespace Sys2Proof.Machine

/-! ### SHADOW -/

/-- What a byte nothing has written reads as: the reset value of every chip byte (R23). -/
def blankByte : Byte := 0x00

/-- `MemRead(k, 1)`, the byte at one index (R10, R52). -/
def Memory.read : Memory → Nat → Byte
  | [], _ => blankByte
  | (a, v) :: m, k => if a = k then v else Memory.read m k

/-- The list without an entry for index `k`. -/
def Memory.erase (m : Memory) (k : Nat) : Memory := m.filter fun c => c.1 != k

/-- An entry put in front of the first higher index. -/
def Memory.insert : Memory → Nat → Byte → Memory
  | [], k, v => [(k, v)]
  | (a, x) :: m, k, v => if k < a then (k, v) :: (a, x) :: m else (a, x) :: Memory.insert m k v

/-- `MemWrite(k, 1, v)`, one whole byte at one index (R10, R52).  Writing what an unlisted index reads as removes the entry,
so equal arrays are equal lists. -/
def Memory.write (m : Memory) (k : Nat) (v : Byte) : Memory :=
  if v = blankByte then m.erase k else (m.erase k).insert k v

/-- Every index of `m` is above `lo`, indices rise strictly, and no entry holds the unlisted byte. -/
def Memory.risingAbove : Option Nat → Memory → Bool
  | _, [] => true
  | lo, (a, v) :: m => (lo.all fun l => decide (l < a)) && v != blankByte && Memory.risingAbove (some a) m

/-- The canonical form. -/
def Memory.wf (m : Memory) : Bool := Memory.risingAbove none m

/-- No entry lies at or above index `n`: the array has N bytes (R41). -/
def Memory.within (n : Nat) (m : Memory) : Bool := m.all fun c => c.1 < n

/-- The N bytes of the array in index order (R23). -/
def Memory.bytes (n : Nat) (m : Memory) : List Byte := (List.range n).map m.read

/-- `SHADOW[k]` (R10). -/
def State.shadowByte (s : State) (k : Nat) : Byte := s.shadow.read k

/-- `SHADOW[0..N-1]` (R23). -/
def State.shadowBytes (s : State) : List Byte := s.shadow.bytes s.n.toNat

/-- `SHADOW[idx] <- v` (R10). -/
def State.writeShadow (s : State) (idx : BitVec 8) (v : Byte) : State :=
  { s with shadow := s.shadow.write idx.toNat v }

/-- `SHADOW[idx] <- MERGE(SHADOW[idx], v)` (R131, R133). -/
def State.mergeShadow (s : State) (idx : BitVec 8) (v : Byte) : State :=
  s.writeShadow idx (merge (s.shadowByte idx.toNat) v)

/-- `SHADOW[idx] <- SHADOW[idx] & 0xF0` (R140). -/
def State.holdShadow (s : State) (idx : BitVec 8) : State :=
  s.writeShadow idx (clearLow (s.shadowByte idx.toNat))

/-- `for k = 0 to count-1: SHADOW[k] <- SHADOW[k] & 0xF0` (R141). -/
def Memory.clearLowUpTo : Nat → Memory → Memory
  | 0, m => m
  | k + 1, m => (Memory.clearLowUpTo k m).write k (clearLow ((Memory.clearLowUpTo k m).read k))

/-- The loop of HOLDALL over every chip (R141). -/
def State.holdAllShadow (s : State) : State := { s with shadow := s.shadow.clearLowUpTo s.n.toNat }

/-! ### The chain -/

/-- One chip on a rising edge of CLOCK: `d` enters stage 0, every stage moves up by one (R114; the stage order is PRESUMED,
K1, log 11). -/
def shiftChip (d : Bool) (b : Byte) : Byte := (b <<< 1) ||| (BitVec.ofBool d).setWidth 8

/-- The chain on a rising edge of CLOCK: chip 0 takes DATA, chip k takes the old stage 7 of chip k-1, and the last chip's
stage 7 is lost (R113, R114). -/
def shiftChain : Bool → List Byte → List Byte
  | _, [] => []
  | d, b :: bs => shiftChip d b :: shiftChain (b.getLsbD 7) bs

/-- `P`, the number whose bit 8k + j is SR[k][j] (R114). -/
def chainNumber : List Byte → Nat
  | [] => 0
  | b :: bs => b.toNat + 256 * chainNumber bs

/-! ### Events -/

/-- `emit(CLOCK, v)`: the chain shifts when the level changes from 0 to 1 (R114). -/
def State.setClock (s : State) (v : Bool) : State :=
  { s with clock := v, sr := if v && !s.clock then shiftChain s.data s.sr else s.sr }

/-- `emit(LATCH, v)`: every OUT[k] takes SR[k] when the level changes from 0 to 1 (R115; the rising edge is PRESUMED, K1,
log 12). -/
def State.setLatch (s : State) (v : Bool) : State :=
  { s with latch := v, out := if v && !s.latch then s.sr else s.out }

/-- What an event does to the lines and the chain; a delay moves nothing (R12, R104). -/
def State.react (s : State) : Event → State
  | .emit .data v => { s with data := v }
  | .emit .clock v => s.setClock v
  | .emit .latch v => s.setLatch v
  | .emit .oe v => { s with oeDis := v }
  | .delay _ => s

/-- One event: its effect, and its place in the trace (R12). -/
def State.emit (s : State) (e : Event) : State :=
  { s.react e with trace := s.trace ++ [e] }

/-- Events in order. -/
def State.emitAll (s : State) (es : List Event) : State := es.foldl State.emit s

/-! ### Micro-operations, as the events they splice into a command's trace (R13) -/

/-- `PULSE(LINE)` (R100). -/
def pulse (l : Line) : List Event :=
  [.emit l true, .delay .settle, .emit l false, .delay .settle]

/-- One bit cell of SHIFTOUT: set DATA, pulse CLOCK (R102). -/
def bitCell (v : Bool) : List Event := .emit .data v :: pulse .clock

/-- `for b = count-1 downto 0` over one byte: most-significant bit first (R57, R102). -/
def shiftBits : Nat → Byte → List Event
  | 0, _ => []
  | b + 1, v => bitCell (v.getLsbD b) ++ shiftBits b v

/-- `SHIFTOUT()`: `for k = N-1 downto 0`, all eight bits of each byte (R56, R102). -/
def shiftOut : Nat → Memory → List Event
  | 0, _ => []
  | k + 1, m => shiftBits 8 (m.read k) ++ shiftOut k m

/-- `LATCHOP()` (R103). -/
def latchOp : List Event := pulse .latch

/-- The trace of `UPDATE()`, a function of N and SHADOW alone (R105, R106). -/
def updateTrace (n : Nat) (m : Memory) : List Event :=
  .emit .oe true :: (shiftOut n m ++ latchOp ++ [.emit .oe false])

/-- `UPDATE()` (R105). -/
def State.update (s : State) : State := s.emitAll (updateTrace s.n.toNat s.shadow)

/-- `WAIT(dur)` as one event: HOLD_CNT is loaded, counted down to 0, and the whole wait is `delay(dur * T_TICK)`, also for
dur = 0 (R136, R137).  The sequencer counts every period (`seqWait`). -/
def State.waitFor (s : State) (dur : BitVec 12) : State :=
  { s with holdCnt := 0 }.emit (.delay (.ticks dur))

/-! ### Acceptance, response, rejection, the frame -/

/-- Acceptance of a command word: C latched, BUSY set, execution starts (R32, R71).  The response pulse of the command
before has ended and the trace starts anew (log 4, log 7). -/
def State.accept (s : State) (w : CmdWord) : State :=
  { s with cmd := Command.ofWord w, busy := true, seq := .check, trace := [], rspValid := false }

/-- `respond(code)` (R72).  C keeps the accepted word's fields: DESIGN CHOICE (log 29), since C is "any value" while
BUSY = 0 (R32, V2) and no rule reads it there. -/
def State.respond (s : State) (code : Status) : State :=
  { s with last := code, rspStatus := code, rspValid := true, busy := false, seq := .idle }

/-- `raise E`: TAKING AN EXCEPTION of this block.  A rejection saves nothing and redirects nothing; its whole effect is the
response with the code of E (R11, R177).  There is nothing to return from (R178). -/
def State.raise (s : State) (e : Status) : State := s.respond e

/-- `if not (idx < N) then raise IndexError` (R172). -/
def State.testIndex (s : State) (idx : BitVec 8) : Option Status :=
  if s.validIndex idx then none else some .indexError

/-- `if CONTRA(val) then raise InvalidStateError` (R173), on the raw request (R134). -/
def testInterlock (val : Byte) : Option Status :=
  if contra val then some .invalidStateError else none

/-- The frame of an accepted command after its word has decoded (R130): ConfigError first, then the body's tests in their
order, then, when none fires, what the body does, and the response OK. -/
def State.execute (s : State) (tests : Option Status) (work : State → State) : State :=
  if s.cfgErr then s.raise .configError
  else
    match tests with
    | some e => s.raise e
    | none => (work s).respond .ok

/-- The frame of an accepted word that spells no command (R130, R174). -/
def State.executeIllegal (s : State) : State := s.execute (some .illegalCommand) id

/-- A step in which the host presents nothing: no event, only the response pulse ends (R108, log 4). -/
def State.idle (s : State) : State := { s with rspValid := false }

/-! ### Reset -/

/-- `RESET(c)`: construction (R200).  The chain keeps what it had (R202), no response is given (R203), and C, which R42
leaves unspecified, is a free value (log 3).  RSP_STATUS, which R200 does not name, is left alone (log 4). -/
def State.resetTo (s : State) (c : BitVec 8) : State :=
  { s with
    data := false, clock := false, latch := false
    oeDis := true
    busy := false, holdCnt := 0, seq := .idle
    n := c
    cfgErr := c == 0
    last := if c = 0 then .configError else .ok
    shadow := []
    cmd := Command.ofWord (Config.resetCommand s.draws)
    rspValid := false
    draws := s.draws + 1 }

/-- Power returns: "Nothing survives loss of power" (R192), so every field of the core, the response port and the trace
among them, is that of a fresh block after reset with CHIP_COUNT = c (R201).  SR and OUT of the real chain, whose length
stays, and C are free values (R37, R38, V1, V2; log 3, log 23).  What remains is not the block's: the inputs and the draw
counter. -/
def State.powerOn (s : State) (c : BitVec 8) : State :=
  { State.afterReset c with
    cmd := Command.ofWord (Config.resetCommand s.draws)
    sr := (List.range s.sr.length).map (Config.powerOnShift s.draws)
    out := (List.range s.out.length).map (Config.powerOnOutput s.draws)
    draws := s.draws + 1
    inputs := s.inputs }

end Sys2Proof.Machine
end

