-- ==== Sys2Proof/Machine/Relay.lean ====
section
/-! DEFINITION. The six commands (41_relay_commands.md R131, R135 to R141), one meaning each.  Every meaning takes the
accepted state (R130: BUSY = 1) to the state after the response. -/

namespace Sys2Proof.Machine

/-- The tests of `setRelays`, the bounds test first (R131, R176). -/
def State.setTests (s : State) (idx : BitVec 8) (val : Byte) : Option Status :=
  s.testIndex idx <|> testInterlock val

/-- What SETR does once its tests have passed (R131). -/
def setWork (idx : BitVec 8) (val : Byte) (s : State) : State := (s.mergeShadow idx val).update

/-- What HOLD does once its test has passed (R140). -/
def holdWork (idx : BitVec 8) (s : State) : State := (s.holdShadow idx).update

/-- What SETRT does once its tests have passed: set, wait, then the body of HOLD (R135). -/
def setTimedWork (idx : BitVec 8) (val : Byte) (dur : BitVec 12) (s : State) : State :=
  holdWork idx ((setWork idx val s).waitFor dur)

/-- What HOLDALL does: every byte cleared, then one UPDATE (R141). -/
def holdAllWork (s : State) : State := s.holdAllShadow.update

/-- SETR idx, val (R131). -/
def execSetr (idx : BitVec 8) (val : Byte) (s : State) : Host.Outcome State Fault Refusal :=
  .next (s.execute (s.setTests idx val) (setWork idx val))

/-- SETRT idx, val, dur (R135); dur = 0 waits no time and holds all the same (R137, log 16). -/
def execSetrt (idx : BitVec 8) (val : Byte) (dur : BitVec 12) (s : State) : Host.Outcome State Fault Refusal :=
  .next (s.execute (s.setTests idx val) (setTimedWork idx val dur))

/-- INFLATE idx: `SETR(idx, INFLATE_MASK)` (R138). -/
def execInflate (idx : BitVec 8) (s : State) : Host.Outcome State Fault Refusal :=
  .next (s.execute (s.setTests idx Config.inflateMask) (setWork idx Config.inflateMask))

/-- DEFLATE idx: `SETR(idx, DEFLATE_MASK)` (R139). -/
def execDeflate (idx : BitVec 8) (s : State) : Host.Outcome State Fault Refusal :=
  .next (s.execute (s.setTests idx Config.deflateMask) (setWork idx Config.deflateMask))

/-- HOLD idx (R140). -/
def execHold (idx : BitVec 8) (s : State) : Host.Outcome State Fault Refusal :=
  .next (s.execute (s.testIndex idx) (holdWork idx))

/-- HOLDALL (R141). -/
def execHoldall (s : State) : Host.Outcome State Fault Refusal :=
  .next (s.execute none holdAllWork)

end Sys2Proof.Machine
end

