-- ==== Sys2Proof/Machine/Dispatch.lean ====
section
/-! DEFINITION. The meaning of every constructor of Instr (30_encoding.md R73). -/

namespace Sys2Proof.Machine

/-- The execution of one accepted, decoded command (R130). -/
def exec (i : Instr) (s : State) : Host.Outcome State Fault Refusal :=
  match i with
  | .setr idx val => Sys2Proof.Machine.execSetr idx val s
  | .setrt idx val dur => Sys2Proof.Machine.execSetrt idx val dur s
  | .inflate idx => Sys2Proof.Machine.execInflate idx s
  | .deflate idx => Sys2Proof.Machine.execDeflate idx s
  | .hold idx => Sys2Proof.Machine.execHold idx s
  | .holdall => Sys2Proof.Machine.execHoldall s

end Sys2Proof.Machine
end

