-- ==== Sys2Proof/WellFormed.lean ====
section
/-! DEFINITION. Which written commands the assembler accepts (30_encoding.md R83): "`idx` and `val` must fit 8 bits and
`dur` 12 bits; the assembler refuses a number that does not fit and never truncates".  A decoded `Instr` needs no check: its
operand types are the field widths. -/

namespace Sys2Proof

/-- A chip index fits the IDX field (R75). -/
def fitsIdx (n : Nat) : Bool := n < 256

/-- A requested nibble fits the VAL field (R76). -/
def fitsVal (n : Nat) : Bool := n < 256

/-- A duration fits the DUR field (R77). -/
def fitsDur (n : Nat) : Bool := n < 4096

/-- Every operand fits its field (R83). -/
def SourceCmd.wellFormed : SourceCmd → Bool
  | .setr idx val => fitsIdx idx && fitsVal val
  | .setrt idx val dur => fitsIdx idx && fitsVal val && fitsDur dur
  | .inflate idx => fitsIdx idx
  | .deflate idx => fitsIdx idx
  | .hold idx => fitsIdx idx
  | .holdall => true

end Sys2Proof
end

