-- ==== Sys2Proof/Decode.lean ====
section
/-! DEFINITION. The command word (30_encoding.md R74 to R82), its decoder, the encoder (R86), the opcode map as rows (R78),
and the assembler from written commands to words (R83, R84). -/

namespace Sys2Proof

/-- Why a word is illegal (R80); the block reports both as IllegalCommand (log 25). -/
inductive IllegalWord where
  /-- OPC 0x0 or 0x7 to 0xF -/
  | reservedOpcode
  /-- a field the opcode does not use is not zero (R79) -/
  | nonZeroField
  deriving DecidableEq, Repr

/-- What decoding a word answers (R81). -/
inductive Decoded where
  | legal (i : Instr)
  | illegal (why : IllegalWord)
  deriving DecidableEq, Repr

/-- OPC = CMD[31:28] (R74). -/
def opcField (w : CmdWord) : BitVec 4 := w.extractLsb' 28 4

/-- IDX = CMD[27:20] (R75). -/
def idxField (w : CmdWord) : BitVec 8 := w.extractLsb' 20 8

/-- VAL = CMD[19:12] (R76). -/
def valField (w : CmdWord) : BitVec 8 := w.extractLsb' 12 8

/-- DUR = CMD[11:0] (R77). -/
def durField (w : CmdWord) : BitVec 12 := w.extractLsb' 0 12

/-- An operation whose unused fields must be zero (R79). -/
def legalIf (unusedZero : Bool) (i : Instr) : Decoded :=
  if unusedZero then .legal i else .illegal .nonZeroField

/-- `decode(w)`, total on 32-bit words (R81); it reads the word only. -/
def decode (w : CmdWord) : Decoded :=
  if opcField w = 1 then legalIf (durField w == 0) (.setr (idxField w) (valField w))
  else if opcField w = 2 then .legal (.setrt (idxField w) (valField w) (durField w))
  else if opcField w = 3 then legalIf (valField w == 0 && durField w == 0) (.inflate (idxField w))
  else if opcField w = 4 then legalIf (valField w == 0 && durField w == 0) (.deflate (idxField w))
  else if opcField w = 5 then legalIf (valField w == 0 && durField w == 0) (.hold (idxField w))
  else if opcField w = 6 then legalIf (idxField w == 0 && valField w == 0 && durField w == 0) .holdall
  else .illegal .reservedOpcode

/-- The instruction the decoder reads, or none. -/
def Decoded.instr? : Decoded → Option Instr
  | .legal i => some i
  | .illegal _ => none

/-- The decoder on an opcode-table word: one 32-bit port word (R74, R82), so a row's bits are the word's bits (log 27). -/
def decodeTableWord (nbits w : Nat) : Option Instr :=
  if nbits ≤ 32 then (decode (BitVec.ofNat 32 (w % 2 ^ nbits))).instr? else none

/-- `idx << 20` as a word (R86). -/
def placeIdx (idx : BitVec 8) : CmdWord := idx.setWidth 32 <<< 20

/-- `val << 12` as a word (R86). -/
def placeVal (val : BitVec 8) : CmdWord := val.setWidth 32 <<< 12

/-- `dur` as a word (R86). -/
def placeDur (dur : BitVec 12) : CmdWord := dur.setWidth 32

/-- `encode(c)` (R86). -/
def encode : Instr → CmdWord
  | .setr idx val => 0x10000000 ||| placeIdx idx ||| placeVal val
  | .setrt idx val dur => 0x20000000 ||| placeIdx idx ||| placeVal val ||| placeDur dur
  | .inflate idx => 0x30000000 ||| placeIdx idx
  | .deflate idx => 0x40000000 ||| placeIdx idx
  | .hold idx => 0x50000000 ||| placeIdx idx
  | .holdall => 0x60000000

/-- One row of the opcode map (R78): a word selects the row when `w & mask = match`. -/
structure OpcodeRow where
  mnemonic : String
  opcMatch : CmdWord
  mask : CmdWord
  deriving DecidableEq, Repr

/-- The row of a word's command (R78). -/
def Instr.row : Instr → OpcodeRow
  | .setr _ _ => ⟨"SETR", 0x10000000, 0xF0000FFF⟩
  | .setrt _ _ _ => ⟨"SETRT", 0x20000000, 0xF0000000⟩
  | .inflate _ => ⟨"INFLATE", 0x30000000, 0xF00FFFFF⟩
  | .deflate _ => ⟨"DEFLATE", 0x40000000, 0xF00FFFFF⟩
  | .hold _ => ⟨"HOLD", 0x50000000, 0xF00FFFFF⟩
  | .holdall => ⟨"HOLDALL", 0x60000000, 0xFFFFFFFF⟩

/-- The six rows of the opcode map, in the table's order (R78). -/
def opcodeRows : List OpcodeRow :=
  [(Instr.setr 0 0).row, (Instr.setrt 0 0 0).row, (Instr.inflate 0).row, (Instr.deflate 0).row, (Instr.hold 0).row,
    Instr.holdall.row]

/-- A word selects a row (R78). -/
def OpcodeRow.selects (r : OpcodeRow) (w : CmdWord) : Bool := w &&& r.mask == r.opcMatch

/-- The command a written line stands for, its operands taken as they are (used only when they fit, R83). -/
def SourceCmd.instr : SourceCmd → Instr
  | .setr idx val => .setr (BitVec.ofNat 8 idx) (BitVec.ofNat 8 val)
  | .setrt idx val dur => .setrt (BitVec.ofNat 8 idx) (BitVec.ofNat 8 val) (BitVec.ofNat 12 dur)
  | .inflate idx => .inflate (BitVec.ofNat 8 idx)
  | .deflate idx => .deflate (BitVec.ofNat 8 idx)
  | .hold idx => .hold (BitVec.ofNat 8 idx)
  | .holdall => .holdall

/-- The assembler: a number that does not fit its field is refused, never truncated (R83). -/
def SourceCmd.assemble (c : SourceCmd) : Option CmdWord :=
  if c.wellFormed then some (encode c.instr) else none

/-- The expansion of an API spelling (R84). -/
def ApiCall.expand : ApiCall → SourceCmd
  | .setRelays i n none => .setr i n
  | .setRelays i n (some d) => .setrt i n d
  | .inflate i => .inflate i
  | .deflate i => .deflate i
  | .hold (some i) => .hold i
  | .hold none => .holdall

end Sys2Proof
end

