-- ==== Sys2Proof/Machine/Sequencer.lean ====
section
/-! DEFINITION. The micro-sequencer: the command in execution advanced by one position of SEQ (10_state.md R33), one event
at a time.  It is the second of the two granularities 92_eei_decisions.md D22 allows; "the two must give the same traces".
It takes its operands from the latched command C (R32) and is written over the single events, not over UPDATE. -/

namespace Sys2Proof.Machine

/-- The tests 3 and 4 of R176 for each command. -/
def commandTests (i : Instr) (s : State) : Option Status :=
  match i with
  | .setr idx val => s.setTests idx val
  | .setrt idx val _ => s.setTests idx val
  | .inflate idx => s.setTests idx Config.inflateMask
  | .deflate idx => s.setTests idx Config.deflateMask
  | .hold idx => s.testIndex idx
  | .holdall => none

/-- The write to SHADOW each command makes before its first UPDATE (R131, R135, R138 to R141). -/
def firstWrite (i : Instr) (s : State) : State :=
  match i with
  | .setr idx val => s.mergeShadow idx val
  | .setrt idx val _ => s.mergeShadow idx val
  | .inflate idx => s.mergeShadow idx Config.inflateMask
  | .deflate idx => s.mergeShadow idx Config.deflateMask
  | .hold idx => s.holdShadow idx
  | .holdall => s.holdAllShadow

/-- SEQ moves. -/
def State.goto (s : State) (q : Seq) : State := { s with seq := q }

/-- CHECK: the tests of R176 in order; a rejection responds at once, a valid command makes its first SHADOW write and
starts the UPDATE (R130, log 9). -/
def seqCheck (s : State) : State :=
  if s.cfgErr then s.raise .configError
  else
    match decode s.cmd.word with
    | .illegal _ => s.raise .illegalCommand
    | .legal i =>
      match commandTests i s with
      | some e => s.raise e
      | none => (firstWrite i s).goto (.oeOff .first)

/-- Where SEQ stands when `k` bytes are still to be sent (R33, R102). -/
def seqByte (u : UpdateNo) : Nat → Seq
  | 0 => .latch u .high
  | k + 1 => .shift u k 7 .setData

/-- Where SEQ stands after bit `b` of byte `k` (R102). -/
def seqAfterBit (u : UpdateNo) (k : Nat) : Nat → Seq
  | 0 => seqByte u k
  | b + 1 => .shift u k b .setData

/-- One position of a bit cell (R33, R102). -/
def seqShift (u : UpdateNo) (k b : Nat) (s : State) : CellPhase → State
  | .setData => (s.emit (.emit .data ((s.shadowByte k).getLsbD b))).goto (.shift u k b .clkHigh)
  | .clkHigh => (s.emit (.emit .clock true)).goto (.shift u k b .waitHigh)
  | .waitHigh => (s.emit (.delay .settle)).goto (.shift u k b .clkLow)
  | .clkLow => (s.emit (.emit .clock false)).goto (.shift u k b .waitLow)
  | .waitLow => (s.emit (.delay .settle)).goto (seqAfterBit u k b)

/-- One position of the latch pulse (R33, R103). -/
def seqLatch (u : UpdateNo) (s : State) : LatchPhase → State
  | .high => (s.emit (.emit .latch true)).goto (.latch u .waitHigh)
  | .waitHigh => (s.emit (.delay .settle)).goto (.latch u .low)
  | .low => (s.emit (.emit .latch false)).goto (.latch u .waitLow)
  | .waitLow => (s.emit (.delay .settle)).goto (.oeOn u)

/-- OE_ON: the last event of an UPDATE.  After the first UPDATE of a SETRT the hold timer is loaded (R31, R135); otherwise
the response follows (R72, log 9). -/
def seqOeOn (u : UpdateNo) (s : State) : State :=
  let t := s.emit (.emit .oe false)
  match u, decode s.cmd.word with
  | .first, .legal (.setrt _ _ dur) => { t with holdCnt := dur }.goto .wait
  | _, _ => t.respond .ok

/-- WAIT: one period of T_TICK while HOLD_CNT is not 0; when it is 0 the wait is over, its one event enters the trace, and
the body of HOLD(idx) starts (R135, R136, log 8). -/
def seqWait (s : State) : State :=
  if s.holdCnt = 0 then
    ((s.emit (.delay (.ticks s.cmd.dur))).holdShadow s.cmd.idx).goto (.oeOff .second)
  else { s with holdCnt := s.holdCnt - 1 }

/-- The command in execution advanced by one position (R33). -/
def seqStep (s : State) : Host.Outcome State Fault Refusal :=
  match s.seq with
  | .idle => .fault .noPosition
  | .check => .next (seqCheck s)
  | .oeOff u => .next ((s.emit (.emit .oe true)).goto (seqByte u s.n.toNat))
  | .shift u k b p => if k < s.n.toNat then .next (seqShift u k b s p) else .fault .noSuchChip
  | .latch u p => .next (seqLatch u s p)
  | .oeOn u => .next (seqOeOn u s)
  | .wait => .next (seqWait s)

/-- `k` positions in a row. -/
def seqRun : Nat → State → Host.Outcome State Fault Refusal
  | 0, s => .next s
  | k + 1, s =>
    match seqStep s with
    | .next t => seqRun k t
    | .fault f => .fault f
    | .refused r => .refused r

end Sys2Proof.Machine
end

