-- ==== Sys2Proof/Machine/Step.lean ====
section
/-! DEFINITION. One step of the machine: what the outside world holds decides what happens (30_encoding.md R70 to R72,
60_exceptions.md R181, 70_reset_and_hazards.md R203, R218). -/

namespace Sys2Proof.Machine

/-- The execution of an accepted word to its response (R130): the decoded command's meaning, or the rejection of a word that
spells none. -/
def execWord (w : CmdWord) (s : State) : Host.Outcome State Fault Refusal :=
  match decode w with
  | .legal i => exec i s
  | .illegal _ => .next s.executeIllegal

/-- Acceptance of the presented word, at the granularity the outside world asks for (R71, D22, log 6). -/
def acceptStep (s : State) : Host.Outcome State Fault Refusal :=
  if s.inputs.byEvent then .next (s.accept s.inputs.cmd)
  else execWord s.inputs.cmd (s.accept s.inputs.cmd)

/-- One step.  A second driver is refused (log 17); power-on and RESET win over everything else (R181), and RESET is a
level: held over several steps it repeats the construction with the CHIP_COUNT then present, which the spec does not say
(DESIGN CHOICE, log 30); a busy core takes no word and advances by one position (R71, R33); an idle core accepts a presented word or does nothing. -/
def step (s : State) : Host.Outcome State Fault Refusal :=
  if s.inputs.foreignDriver then .refused .secondDriver
  else if s.inputs.powerUp then .next (s.powerOn s.inputs.chipCount)
  else if s.inputs.reset then .next (s.resetTo s.inputs.chipCount)
  else if s.inputs.hostFault && (s.busy || s.inputs.cmdValid) then .fault .hostFault
  else if s.busy then seqStep s
  else if s.inputs.cmdValid then acceptStep s
  else .next s.idle

/-- The host presents the word and nothing else, and the core is ready for it, so the next step accepts it and runs it to
its response (R71, log 24). -/
def State.withFetchWord (s : State) (nbits w : Nat) : State :=
  { s with
    busy := false
    seq := .idle
    inputs :=
      { s.inputs with
        reset := false, cmdValid := true, cmd := BitVec.ofNat 32 (w % 2 ^ nbits), byEvent := false, powerUp := false,
        foreignDriver := false, hostFault := false } }

end Sys2Proof.Machine
end

