-- ==== Sys2Proof/Machine/Timing.lean ====
section
/-! DEFINITION. How long a trace lasts (70_reset_and_hazards.md R220): delays count, and an `emit` takes no time in these
figures.  No step reads a time (40_chain_driver.md R101); the unit lengths are the open parameters (log 15). -/

namespace Sys2Proof.Machine

/-- The length of a symbolic delay (R12). -/
def Duration.time : Duration → Nat
  | .settle => Config.tSettle
  | .ticks d => d.toNat * Config.tTick

/-- The length of one event (R220). -/
def Event.time : Event → Nat
  | .emit _ _ => 0
  | .delay t => t.time

/-- The length of a trace (R112, R220). -/
def traceTime (es : List Event) : Nat := (es.map Event.time).sum

/-- The events that write a line (R12). -/
def Event.isEmit : Event → Bool
  | .emit _ _ => true
  | .delay _ => false

end Sys2Proof.Machine
end

