-- ==== Sys2Proof/Safety.lean ====
section
/-! DEFINITION. What the claims speak of: the wire order as a formula (20_memory.md R57), what a completed and a rejected
command leave (41_relay_commands.md R142, R151), the interlock (10_state.md R24), the invariant of every position of SEQ, and
the states a run comes to. -/

namespace Sys2Proof.Machine

/-! ### Operands a command carries -/

/-- The chip index a command takes (R73). -/
def indexOf : Instr → Option (BitVec 8)
  | .setr idx _ => some idx
  | .setrt idx _ _ => some idx
  | .inflate idx => some idx
  | .deflate idx => some idx
  | .hold idx => some idx
  | .holdall => none

/-- The raw request a command carries in VAL (R73, R78). -/
def requestOf : Instr → Option Byte
  | .setr _ val => some val
  | .setrt _ val _ => some val
  | .inflate _ => none
  | .deflate _ => none
  | .hold _ => none
  | .holdall => none

/-- The duration a command carries (R77). -/
def durationOf : Instr → Option (BitVec 12)
  | .setrt _ _ dur => some dur
  | .setr _ _ => none
  | .inflate _ => none
  | .deflate _ => none
  | .hold _ => none
  | .holdall => none

/-! ### The wire -/

/-- `bit(s) = SHADOW[N-1 - (s div 8)][7 - (s mod 8)]`, the s-th bit on the wire (R57, R106). -/
def wireBit (n : Nat) (m : Memory) (s : Nat) : Bool := (m.read (n - 1 - s / 8)).getLsbD (7 - s % 8)

/-- The 8N bits in the order they are sent (R57). -/
def wireBits (n : Nat) (m : Memory) : List Bool := (List.range (8 * n)).map (wireBit n m)

/-- The level a write to DATA sends (R102). -/
def Event.dataLevel : Event → Option Bool
  | .emit .data v => some v
  | .emit .clock _ => none
  | .emit .latch _ => none
  | .emit .oe _ => none
  | .delay _ => none

/-- The eight bits of a byte, most-significant first (R57). -/
def msbFirst (b : Byte) : List Bool := (List.range 8).map fun j => b.getLsbD (7 - j)

/-- The chain after the clock edges that sample these bits in this order (R114). -/
def clockIn (bits : List Bool) (sr : List Byte) : List Byte := bits.foldl (fun c d => shiftChain d c) sr

/-- How many of the 8N bits the chain has sampled when SEQ stands at this position of an UPDATE (R33, R106). -/
def Seq.sampled (n : Nat) : Seq → Nat
  | .shift _ k b .setData => 8 * (n - 1 - k) + (7 - b)
  | .shift _ k b .clkHigh => 8 * (n - 1 - k) + (7 - b)
  | .shift _ k b .waitHigh => 8 * (n - 1 - k) + (7 - b) + 1
  | .shift _ k b .clkLow => 8 * (n - 1 - k) + (7 - b) + 1
  | .shift _ k b .waitLow => 8 * (n - 1 - k) + (7 - b) + 1
  | .latch _ _ => 8 * n
  | .oeOn _ => 8 * n
  | .idle => 0
  | .check => 0
  | .oeOff _ => 0
  | .wait => 0

/-! ### What a command leaves -/

/-- No RESET, no power-on, no second driver, no host-level fault. -/
def Inputs.Quiet (i : Inputs) : Prop :=
  i.reset = false ∧ i.powerUp = false ∧ i.foreignDriver = false ∧ i.hostFault = false

/-- The host presents a word, or withdraws it (R71). -/
def State.present (s : State) (valid : Bool) (w : CmdWord) : State :=
  { s with inputs := { s.inputs with cmdValid := valid, cmd := w } }

/-- The lines and the chain are where they were. -/
def State.SameLines (s t : State) : Prop :=
  t.data = s.data ∧ t.clock = s.clock ∧ t.latch = s.latch ∧ t.oeDis = s.oeDis ∧ t.sr = s.sr ∧ t.out = s.out

/-- CLOCK and LATCH are low, as at the start of every pulse of a reachable state (R100). -/
def State.linesIdle (s : State) : Prop := s.clock = false ∧ s.latch = false

/-- The real chain is as long as CHIP_COUNT said: the host's duty (R204). -/
def State.chainFits (s : State) : Prop := s.sr.length = s.n.toNat ∧ s.out.length = s.n.toNat

/-- One response with this code, and the core ready (R72). -/
def State.Responded (t : State) (code : Status) : Prop :=
  t.last = code ∧ t.rspStatus = code ∧ t.rspValid = true ∧ t.busy = false ∧ t.seq = .idle

/-- What no command writes: N, CFG_ERR (R21, R22), and the model's inputs and draws.  Of C, whose value after a response
is the model's choice (log 29), the statements that speak of it speak apart. -/
def State.SameFixed (s t : State) : Prop :=
  t.n = s.n ∧ t.cfgErr = s.cfgErr ∧ t.draws = s.draws ∧ t.inputs = s.inputs

/-- The lines after an UPDATE (R25, R105, R151). -/
def State.LinesAfterUpdate (t : State) : Prop :=
  t.oeDis = false ∧ t.clock = false ∧ t.latch = false ∧ t.data = (t.shadowByte 0).getLsbD 0

/-- `SR[k] = OUT[k] = SHADOW[k]` and `RELAY[k][j] = SHADOW[k][j]` (R117). -/
def State.ChainShowsShadow (t : State) : Prop :=
  t.sr = t.shadowBytes ∧ t.out = t.shadowBytes ∧
    ∀ k, k < t.n.toNat → ∀ j, j < 8 → t.relay k j = (t.shadowByte k).getLsbD j

/-- What every command that ends with OK leaves beside SHADOW, HOLD_CNT, the chain and the trace (R72, R105). -/
def State.CompletedOk (s t : State) : Prop := t.Responded .ok ∧ State.SameFixed s t ∧ t.LinesAfterUpdate

/-- The whole effect of a rejection (R142, R177): the response, and nothing else.  C too stays as it was (log 29), and SEQ
returns to IDLE (log 28). -/
def State.rejectedWith (s : State) (e : Status) : State :=
  { s with last := e, rspStatus := e, rspValid := true, busy := false, seq := .idle }

/-- No byte of SHADOW but the one at `idx` differs (R148). -/
def State.SameShadowBut (s t : State) (idx : Nat) : Prop := ∀ a, a ≠ idx → t.shadowByte a = s.shadowByte a

/-- The trace grew by exactly these events. -/
def State.TraceGrewBy (s t : State) (es : List Event) : Prop := t.trace = s.trace ++ es

/-- How many positions of SEQ an accepted word passes through: CHECK alone when it is rejected, else CHECK, the events of
the UPDATE, and for SETRT the wait's periods, its end, and the second UPDATE (R33, R106, R136). -/
def positionsOf (w : CmdWord) (s : State) : Nat :=
  if s.cfgErr then 1
  else
    match decode w with
    | .illegal _ => 1
    | .legal i =>
      match commandTests i s with
      | some _ => 1
      | none =>
        match durationOf i with
        | none => 1 + (40 * s.n.toNat + 6)
        | some dur => 1 + (40 * s.n.toNat + 6) + (dur.toNat + 1) + (40 * s.n.toNat + 6)

/-! ### The interlock -/

/-- No chip byte holds both bit-groups (R24). -/
def Memory.interlocked (m : Memory) : Prop := ∀ k, contra (m.read k) = false

/-- The high nibble of every chip byte is 0 (R40). -/
def Memory.highClear (m : Memory) : Prop := ∀ k, m.read k &&& Config.highMask = 0

/-- An inflate relay of chip `k` is energised. -/
def State.inflateOn (s : State) (k : Nat) : Bool := s.relay k 0 || s.relay k 1

/-- A deflate relay of chip `k` is energised. -/
def State.deflateOn (s : State) (k : Nat) : Bool := s.relay k 2 || s.relay k 3

/-- At no chip are an inflate and a deflate relay energised at once (R145). -/
def State.RelaysSafe (s : State) : Prop := ∀ k, ¬(s.inflateOn k = true ∧ s.deflateOn k = true)

/-! ### The invariant -/

/-- The position lies inside an UPDATE, after its first event: outputs are disabled there (R109). -/
def Seq.blanked : Seq → Bool
  | .shift _ _ _ _ => true
  | .latch _ _ => true
  | .oeOn _ => true
  | .idle => false
  | .check => false
  | .oeOff _ => false
  | .wait => false

/-- CLOCK is high exactly between the two edges of its pulse (R26, R100). -/
def Seq.clockHigh : Seq → Bool
  | .shift _ _ _ .waitHigh => true
  | .shift _ _ _ .clkLow => true
  | .shift _ _ _ .setData => false
  | .shift _ _ _ .clkHigh => false
  | .shift _ _ _ .waitLow => false
  | .latch _ _ => false
  | .oeOn _ => false
  | .idle => false
  | .check => false
  | .oeOff _ => false
  | .wait => false

/-- LATCH is high exactly between the two edges of its pulse (R27, R100). -/
def Seq.latchHigh : Seq → Bool
  | .latch _ .waitHigh => true
  | .latch _ .low => true
  | .latch _ .high => false
  | .latch _ .waitLow => false
  | .shift _ _ _ _ => false
  | .oeOn _ => false
  | .idle => false
  | .check => false
  | .oeOff _ => false
  | .wait => false

/-- The position is one R33 lists for this chip count: k in [0,N), b in [0,7]. -/
def Seq.legal (n : Nat) : Seq → Bool
  | .shift _ k b _ => decide (k < n) && decide (b < 8)
  | .latch _ _ => true
  | .oeOn _ => true
  | .idle => true
  | .check => true
  | .oeOff _ => true
  | .wait => true

/-- The position belongs to the second half of a SETRT (R33). -/
def Seq.timed : Seq → Bool
  | .wait => true
  | .oeOff .second => true
  | .shift .second _ _ _ => true
  | .latch .second _ => true
  | .oeOn .second => true
  | .oeOff .first => false
  | .shift .first _ _ _ => false
  | .latch .first _ => false
  | .oeOn .first => false
  | .idle => false
  | .check => false

/-- What the chain holds at each position, when it is as long as N (R106, R116, R117, R151). -/
def State.ChainInv (s : State) : Prop :=
  match s.seq with
  | .idle => s.oeDis = false → s.sr = s.shadowBytes ∧ s.out = s.shadowBytes ∧ s.data = (s.shadowByte 0).getLsbD 0
  | .check => s.oeDis = false → s.sr = s.shadowBytes ∧ s.out = s.shadowBytes ∧ s.data = (s.shadowByte 0).getLsbD 0
  | .wait => s.sr = s.shadowBytes ∧ s.out = s.shadowBytes ∧ s.data = (s.shadowByte 0).getLsbD 0
  | .oeOff _ => s.oeDis = false → ∀ b ∈ s.out, contra b = false
  | .shift u k b p =>
    (p ≠ .setData → s.data = (s.shadowByte k).getLsbD b) ∧
      ∃ old : List Byte, old.length = s.sr.length ∧
        s.sr = clockIn ((wireBits s.n.toNat s.shadow).take (Seq.sampled s.n.toNat (.shift u k b p))) old
  | .latch _ p => s.sr = s.shadowBytes ∧ s.data = (s.shadowByte 0).getLsbD 0 ∧ (p ≠ .high → s.out = s.shadowBytes)
  | .oeOn _ => s.sr = s.shadowBytes ∧ s.data = (s.shadowByte 0).getLsbD 0 ∧ s.out = s.shadowBytes

/-- The invariant of the machine.  It speaks of no input. -/
structure State.Inv (s : State) : Prop where
  /-- the canonical form -/
  memWf : s.shadow.wf = true
  /-- SHADOW has N bytes (R41) -/
  memWithin : s.shadow.within s.n.toNat = true
  /-- the interlock (R24) -/
  interlocked : s.shadow.interlocked
  /-- the high nibble (R40) -/
  highClear : s.shadow.highClear
  /-- CFG_ERR records exactly the failed construction (R22) -/
  cfgErr_iff : s.cfgErr = true ↔ s.n = 0
  /-- outputs stay disabled after a failed construction (R146) -/
  cfgErr_off : s.cfgErr = true → s.oeDis = true
  /-- no command gets past CHECK after a failed construction (R130) -/
  cfgErr_seq : s.cfgErr = true → s.seq = .idle ∨ s.seq = .check
  /-- BUSY = 0 exactly at IDLE (R29, R33) -/
  busy_iff : s.busy = false ↔ s.seq = .idle
  /-- the position exists (R33) -/
  seqLegal : s.seq.legal s.n.toNat = true
  /-- CLOCK (R26) -/
  clock_eq : s.clock = s.seq.clockHigh
  /-- LATCH (R27) -/
  latch_eq : s.latch = s.seq.latchHigh
  /-- outputs disabled inside an UPDATE (R109) -/
  blanked : s.seq.blanked = true → s.oeDis = true
  /-- outputs enabled while the hold timer runs (R136) -/
  waitOn : s.seq = .wait → s.oeDis = false
  /-- the hold timer is 0 outside its wait (R136, R186) -/
  holdZero : s.seq ≠ .wait → s.holdCnt = 0
  /-- only a SETRT has a second half (R33, R135) -/
  timed : s.seq.timed = true → ∃ idx val dur, decode s.cmd.word = .legal (.setrt idx val dur)
  /-- SR and OUT have one byte per real chip -/
  chainLen : s.sr.length = s.out.length
  /-- the chain's contents -/
  chain : s.chainFits → s.ChainInv

/-! ### Runs -/

/-- The outside world changes what it holds, between two steps (R218). -/
def State.withInputs (s : State) (i : Inputs) : State := { s with inputs := i }

/-- The states a block comes to after a reset with CHIP_COUNT = c, for every behaviour of a host that keeps its duties: it
may present any word, reset and cut the power at any time, at either granularity, but CHIP_COUNT stays the real length of
the chain (R204, R218). -/
inductive Reachable (c : BitVec 8) : State → Prop where
  | start : Reachable c (State.afterReset c)
  | step {s t : State} (i : Inputs) (hs : Reachable c s) (hc : i.chipCount = c)
      (ht : Sys2Proof.Machine.step (s.withInputs i) = .next t) : Reachable c t

end Sys2Proof.Machine
end

