-- ==== Sys2Proof/Certificates/Slice0/Obligations.lean ====
section
/-! DEFINITION. The statements for the provers.  A docstring names the rules of spec/ a statement formalises or rests on. -/

open Sys2Proof Sys2Proof.Machine

/-! ### The command word -/

/-- R86.  The encoder follows the rule's formulas on numbers; decoding an encoded command gives it back, and encoding a
decoded word gives the word back (the last two the spec marks as derived). -/
def Obligations.EncodeAndDecodeAreInverse : Prop :=
  (∀ idx val, (encode (.setr idx val)).toNat = 0x10000000 ||| idx.toNat <<< 20 ||| val.toNat <<< 12) ∧
  (∀ idx val dur,
    (encode (.setrt idx val dur)).toNat = 0x20000000 ||| idx.toNat <<< 20 ||| val.toNat <<< 12 ||| dur.toNat) ∧
  (∀ idx, (encode (.inflate idx)).toNat = 0x30000000 ||| idx.toNat <<< 20) ∧
  (∀ idx, (encode (.deflate idx)).toNat = 0x40000000 ||| idx.toNat <<< 20) ∧
  (∀ idx, (encode (.hold idx)).toNat = 0x50000000 ||| idx.toNat <<< 20) ∧
  (encode .holdall).toNat = 0x60000000 ∧
  (∀ i, decode (encode i) = .legal i) ∧
  (∀ w i, decode w = .legal i → encode i = w)

/-- R81.  What each word decodes to, by its fields as numbers; exactly one clause applies to a word. -/
def Obligations.DecodeFollowsFieldFormula : Prop :=
  ∀ w : CmdWord,
    let opc := w.toNat / 2 ^ 28
    let idx := w.toNat / 2 ^ 20 % 256
    let val := w.toNat / 2 ^ 12 % 256
    let dur := w.toNat % 4096
    if opc = 1 ∧ dur = 0 then decode w = .legal (.setr (BitVec.ofNat 8 idx) (BitVec.ofNat 8 val))
    else if opc = 2 then
      decode w = .legal (.setrt (BitVec.ofNat 8 idx) (BitVec.ofNat 8 val) (BitVec.ofNat 12 dur))
    else if opc = 3 ∧ val = 0 ∧ dur = 0 then decode w = .legal (.inflate (BitVec.ofNat 8 idx))
    else if opc = 4 ∧ val = 0 ∧ dur = 0 then decode w = .legal (.deflate (BitVec.ofNat 8 idx))
    else if opc = 5 ∧ val = 0 ∧ dur = 0 then decode w = .legal (.hold (BitVec.ofNat 8 idx))
    else if opc = 6 ∧ idx = 0 ∧ val = 0 ∧ dur = 0 then decode w = .legal .holdall
    else ∃ why, decode w = .illegal why

/-- R78.  A word is legal exactly when a row of the map selects it, its command's own row selects it, and no two rows
select one word. -/
def Obligations.LegalWordsAreTheRowsOfTheMap : Prop :=
  opcodeRows =
    [⟨"SETR", 0x10000000, 0xF0000FFF⟩, ⟨"SETRT", 0x20000000, 0xF0000000⟩, ⟨"INFLATE", 0x30000000, 0xF00FFFFF⟩,
      ⟨"DEFLATE", 0x40000000, 0xF00FFFFF⟩, ⟨"HOLD", 0x50000000, 0xF00FFFFF⟩, ⟨"HOLDALL", 0x60000000, 0xFFFFFFFF⟩] ∧
  (∀ w, (∃ i, decode w = .legal i) ↔ ∃ r ∈ opcodeRows, w &&& r.mask = r.opcMatch) ∧
  (∀ w i, decode w = .legal i → i.row ∈ opcodeRows ∧ w &&& i.row.mask = i.row.opcMatch) ∧
  ∀ w, ∀ r ∈ opcodeRows, ∀ r' ∈ opcodeRows, w &&& r.mask = r.opcMatch → w &&& r'.mask = r'.opcMatch → r = r'

/-- R79 and R80: a word of a used opcode whose unused field is not zero is illegal, and so is every word of a reserved
opcode.  The two reason names, nonZeroField and reservedOpcode, are the model's choice (log 25). -/
def Obligations.UnusedFieldsMustBeZero : Prop :=
  ∀ w : CmdWord,
    (opcField w ∈ [1, 3, 4, 5, 6] → durField w ≠ 0 → decode w = .illegal .nonZeroField) ∧
    (opcField w ∈ [3, 4, 5, 6] → valField w ≠ 0 → decode w = .illegal .nonZeroField) ∧
    (opcField w = 6 → idxField w ≠ 0 → decode w = .illegal .nonZeroField) ∧
    (opcField w = 0 ∨ 7 ≤ (opcField w).toNat → decode w = .illegal .reservedOpcode)

/-- 95_test_vectors.md 2.1: words written out there decode to the commands they stand for. -/
def Obligations.WrittenWordsDecode : Prop :=
  decode 0x1010C000 = .legal (.setr 1 0x0C) ∧ decode 0x20003005 = .legal (.setrt 0 3 5) ∧
  decode 0x3FE00000 = .legal (.inflate 254) ∧ decode 0x40100000 = .legal (.deflate 1) ∧
  decode 0x50200000 = .legal (.hold 2) ∧ decode 0x60000000 = .legal .holdall ∧
  decode 0x00000000 = .illegal .reservedOpcode ∧ decode 0xFFFFFFFF = .illegal .reservedOpcode

/-- R83: every line whose `idx` and `val` are below 256 and whose `dur` is below 4096 is assembled, to a word that decodes
to that command with those very numbers; every other line is refused, so none is truncated. -/
def Obligations.AssemblerNeverTruncates : Prop :=
  (∀ i v : Nat,
    if i < 256 ∧ v < 256 then
      ∃ w idx val, (SourceCmd.setr i v).assemble = some w ∧ decode w = .legal (.setr idx val) ∧
        idx.toNat = i ∧ val.toNat = v
    else (SourceCmd.setr i v).assemble = none) ∧
  (∀ i v d : Nat,
    if i < 256 ∧ v < 256 ∧ d < 4096 then
      ∃ w idx val dur, (SourceCmd.setrt i v d).assemble = some w ∧ decode w = .legal (.setrt idx val dur) ∧
        idx.toNat = i ∧ val.toNat = v ∧ dur.toNat = d
    else (SourceCmd.setrt i v d).assemble = none) ∧
  (∀ i : Nat,
    if i < 256 then
      ∃ w idx, (SourceCmd.inflate i).assemble = some w ∧ decode w = .legal (.inflate idx) ∧ idx.toNat = i
    else (SourceCmd.inflate i).assemble = none) ∧
  (∀ i : Nat,
    if i < 256 then
      ∃ w idx, (SourceCmd.deflate i).assemble = some w ∧ decode w = .legal (.deflate idx) ∧ idx.toNat = i
    else (SourceCmd.deflate i).assemble = none) ∧
  (∀ i : Nat,
    if i < 256 then ∃ w idx, (SourceCmd.hold i).assemble = some w ∧ decode w = .legal (.hold idx) ∧ idx.toNat = i
    else (SourceCmd.hold i).assemble = none) ∧
  ∃ w, SourceCmd.holdall.assemble = some w ∧ decode w = .legal .holdall

/-! ### The command port -/

/-- R71, R130: an idle core accepts a presented word, any word: C is latched, BUSY set, execution starts at CHECK, and the
trace and the response pulse are cleared (log 4, log 7).  Event by event (log 6) the step is that acceptance and no more;
with one transition per command it is the whole execution of the word on the accepted state, which for a word that decodes
to a command is that command's meaning. -/
def Obligations.StepRunsDecodedInstruction : Prop :=
  ∀ s : State, s.inputs.Quiet → s.busy = false → s.inputs.cmdValid = true →
    let accepted : State :=
      { s with
        cmd := ⟨opcField s.inputs.cmd, idxField s.inputs.cmd, valField s.inputs.cmd, durField s.inputs.cmd⟩
        busy := true, seq := .check, trace := [], rspValid := false }
    (s.inputs.byEvent = true → step s = .next accepted) ∧
    (s.inputs.byEvent = false → step s = execWord s.inputs.cmd accepted) ∧
    (s.inputs.byEvent = false → ∀ i, decode s.inputs.cmd = .legal i → step s = exec i accepted) ∧
    (s.inputs.byEvent = false → s.cfgErr = true → step s = .next (accepted.rejectedWith .configError)) ∧
    (s.inputs.byEvent = false → s.cfgErr = false → ∀ why, decode s.inputs.cmd = .illegal why →
      step s = .next (accepted.rejectedWith .illegalCommand))

/-- R174.  A presented word that spells no command is answered IllegalCommand: nothing else changes, no event. -/
def Obligations.IllegalWordIsRejected : Prop :=
  ∀ (s : State) (why : IllegalWord),
    s.inputs.Quiet → s.busy = false → s.inputs.cmdValid = true → s.inputs.byEvent = false → s.cfgErr = false →
    decode s.inputs.cmd = .illegal why →
    step s = .next ((s.accept s.inputs.cmd).rejectedWith .illegalCommand)

/-- R171.  CHIP_COUNT = 0 at reset sets CFG_ERR and LAST; from then on every word, legal or not, is answered ConfigError
with no other effect; and only a reset with CHIP_COUNT at least 1 clears the condition. -/
def Obligations.ConfigErrorUntilValidReset : Prop :=
  (∀ s : State, (s.resetTo 0).cfgErr = true ∧ (s.resetTo 0).last = .configError) ∧
  (∀ (s : State) (w : CmdWord), s.cfgErr = true → execWord w s = .next (s.rejectedWith .configError)) ∧
  ∀ s t : State, step s = .next t → s.cfgErr = true → t.cfgErr = false →
    (s.inputs.reset = true ∨ s.inputs.powerUp = true) ∧ 1 ≤ s.inputs.chipCount.toNat

/-- R176.  The first test that fires decides: CFG_ERR, the illegal word, the bounds, the interlock; and when none fires the
command ends with OK. -/
def Obligations.OrderOfTests : Prop :=
  ∀ (w : CmdWord) (s : State),
    (s.cfgErr = true → execWord w s = .next (s.rejectedWith .configError)) ∧
    (s.cfgErr = false → ∀ why, decode w = .illegal why → execWord w s = .next (s.rejectedWith .illegalCommand)) ∧
    (s.cfgErr = false → ∀ i, decode w = .legal i →
      (∀ idx, indexOf i = some idx → ¬idx.toNat < s.n.toNat → execWord w s = .next (s.rejectedWith .indexError)) ∧
      ((∀ idx, indexOf i = some idx → idx.toNat < s.n.toNat) →
        (∀ val, requestOf i = some val → contra val = true →
          execWord w s = .next (s.rejectedWith .invalidStateError)) ∧
        ((∀ val, requestOf i = some val → contra val = false) →
          ∃ t, execWord w s = .next t ∧ t.Responded .ok)))

/-- R142.  A command that ends with a code other than OK has changed nothing but LAST, the response and BUSY, and its trace
is empty. -/
def Obligations.RejectedCommandChangesNothing : Prop :=
  ∀ (w : CmdWord) (s t : State), execWord w (s.accept w) = .next t → t.last ≠ .ok →
    t = (s.accept w).rejectedWith t.last ∧ t.trace = [] ∧ t.shadow = s.shadow ∧ t.n = s.n ∧ t.cfgErr = s.cfgErr ∧
    t.holdCnt = s.holdCnt ∧ State.SameLines s t

/-- R72: every accepted word ends with one response, whatever the state; no command stops.  That C keeps its fields after
the response is the model's choice (log 29), and that SEQ is IDLE then is log 28. -/
def Obligations.EveryAcceptedWordResponds : Prop :=
  (∀ (w : CmdWord) (s : State),
    ∃ t code, execWord w s = .next t ∧ t.Responded code ∧ State.SameFixed s t ∧ t.cmd = s.cmd) ∧
  ∀ (i : Instr) (s : State), ∃ t code, exec i s = .next t ∧ t.Responded code ∧ State.SameFixed s t ∧ t.cmd = s.cmd

/-- R71, R210, D16: while BUSY = 1 a presented word is neither accepted nor stored; the step does the same whatever is
presented.  In the step that responds, after which BUSY = 0 and V2 allows C any value, that C keeps its fields is the model's
choice (log 29). -/
def Obligations.BusyCoreIgnoresPresentedWord : Prop :=
  ∀ (s t : State) (valid : Bool) (w : CmdWord), s.busy = true → step s = .next t → s.inputs.Quiet →
    step (s.present valid w) = .next (t.present valid w) ∧ t.cmd = s.cmd

/-- R108: with nothing presented an idle core moves no line and emits nothing; only the response pulse ends (log 4).
That C stays, where V2 allows any value, is the model's choice (log 29). -/
def Obligations.IdleCoreMovesNothing : Prop :=
  ∀ s : State, s.inputs.Quiet → s.busy = false → s.inputs.cmdValid = false →
    step s = .next { s with rspValid := false }

/-- R190, R211, U4 and R179, U5: a second driver is refused and a host-level fault has no step.  The model's choices:
the refusal comes before everything else, RESET too (log 17), and the fault stops every step of a running core and every
acceptance, also outside an UPDATE, where the spec speaks of an UPDATE only (log 18). -/
def Obligations.ForeignDriverAndHostFaultHaveNoStep : Prop :=
  (∀ s : State, s.inputs.foreignDriver = true → step s = .refused .secondDriver) ∧
  ∀ s : State, s.inputs.foreignDriver = false → s.inputs.powerUp = false → s.inputs.reset = false →
    s.inputs.hostFault = true → (s.busy = true ∨ s.inputs.cmdValid = true) → step s = .fault .hostFault

/-! ### The commands -/

/-- R131.  SETR: IndexError, then InvalidStateError, each with nothing done; otherwise the low nibble is the masked request,
the high nibble and every other byte stay, one UPDATE of the new SHADOW is the trace, and the response is OK. -/
def Obligations.SetrSetsTheNibbleAndUpdates : Prop :=
  ∀ (idx : BitVec 8) (val : Byte) (s : State), s.cfgErr = false →
    (¬idx.toNat < s.n.toNat → exec (.setr idx val) s = .next (s.rejectedWith .indexError)) ∧
    (idx.toNat < s.n.toNat → val &&& 0x03 ≠ 0 ∧ val &&& 0x0C ≠ 0 →
      exec (.setr idx val) s = .next (s.rejectedWith .invalidStateError)) ∧
    (idx.toNat < s.n.toNat → ¬(val &&& 0x03 ≠ 0 ∧ val &&& 0x0C ≠ 0) →
      ∃ t, exec (.setr idx val) s = .next t ∧
        t.shadowByte idx.toNat = (s.shadowByte idx.toNat &&& 0xF0) ||| (val &&& 0x0F) ∧
        State.SameShadowBut s t idx.toNat ∧ t.holdCnt = s.holdCnt ∧
        State.TraceGrewBy s t (updateTrace s.n.toNat t.shadow) ∧ State.CompletedOk s t)

/-- R135, R136, R137.  SETRT: tests as SETR; otherwise the trace is an UPDATE of the set state, the wait, and an UPDATE of
the cleared state; at the end the low nibble is 0, HOLD_CNT is 0, and the one response is OK.  For dur = 0 it rests on R137
(D11), not on the reading DUR0_IS_ABSENT of U1 (log 16). -/
def Obligations.SetrtSetsWaitsAndHolds : Prop :=
  ∀ (idx : BitVec 8) (val : Byte) (dur : BitVec 12) (s : State), s.cfgErr = false →
    (¬idx.toNat < s.n.toNat → exec (.setrt idx val dur) s = .next (s.rejectedWith .indexError)) ∧
    (idx.toNat < s.n.toNat → val &&& 0x03 ≠ 0 ∧ val &&& 0x0C ≠ 0 →
      exec (.setrt idx val dur) s = .next (s.rejectedWith .invalidStateError)) ∧
    (idx.toNat < s.n.toNat → ¬(val &&& 0x03 ≠ 0 ∧ val &&& 0x0C ≠ 0) →
      ∃ (t : State) (set : Memory), exec (.setrt idx val dur) s = .next t ∧
        set.read idx.toNat = (s.shadowByte idx.toNat &&& 0xF0) ||| (val &&& 0x0F) ∧
        (∀ a, a ≠ idx.toNat → set.read a = s.shadowByte a) ∧
        t.shadowByte idx.toNat = s.shadowByte idx.toNat &&& 0xF0 ∧
        State.SameShadowBut s t idx.toNat ∧ t.holdCnt = 0 ∧
        State.TraceGrewBy s t
          (updateTrace s.n.toNat set ++ [.delay (.ticks dur)] ++ updateTrace s.n.toNat t.shadow) ∧
        State.CompletedOk s t)

/-- R138.  INFLATE is SETR(idx, 0x03): IndexError when idx is not below N; otherwise the low nibble becomes 0011 whatever it
was. -/
def Obligations.InflateSetsTheInflatePair : Prop :=
  ∀ (idx : BitVec 8) (s : State),
    exec (.inflate idx) s = exec (.setr idx 0x03) s ∧
    (s.cfgErr = false → ¬idx.toNat < s.n.toNat → exec (.inflate idx) s = .next (s.rejectedWith .indexError)) ∧
    (s.cfgErr = false → idx.toNat < s.n.toNat →
      ∃ t, exec (.inflate idx) s = .next t ∧
        t.shadowByte idx.toNat = (s.shadowByte idx.toNat &&& 0xF0) ||| 0x03 ∧
        State.SameShadowBut s t idx.toNat ∧ t.holdCnt = s.holdCnt ∧
        State.TraceGrewBy s t (updateTrace s.n.toNat t.shadow) ∧ State.CompletedOk s t)

/-- R139.  DEFLATE is SETR(idx, 0x0C): IndexError when idx is not below N; otherwise the low nibble becomes 1100 whatever it
was. -/
def Obligations.DeflateSetsTheDeflatePair : Prop :=
  ∀ (idx : BitVec 8) (s : State),
    exec (.deflate idx) s = exec (.setr idx 0x0C) s ∧
    (s.cfgErr = false → ¬idx.toNat < s.n.toNat → exec (.deflate idx) s = .next (s.rejectedWith .indexError)) ∧
    (s.cfgErr = false → idx.toNat < s.n.toNat →
      ∃ t, exec (.deflate idx) s = .next t ∧
        t.shadowByte idx.toNat = (s.shadowByte idx.toNat &&& 0xF0) ||| 0x0C ∧
        State.SameShadowBut s t idx.toNat ∧ t.holdCnt = s.holdCnt ∧
        State.TraceGrewBy s t (updateTrace s.n.toNat t.shadow) ∧ State.CompletedOk s t)

/-- R140.  HOLD: IndexError when idx is not below N; otherwise the low nibble is 0, all else of SHADOW stays, and one UPDATE
runs. -/
def Obligations.HoldClearsOneChip : Prop :=
  ∀ (idx : BitVec 8) (s : State), s.cfgErr = false →
    (¬idx.toNat < s.n.toNat → exec (.hold idx) s = .next (s.rejectedWith .indexError)) ∧
    (idx.toNat < s.n.toNat →
      ∃ t, exec (.hold idx) s = .next t ∧
        t.shadowByte idx.toNat = s.shadowByte idx.toNat &&& 0xF0 ∧
        State.SameShadowBut s t idx.toNat ∧ t.holdCnt = s.holdCnt ∧
        State.TraceGrewBy s t (updateTrace s.n.toNat t.shadow) ∧ State.CompletedOk s t)

/-- R141.  HOLDALL: every byte below N loses its low nibble, then exactly one UPDATE runs; it has no error of its own.  N is
at least 1 in every state that executes commands (R21). -/
def Obligations.HoldallClearsEveryChip : Prop :=
  ∀ s : State, s.cfgErr = false → 0 < s.n.toNat →
    ∃ t, exec .holdall s = .next t ∧
      (∀ a, t.shadowByte a = if a < s.n.toNat then s.shadowByte a &&& 0xF0 else s.shadowByte a) ∧
      t.holdCnt = s.holdCnt ∧ State.TraceGrewBy s t (updateTrace s.n.toNat t.shadow) ∧ State.CompletedOk s t

/-- R140 (a sentence the spec marks as derived): HOLD(idx) has the same effect and trace as SETR(idx, 0x00). -/
def Obligations.HoldIsSetrOfZero : Prop :=
  ∀ (idx : BitVec 8) (s : State), exec (.hold idx) s = exec (.setr idx 0x00) s

/-- R145.  INFLATE then DEFLATE of one chip is accepted, with no HOLD between: the interlock reads the single request. -/
def Obligations.ReversalIsAccepted : Prop :=
  ∀ (idx : BitVec 8) (s : State), s.cfgErr = false → idx.toNat < s.n.toNat →
    ∃ t u, exec (.inflate idx) s = .next t ∧ t.shadowByte idx.toNat &&& 0x0F = 0x03 ∧
      exec (.deflate idx) (t.accept (encode (.deflate idx))) = .next u ∧ u.last = .ok ∧
      u.shadowByte idx.toNat &&& 0x0F = 0x0C

/-- The variant 95_test_vectors.md section 4 calls deliberately false: after `inflate i`, `deflate i` is rejected. -/
def Obligations.ReversalIsRejected : Prop :=
  ∀ (idx : BitVec 8) (s t u : State), s.cfgErr = false → idx.toNat < s.n.toNat →
    exec (.inflate idx) s = .next t → exec (.deflate idx) (t.accept (encode (.deflate idx))) = .next u → u.last ≠ .ok

/-- R146.  Whatever the last command answered, a presented HOLDALL succeeds; after a failed construction it answers
ConfigError and every relay is inactive (disabled outputs: log 13). -/
def Obligations.HoldallAlwaysReachable : Prop :=
  ∀ s : State, s.Inv → s.inputs.Quiet → s.busy = false → s.inputs.cmdValid = true → s.inputs.byEvent = false →
    s.inputs.cmd = 0x60000000 →
    (s.cfgErr = false → ∃ t, step s = .next t ∧ t.Responded .ok ∧ ∀ k, t.shadowByte k &&& 0x0F = 0) ∧
    (s.cfgErr = true → ∃ t, step s = .next t ∧ t.Responded .configError ∧ ∀ k j, t.relay k j = false)

/-- R152 (marked as derived).  A rejected command has 0 events; SETRT 80N + 13; every other command that ends with OK
40N + 6.  For SETRT with dur = 0 it rests on R137 (D11) and not on U1's other reading (log 16). -/
def Obligations.TraceLengths : Prop :=
  ∀ (i : Instr) (s t : State), exec i s = .next t →
    (t.last ≠ .ok → t.trace = s.trace) ∧
    (t.last = .ok → t.trace.length = s.trace.length +
      match durationOf i with
      | some _ => 80 * s.n.toNat + 13
      | none => 40 * s.n.toNat + 6)

/-! ### Operands and flags -/

/-- R132.  CONTRA is true for nine low nibbles, false for seven, and reads no other bit. -/
def Obligations.InterlockPredicateTable : Prop :=
  ∀ v : Byte,
    (contra v = true ↔ (v &&& 0x0F) ∈ ([0x5, 0x6, 0x7, 0x9, 0xA, 0xB, 0xD, 0xE, 0xF] : List Byte)) ∧
    (contra v = false ↔ (v &&& 0x0F) ∈ ([0x0, 0x1, 0x2, 0x3, 0x4, 0x8, 0xC] : List Byte)) ∧
    (contra v = true ↔ v &&& 0x03 ≠ 0 ∧ v &&& 0x0C ≠ 0)

/-- R133.  The merge takes bits 3 to 0 from the request and bits 7 to 4 from the old byte. -/
def Obligations.MergeReplacesLowNibble : Prop :=
  ∀ old v : Byte, (∀ j, j < 4 → (merge old v).getLsbD j = v.getLsbD j) ∧
    (∀ j, 4 ≤ j → (merge old v).getLsbD j = old.getLsbD j) ∧ merge old v = (old &&& 0xF0) ||| (v &&& 0x0F)

/-- R134, R150 (both marked as derived): the verdict is the same before and after the mask, and on the merged byte. -/
def Obligations.VerdictSurvivesMaskAndMerge : Prop :=
  ∀ old v : Byte, contra v = contra (v &&& 0x0F) ∧ contra (merge old v) = contra v ∧ contra (clearLow old) = false

/-- R34, R85.  The STATUS word's fields, its reset value for every CHIP_COUNT, and the numbers of the status codes, none of
them 5 to 7. -/
def Obligations.StatusWordFields : Prop :=
  (∀ s : State,
    s.statusWord.toNat % 256 = s.n.toNat ∧ s.statusWord.getLsbD 8 = s.cfgErr ∧ s.statusWord.getLsbD 9 = s.busy ∧
    s.statusWord.getLsbD 10 = s.oeDis ∧ s.statusWord.toNat / 2 ^ 11 % 8 = s.last.code.toNat ∧
    s.statusWord.getLsbD 14 = false ∧ s.statusWord.getLsbD 15 = false) ∧
  (∀ c : BitVec 8, (State.afterReset c).statusWord.toNat =
    if c = 0 then 0x0D00 else 0x0400 + c.toNat) ∧
  Status.ok.code = 0 ∧ Status.configError.code = 1 ∧ Status.indexError.code = 2 ∧ Status.invalidStateError.code = 3 ∧
  Status.illegalCommand.code = 4 ∧ ∀ e : Status, e.code.toNat ≤ 4

/-- R39, with the two other ports that are functions of a flag: a relay is energised iff outputs are enabled and its OUT
bit is 1 (log 13); the line OE is at OE_DISABLE_LEVEL iff outputs are disabled, whatever that level is (R28, log 14);
CMD_READY is not BUSY (R70, R71). -/
def Obligations.RelayIsGatedOutput : Prop :=
  (∀ (s : State) (k j : Nat), k < s.out.length → j < 8 →
    (s.relay k j = true ↔ s.oeDis = false ∧ ∃ b, s.out[k]? = some b ∧ b.getLsbD j = true)) ∧
  (∀ s : State, s.oeLevel = Config.oeDisableLevel ↔ s.oeDis = true) ∧
  ∀ s : State, s.cmdReady = true ↔ s.busy = false

/-! ### The chain driver -/

/-- R57.  SHIFTOUT sends bit(s) as the s-th DATA level: last chip first, most-significant bit first; for two chips `[A, B]`
that is B's eight bits, then A's. -/
def Obligations.ShiftOutSendsTheWireOrder : Prop :=
  (∀ (n : Nat) (m : Memory), (shiftOut n m).filterMap Event.dataLevel = wireBits n m) ∧
  ∀ (m : Memory) (A B : Byte), m.bytes 2 = [A, B] →
    (shiftOut 2 m).filterMap Event.dataLevel = msbFirst B ++ msbFirst A

/-- R106 (marked as derived): the trace of one UPDATE in full, and the counts of its events. -/
def Obligations.UpdateTraceInFull : Prop :=
  ∀ (n : Nat) (m : Memory),
    updateTrace n m =
      [.emit .oe true] ++
      ((List.range (8 * n)).flatMap fun s =>
        [.emit .data (wireBit n m s), .emit .clock true, .delay .settle, .emit .clock false, .delay .settle]) ++
      [.emit .latch true, .delay .settle, .emit .latch false, .delay .settle, .emit .oe false] ∧
    (updateTrace n m).length = 40 * n + 6 ∧
    (updateTrace n m).countP (fun e => e.isEmit) = 24 * n + 4 ∧
    (updateTrace n m).countP (fun e => !e.isEmit) = 16 * n + 2 ∧
    (updateTrace n m).count (.emit .clock true) = 8 * n ∧ (updateTrace n m).count (.emit .latch true) = 1

/-- R114 under the structure of R113 (the stage order is general knowledge, K1, log 11): a rising edge of CLOCK shifts the
whole chain by one; nothing else moves SR but that edge, and CLOCK never moves OUT. -/
def Obligations.ClockEdgeShiftsTheChain : Prop :=
  (∀ s : State, s.clock = false →
    (s.emit (.emit .clock true)).sr.length = s.sr.length ∧
    (∀ k j, k < s.sr.length → j < 8 →
      ((s.emit (.emit .clock true)).sr.getD k 0).getLsbD j =
        if j ≠ 0 then (s.sr.getD k 0).getLsbD (j - 1)
        else if k = 0 then s.data else (s.sr.getD (k - 1) 0).getLsbD 7) ∧
    chainNumber (s.emit (.emit .clock true)).sr =
      (2 * chainNumber s.sr + s.data.toNat) % 2 ^ (8 * s.sr.length)) ∧
  (∀ (s : State) (e : Event), (e ≠ .emit .clock true ∨ s.clock = true) → (s.emit e).sr = s.sr) ∧
  ∀ (s : State) (v : Bool), (s.emit (.emit .clock v)).out = s.out

/-- R115 (the rising edge is general knowledge, K1, log 12): a rising edge of LATCH copies every SR[k] to OUT[k] at once;
nothing else moves OUT. -/
def Obligations.LatchEdgeCommitsTheChain : Prop :=
  (∀ s : State, s.latch = false →
    (s.emit (.emit .latch true)).out = s.sr ∧ (s.emit (.emit .latch true)).sr = s.sr) ∧
  ∀ (s : State) (e : Event), (e ≠ .emit .latch true ∨ s.latch = true) → (s.emit e).out = s.out

/-- R116, R58 and R204(a) (all marked as derived; stage order K1, log 11): after SHIFTOUT a real chain of any length holds
the first of SHADOW's N bytes followed by what it held before; so a chain of N chips holds SHADOW, a shorter one is loaded
correctly, and chips beyond N hold old contents. -/
def Obligations.ShiftOutLoadsTheRealChain : Prop :=
  ∀ (s : State) (n : Nat) (m : Memory), s.clock = false →
    (s.emitAll (shiftOut n m)).sr = (m.bytes n ++ s.sr).take s.sr.length

/-- R117 (marked as derived; a real chain as long as N, log 10; stage order, log 11; relays, log 13): after an UPDATE, and
after every command that ends with OK, SR = OUT = SHADOW and every relay shows its bit, whatever the chain held before. -/
def Obligations.OkCommandLeavesChainShowingShadow : Prop :=
  (∀ s : State, s.chainFits → s.linesIdle → 0 < s.n.toNat → s.update.ChainShowsShadow) ∧
  ∀ (i : Instr) (s t : State), s.chainFits → s.linesIdle → 0 < s.n.toNat → exec i s = .next t → t.last = .ok →
    t.ChainShowsShadow

/-- R118 (marked as derived; a real chain as long as N, log 10; stage order, log 11): a second UPDATE leaves the chain and the lines as the first did, and is emitted in full. -/
def Obligations.UpdateTwiceIsUpdateOnce : Prop :=
  ∀ s : State, s.chainFits → s.linesIdle →
    s.update.update = { s.update with trace := s.trace ++ updateTrace s.n.toNat s.shadow ++ updateTrace s.n.toNat s.shadow }

/-- R109, R212 (marked as derived; a disabled output leaves its relay unenergised, log 13): from the first event of an UPDATE until its last, outputs are disabled and every relay
of every chip is inactive. -/
def Obligations.OutputsDisabledThroughoutUpdate : Prop :=
  ∀ (s : State) (before after : List Event), updateTrace s.n.toNat s.shadow = before ++ after →
    before ≠ [] → after ≠ [] →
    (s.emitAll before).oeDis = true ∧ ∀ k j, (s.emitAll before).relay k j = false

/-- R110 (marked as derived): at the s-th rising edge of CLOCK inside an UPDATE, CLOCK was low and DATA is bit(s). -/
def Obligations.DataStableAtEachClockEdge : Prop :=
  ∀ (s : State) (before after : List Event), s.clock = false →
    updateTrace s.n.toNat s.shadow = before ++ .emit .clock true :: after →
    (s.emitAll before).clock = false ∧
    (s.emitAll before).data = wireBit s.n.toNat s.shadow (before.count (.emit .clock true))

/-- R111 (marked as derived): the latch pulse comes after all 8N clock pulses, with CLOCK low, and SR is constant from then
to the end of the UPDATE. -/
def Obligations.LatchPulseAfterLastClock : Prop :=
  ∀ (s : State) (before after : List Event), s.clock = false →
    updateTrace s.n.toNat s.shadow = before ++ .emit .latch true :: after →
    before.count (.emit .clock true) = 8 * s.n.toNat ∧ (s.emitAll before).clock = false ∧
    (s.emitAll before).oeDis = true ∧
    ∀ part rest, after = part ++ rest →
      (s.emitAll (before ++ .emit .latch true :: part)).sr = (s.emitAll before).sr ∧
      (s.emitAll (before ++ .emit .latch true :: part)).clock = false

/-- R112, R220, R221 (marked as derived; T_SETTLE and T_TICK are free and an emit takes no time, log 15): how long an
UPDATE and each command last, and that a rejected command takes no time; an UPDATE starts by disabling outputs, reaches its
LATCH rising edge 16N * T_SETTLE later, and ends by enabling them; between the last event of a SETRT's first UPDATE and the
first event of its second, relays on, exactly dur * T_TICK pass.  For dur = 0 it rests on R137 (D11) and not on U1's other
reading (log 16). -/
def Obligations.HowLongCommandsLast : Prop :=
  (∀ (n : Nat) (m : Memory), traceTime (updateTrace n m) = (16 * n + 2) * Config.tSettle) ∧
  (∀ (i : Instr) (s t : State), exec i s = .next t → t.last = .ok →
    traceTime t.trace = traceTime s.trace +
      match durationOf i with
      | some dur => 2 * ((16 * s.n.toNat + 2) * Config.tSettle) + dur.toNat * Config.tTick
      | none => (16 * s.n.toNat + 2) * Config.tSettle) ∧
  (∀ (i : Instr) (s t : State), exec i s = .next t → t.last ≠ .ok → traceTime t.trace = traceTime s.trace) ∧
  (∀ (n : Nat) (m : Memory),
    (updateTrace n m).head? = some (.emit .oe true) ∧ (updateTrace n m).getLast? = some (.emit .oe false) ∧
    ∀ before after, updateTrace n m = before ++ .emit .latch true :: after →
      traceTime before = 16 * n * Config.tSettle) ∧
  ∀ (idx : BitVec 8) (val : Byte) (dur : BitVec 12) (s t : State),
    exec (.setrt idx val dur) s = .next t → t.last = .ok →
    ∃ (set : Memory) (held : List Event),
      t.trace = s.trace ++ updateTrace s.n.toNat set ++ held ++ updateTrace s.n.toNat t.shadow ∧
      (∀ e ∈ held, e.isEmit = false) ∧ traceTime held = dur.toNat * Config.tTick

/-! ### Reset -/

/-- R200, with R202 (marked as derived), R203 and R181: RESET, in any state and whatever else is asserted, gives the reset
state of its CHIP_COUNT: no response, no event, the chain untouched, every relay inactive.  The model's choices: RSP_VALID
falls at RESET (log 4), the trace stays (log 7), a RESET still held does the same again (log 30), a second driver is refused
first (log 17), and a disabled output leaves its relay unenergised (log 13). -/
def Obligations.ResetFromAnyState : Prop :=
  ∀ s : State, s.inputs.foreignDriver = false → s.inputs.powerUp = false → s.inputs.reset = true →
    ∃ t, step s = .next t ∧
      t.data = false ∧ t.clock = false ∧ t.latch = false ∧ t.oeDis = true ∧ t.busy = false ∧ t.holdCnt = 0 ∧
      t.seq = .idle ∧ t.n = s.inputs.chipCount ∧
      (t.cfgErr = true ↔ s.inputs.chipCount = 0) ∧
      t.last = (if s.inputs.chipCount = 0 then .configError else .ok) ∧
      t.shadowBytes = List.replicate s.inputs.chipCount.toNat 0 ∧
      t.sr = s.sr ∧ t.out = s.out ∧ t.trace = s.trace ∧ t.rspValid = false ∧ ∀ k j, t.relay k j = false

/-- R192, R201 with R200 and V1: nothing survives a loss of power; power-on gives the reset state of its CHIP_COUNT, the
response port as after a fresh reset (log 4), no event (log 7), and a chain of the same length whose contents are free
values, drawn anew each time (log 23).  Relays behind disabled outputs: log 13. -/
def Obligations.PowerOnGivesResetState : Prop :=
  ∀ s : State, s.inputs.foreignDriver = false → s.inputs.powerUp = true →
    ∃ t, step s = .next t ∧
      t.data = false ∧ t.clock = false ∧ t.latch = false ∧ t.oeDis = true ∧ t.busy = false ∧ t.holdCnt = 0 ∧
      t.seq = .idle ∧ t.n = s.inputs.chipCount ∧
      (t.cfgErr = true ↔ s.inputs.chipCount = 0) ∧
      t.last = (if s.inputs.chipCount = 0 then .configError else .ok) ∧
      t.shadow = [] ∧ t.shadowBytes = List.replicate s.inputs.chipCount.toNat 0 ∧
      t.rspValid = false ∧ t.rspStatus = .ok ∧ t.trace = [] ∧
      t.sr.length = s.sr.length ∧ t.out.length = s.out.length ∧
      (∀ k, k < s.sr.length → t.sr[k]? = some (Config.powerOnShift s.draws k)) ∧
      (∀ k, k < s.out.length → t.out[k]? = some (Config.powerOnOutput s.draws k)) ∧
      t.draws = s.draws + 1 ∧ ∀ k j, t.relay k j = false

/-- R42: the collected reset values of a fresh block, for every CHIP_COUNT.  `State.reset` is the one with CHIP_COUNT = 2, a
choice of the model (log 1). -/
def Obligations.FreshBlockHoldsResetValues : Prop :=
  State.reset = State.afterReset 2 ∧
  ∀ c : BitVec 8,
    let s := State.afterReset c
    s.n = c ∧ (s.cfgErr = true ↔ c = 0) ∧ s.shadowBytes = List.replicate c.toNat 0 ∧ s.data = false ∧ s.clock = false ∧
    s.latch = false ∧ s.oeDis = true ∧ s.busy = false ∧ s.last = (if c = 0 then .configError else .ok) ∧
    s.holdCnt = 0 ∧ s.seq = .idle ∧ ∀ k j, s.relay k j = false

/-! ### What steps keep -/

/-- R21, R22, R41, R201: only reset writes N and CFG_ERR. -/
def Obligations.OnlyResetChangesChipCount : Prop :=
  ∀ s t : State, step s = .next t → s.inputs.reset = false → s.inputs.powerUp = false →
    t.n = s.n ∧ t.cfgErr = s.cfgErr ∧ t.shadowBytes.length = s.shadowBytes.length ∧ t.inputs = s.inputs

/-- R24.  No chip byte ever holds both bit-groups: reset establishes it and every step keeps it. -/
def Obligations.StepKeepsInterlock : Prop :=
  (∀ c, (State.afterReset c).shadow.interlocked) ∧
  ∀ s t : State, s.shadow.interlocked → step s = .next t → t.shadow.interlocked

/-- R40: no step but a reset writes the high nibble of a chip byte, in any state. -/
def Obligations.StepKeepsHighNibble : Prop :=
  ∀ s t : State, step s = .next t → s.inputs.reset = false → s.inputs.powerUp = false →
    ∀ k, t.shadowByte k &&& 0xF0 = s.shadowByte k &&& 0xF0

/-- R41 with the canonical form of log 19: SHADOW stays a canonical array of N bytes. -/
def Obligations.StepKeepsCanonicalShadow : Prop :=
  ∀ s t : State, s.shadow.wf = true → s.shadow.within s.n.toNat = true → step s = .next t →
    t.shadow.wf = true ∧ t.shadow.within t.n.toNat = true

/-- The invariant (R21, R22, R24, R26, R27, R29, R33, R40, R41, R58, R109, R117, R136, R146, R151) holds after reset, for
every CHIP_COUNT.  Its choices are those StepKeepsInvariant names (logs 10, 11, 12, 19), and the fresh chain's length and
contents are log 2. -/
def Obligations.FreshBlockMeetsInvariant : Prop := ∀ c, (State.afterReset c).Inv

/-- Every step keeps the invariant (R21, R22, R24, R26, R27, R29, R33, R40, R41, R58, R109, R117, R136, R146, R151), whatever
the outside world holds.  What it says of the chain rests on a real chain as long as N (log 10, DEDUCED), on the stage order
(log 11, PRESUMED) and, at LATCH(WAIT_HIGH) and LATCH(LOW), where OUT = SHADOW already, on OUT taking SR at the rising edge
of LATCH (log 12, PRESUMED); that SHADOW is a canonical list is log 19 (DEDUCED). -/
def Obligations.StepKeepsInvariant : Prop :=
  ∀ (s t : State) (i : Inputs), s.Inv → step (s.withInputs i) = .next t → t.Inv

/-- R87, R107, U5: from a state of the invariant a step stops only on a second driver or a host-level fault; the model's own
sequencer faults (log 21) are not reached. -/
def Obligations.InvariantStatesAlwaysStep : Prop :=
  ∀ s : State, s.Inv → s.inputs.foreignDriver = false → s.inputs.hostFault = false → ∃ t, step s = .next t

/-- R145, R109, R150 (marked as derived; a real chain as long as N, log 10; stage order, log 11; relays, log 13): in no
state of the invariant, and so at no instant of any run, are an inflate and a deflate relay of one chip both energised. -/
def Obligations.NoReachableStateDrivesBothGroups : Prop :=
  (∀ s : State, s.Inv → s.chainFits → s.RelaysSafe) ∧ ∀ (c : BitVec 8) (s : State), Reachable c s → s.RelaysSafe

/-- R62, R151 (marked as derived; a real chain as long as N, log 10; stage order, log 11; relays, log 13): at rest, with
outputs enabled, the chain and the relays show SHADOW, CLOCK and LATCH are low, DATA is the last bit sent and HOLD_CNT is 0;
with outputs disabled every relay is inactive.  It holds in every state of the invariant, and so at rest in every run. -/
def Obligations.ConsistentAtRest : Prop :=
  ∀ s : State, (s.Inv ∧ s.chainFits ∨ ∃ c, Reachable c s) → s.busy = false →
    s.seq = .idle ∧ s.clock = false ∧ s.latch = false ∧ s.holdCnt = 0 ∧
    (s.oeDis = false → s.cfgErr = false ∧ s.ChainShowsShadow ∧ s.data = (s.shadowByte 0).getLsbD 0) ∧
    (s.oeDis = true → ∀ k j, s.relay k j = false)

/-- R204(c), R105: outputs become enabled only at the end of an UPDATE: by the last position of one, or by a whole command
that ends with OK. -/
def Obligations.OutputsEnabledOnlyByAnUpdate : Prop :=
  ∀ s t : State, step s = .next t → s.oeDis = true → t.oeDis = false →
    (∃ u, s.seq = .oeOn u) ∨ (s.busy = false ∧ s.inputs.cmdValid = true ∧ t.Responded .ok)

/-! ### One position at a time -/

/-- R33, D22: a busy core advances by one position per step, and RESET apart nothing else happens to it. -/
def Obligations.BusyStepIsOnePosition : Prop :=
  ∀ s : State, s.inputs.Quiet → s.busy = true → step s = seqStep s

/-- D22, "the two must give the same traces": from acceptance, stepping SEQ position by position comes to the very state the
one transition gives, trace included, and BUSY is 1 until then.  The count of positions is that of R33
and R106 with the model's choices: the wait's dur + 1 positions (log 8) and the eventless actions beside the events (log 9).
For dur = 0 it rests on R137 (D11) and not on U1's other reading (log 16). -/
def Obligations.EventRunEqualsOneTransition : Prop :=
  ∀ (w : CmdWord) (s : State),
    seqRun (positionsOf w s) (s.accept w) = execWord w (s.accept w) ∧
    ∀ j, j < positionsOf w s → ∃ t, seqRun j (s.accept w) = .next t ∧ t.busy = true

/-- R135, R136 and P4 of 95_test_vectors.md: when the first UPDATE of a SETRT has ended, the core waits with HOLD_CNT = dur,
outputs enabled, SHADOW holding the request and the chain showing it (a real chain as long as N, log 10; stage order,
log 11; relays, log 13).  The count of positions rests on log 9, and dur = 0 on R137 (D11) and not on U1's other reading
(log 16). -/
def Obligations.SetrtHoldsTheRequestWhileWaiting : Prop :=
  ∀ (idx : BitVec 8) (val : Byte) (dur : BitVec 12) (s : State), s.cfgErr = false → idx.toNat < s.n.toNat →
    contra val = false →
    ∃ t, seqRun (1 + (40 * s.n.toNat + 6)) (s.accept (encode (.setrt idx val dur))) = .next t ∧
      t.seq = .wait ∧ t.busy = true ∧ t.holdCnt = dur ∧ t.oeDis = false ∧
      t.shadowByte idx.toNat = (s.shadowByte idx.toNat &&& 0xF0) ||| (val &&& 0x0F) ∧
      State.SameShadowBut s t idx.toNat ∧ t.trace = updateTrace s.n.toNat t.shadow ∧
      (s.chainFits → s.linesIdle → t.ChainShowsShadow)

/-- R136, R147 (the step per period is the model's, log 8): while HOLD_CNT counts down nothing else changes; the position
after the last period ends the wait with its one event and clears the chip's low nibble, and the second UPDATE is next. -/
def Obligations.WaitCountsDownAndEnds : Prop :=
  ∀ s : State, s.seq = .wait →
    (∀ j, j ≤ s.holdCnt.toNat → seqRun j s = .next { s with holdCnt := s.holdCnt - BitVec.ofNat 12 j }) ∧
    ∃ t, seqRun (s.holdCnt.toNat + 1) s = .next t ∧ t.seq = .oeOff .second ∧ t.holdCnt = 0 ∧ t.busy = s.busy ∧
      t.shadowByte s.cmd.idx.toNat = s.shadowByte s.cmd.idx.toNat &&& 0xF0 ∧
      State.SameShadowBut s t s.cmd.idx.toNat ∧ State.SameLines s t ∧ State.SameFixed s t ∧ t.cmd = s.cmd ∧
      State.TraceGrewBy s t [.delay (.ticks s.cmd.dur)]

/-- R108 (marked as derived): the tests and the wait move no line and no chip. -/
def Obligations.ChecksAndWaitMoveNoLine : Prop :=
  ∀ s t : State, (s.seq = .check ∨ s.seq = .wait) → seqStep s = .next t → State.SameLines s t
end

