-- ==== Sys2Proof/Laws/State.lean ====
section
/-! SUPPORT. One lemma per field per update of State, true by rfl, so that no proof unfolds a record update. -/

namespace Sys2Proof.Machine

variable (s : State)


/-! ### State.accept -/

@[simp] theorem State.accept_n (w : CmdWord) : (s.accept w).n = s.n := rfl
@[simp] theorem State.accept_cfgErr (w : CmdWord) : (s.accept w).cfgErr = s.cfgErr := rfl
@[simp] theorem State.accept_shadow (w : CmdWord) : (s.accept w).shadow = s.shadow := rfl
@[simp] theorem State.accept_data (w : CmdWord) : (s.accept w).data = s.data := rfl
@[simp] theorem State.accept_clock (w : CmdWord) : (s.accept w).clock = s.clock := rfl
@[simp] theorem State.accept_latch (w : CmdWord) : (s.accept w).latch = s.latch := rfl
@[simp] theorem State.accept_oeDis (w : CmdWord) : (s.accept w).oeDis = s.oeDis := rfl
@[simp] theorem State.accept_busy (w : CmdWord) : (s.accept w).busy = true := rfl
@[simp] theorem State.accept_last (w : CmdWord) : (s.accept w).last = s.last := rfl
@[simp] theorem State.accept_holdCnt (w : CmdWord) : (s.accept w).holdCnt = s.holdCnt := rfl
@[simp] theorem State.accept_cmd (w : CmdWord) : (s.accept w).cmd = Command.ofWord w := rfl
@[simp] theorem State.accept_seq (w : CmdWord) : (s.accept w).seq = .check := rfl
@[simp] theorem State.accept_sr (w : CmdWord) : (s.accept w).sr = s.sr := rfl
@[simp] theorem State.accept_out (w : CmdWord) : (s.accept w).out = s.out := rfl
@[simp] theorem State.accept_rspValid (w : CmdWord) : (s.accept w).rspValid = false := rfl
@[simp] theorem State.accept_rspStatus (w : CmdWord) : (s.accept w).rspStatus = s.rspStatus := rfl
@[simp] theorem State.accept_trace (w : CmdWord) : (s.accept w).trace = [] := rfl
@[simp] theorem State.accept_draws (w : CmdWord) : (s.accept w).draws = s.draws := rfl
@[simp] theorem State.accept_inputs (w : CmdWord) : (s.accept w).inputs = s.inputs := rfl

/-! ### State.respond -/

@[simp] theorem State.respond_n (code : Status) : (s.respond code).n = s.n := rfl
@[simp] theorem State.respond_cfgErr (code : Status) : (s.respond code).cfgErr = s.cfgErr := rfl
@[simp] theorem State.respond_shadow (code : Status) : (s.respond code).shadow = s.shadow := rfl
@[simp] theorem State.respond_data (code : Status) : (s.respond code).data = s.data := rfl
@[simp] theorem State.respond_clock (code : Status) : (s.respond code).clock = s.clock := rfl
@[simp] theorem State.respond_latch (code : Status) : (s.respond code).latch = s.latch := rfl
@[simp] theorem State.respond_oeDis (code : Status) : (s.respond code).oeDis = s.oeDis := rfl
@[simp] theorem State.respond_busy (code : Status) : (s.respond code).busy = false := rfl
@[simp] theorem State.respond_last (code : Status) : (s.respond code).last = code := rfl
@[simp] theorem State.respond_holdCnt (code : Status) : (s.respond code).holdCnt = s.holdCnt := rfl
@[simp] theorem State.respond_cmd (code : Status) : (s.respond code).cmd = s.cmd := rfl
@[simp] theorem State.respond_seq (code : Status) : (s.respond code).seq = .idle := rfl
@[simp] theorem State.respond_sr (code : Status) : (s.respond code).sr = s.sr := rfl
@[simp] theorem State.respond_out (code : Status) : (s.respond code).out = s.out := rfl
@[simp] theorem State.respond_rspValid (code : Status) : (s.respond code).rspValid = true := rfl
@[simp] theorem State.respond_rspStatus (code : Status) : (s.respond code).rspStatus = code := rfl
@[simp] theorem State.respond_trace (code : Status) : (s.respond code).trace = s.trace := rfl
@[simp] theorem State.respond_draws (code : Status) : (s.respond code).draws = s.draws := rfl
@[simp] theorem State.respond_inputs (code : Status) : (s.respond code).inputs = s.inputs := rfl

/-! ### State.raise -/

@[simp] theorem State.raise_n (e : Status) : (s.raise e).n = s.n := rfl
@[simp] theorem State.raise_cfgErr (e : Status) : (s.raise e).cfgErr = s.cfgErr := rfl
@[simp] theorem State.raise_shadow (e : Status) : (s.raise e).shadow = s.shadow := rfl
@[simp] theorem State.raise_data (e : Status) : (s.raise e).data = s.data := rfl
@[simp] theorem State.raise_clock (e : Status) : (s.raise e).clock = s.clock := rfl
@[simp] theorem State.raise_latch (e : Status) : (s.raise e).latch = s.latch := rfl
@[simp] theorem State.raise_oeDis (e : Status) : (s.raise e).oeDis = s.oeDis := rfl
@[simp] theorem State.raise_busy (e : Status) : (s.raise e).busy = false := rfl
@[simp] theorem State.raise_last (e : Status) : (s.raise e).last = e := rfl
@[simp] theorem State.raise_holdCnt (e : Status) : (s.raise e).holdCnt = s.holdCnt := rfl
@[simp] theorem State.raise_cmd (e : Status) : (s.raise e).cmd = s.cmd := rfl
@[simp] theorem State.raise_seq (e : Status) : (s.raise e).seq = .idle := rfl
@[simp] theorem State.raise_sr (e : Status) : (s.raise e).sr = s.sr := rfl
@[simp] theorem State.raise_out (e : Status) : (s.raise e).out = s.out := rfl
@[simp] theorem State.raise_rspValid (e : Status) : (s.raise e).rspValid = true := rfl
@[simp] theorem State.raise_rspStatus (e : Status) : (s.raise e).rspStatus = e := rfl
@[simp] theorem State.raise_trace (e : Status) : (s.raise e).trace = s.trace := rfl
@[simp] theorem State.raise_draws (e : Status) : (s.raise e).draws = s.draws := rfl
@[simp] theorem State.raise_inputs (e : Status) : (s.raise e).inputs = s.inputs := rfl

/-! ### State.idle -/

@[simp] theorem State.idle_n : s.idle.n = s.n := rfl
@[simp] theorem State.idle_cfgErr : s.idle.cfgErr = s.cfgErr := rfl
@[simp] theorem State.idle_shadow : s.idle.shadow = s.shadow := rfl
@[simp] theorem State.idle_data : s.idle.data = s.data := rfl
@[simp] theorem State.idle_clock : s.idle.clock = s.clock := rfl
@[simp] theorem State.idle_latch : s.idle.latch = s.latch := rfl
@[simp] theorem State.idle_oeDis : s.idle.oeDis = s.oeDis := rfl
@[simp] theorem State.idle_busy : s.idle.busy = s.busy := rfl
@[simp] theorem State.idle_last : s.idle.last = s.last := rfl
@[simp] theorem State.idle_holdCnt : s.idle.holdCnt = s.holdCnt := rfl
@[simp] theorem State.idle_cmd : s.idle.cmd = s.cmd := rfl
@[simp] theorem State.idle_seq : s.idle.seq = s.seq := rfl
@[simp] theorem State.idle_sr : s.idle.sr = s.sr := rfl
@[simp] theorem State.idle_out : s.idle.out = s.out := rfl
@[simp] theorem State.idle_rspValid : s.idle.rspValid = false := rfl
@[simp] theorem State.idle_rspStatus : s.idle.rspStatus = s.rspStatus := rfl
@[simp] theorem State.idle_trace : s.idle.trace = s.trace := rfl
@[simp] theorem State.idle_draws : s.idle.draws = s.draws := rfl
@[simp] theorem State.idle_inputs : s.idle.inputs = s.inputs := rfl

/-! ### State.goto -/

@[simp] theorem State.goto_n (q : Seq) : (s.goto q).n = s.n := rfl
@[simp] theorem State.goto_cfgErr (q : Seq) : (s.goto q).cfgErr = s.cfgErr := rfl
@[simp] theorem State.goto_shadow (q : Seq) : (s.goto q).shadow = s.shadow := rfl
@[simp] theorem State.goto_data (q : Seq) : (s.goto q).data = s.data := rfl
@[simp] theorem State.goto_clock (q : Seq) : (s.goto q).clock = s.clock := rfl
@[simp] theorem State.goto_latch (q : Seq) : (s.goto q).latch = s.latch := rfl
@[simp] theorem State.goto_oeDis (q : Seq) : (s.goto q).oeDis = s.oeDis := rfl
@[simp] theorem State.goto_busy (q : Seq) : (s.goto q).busy = s.busy := rfl
@[simp] theorem State.goto_last (q : Seq) : (s.goto q).last = s.last := rfl
@[simp] theorem State.goto_holdCnt (q : Seq) : (s.goto q).holdCnt = s.holdCnt := rfl
@[simp] theorem State.goto_cmd (q : Seq) : (s.goto q).cmd = s.cmd := rfl
@[simp] theorem State.goto_seq (q : Seq) : (s.goto q).seq = q := rfl
@[simp] theorem State.goto_sr (q : Seq) : (s.goto q).sr = s.sr := rfl
@[simp] theorem State.goto_out (q : Seq) : (s.goto q).out = s.out := rfl
@[simp] theorem State.goto_rspValid (q : Seq) : (s.goto q).rspValid = s.rspValid := rfl
@[simp] theorem State.goto_rspStatus (q : Seq) : (s.goto q).rspStatus = s.rspStatus := rfl
@[simp] theorem State.goto_trace (q : Seq) : (s.goto q).trace = s.trace := rfl
@[simp] theorem State.goto_draws (q : Seq) : (s.goto q).draws = s.draws := rfl
@[simp] theorem State.goto_inputs (q : Seq) : (s.goto q).inputs = s.inputs := rfl

/-! ### State.withInputs -/

@[simp] theorem State.withInputs_n (i : Inputs) : (s.withInputs i).n = s.n := rfl
@[simp] theorem State.withInputs_cfgErr (i : Inputs) : (s.withInputs i).cfgErr = s.cfgErr := rfl
@[simp] theorem State.withInputs_shadow (i : Inputs) : (s.withInputs i).shadow = s.shadow := rfl
@[simp] theorem State.withInputs_data (i : Inputs) : (s.withInputs i).data = s.data := rfl
@[simp] theorem State.withInputs_clock (i : Inputs) : (s.withInputs i).clock = s.clock := rfl
@[simp] theorem State.withInputs_latch (i : Inputs) : (s.withInputs i).latch = s.latch := rfl
@[simp] theorem State.withInputs_oeDis (i : Inputs) : (s.withInputs i).oeDis = s.oeDis := rfl
@[simp] theorem State.withInputs_busy (i : Inputs) : (s.withInputs i).busy = s.busy := rfl
@[simp] theorem State.withInputs_last (i : Inputs) : (s.withInputs i).last = s.last := rfl
@[simp] theorem State.withInputs_holdCnt (i : Inputs) : (s.withInputs i).holdCnt = s.holdCnt := rfl
@[simp] theorem State.withInputs_cmd (i : Inputs) : (s.withInputs i).cmd = s.cmd := rfl
@[simp] theorem State.withInputs_seq (i : Inputs) : (s.withInputs i).seq = s.seq := rfl
@[simp] theorem State.withInputs_sr (i : Inputs) : (s.withInputs i).sr = s.sr := rfl
@[simp] theorem State.withInputs_out (i : Inputs) : (s.withInputs i).out = s.out := rfl
@[simp] theorem State.withInputs_rspValid (i : Inputs) : (s.withInputs i).rspValid = s.rspValid := rfl
@[simp] theorem State.withInputs_rspStatus (i : Inputs) : (s.withInputs i).rspStatus = s.rspStatus := rfl
@[simp] theorem State.withInputs_trace (i : Inputs) : (s.withInputs i).trace = s.trace := rfl
@[simp] theorem State.withInputs_draws (i : Inputs) : (s.withInputs i).draws = s.draws := rfl
@[simp] theorem State.withInputs_inputs (i : Inputs) : (s.withInputs i).inputs = i := rfl

/-! ### State.writeShadow -/

@[simp] theorem State.writeShadow_n (idx : BitVec 8) (v : Byte) : (s.writeShadow idx v).n = s.n := rfl
@[simp] theorem State.writeShadow_cfgErr (idx : BitVec 8) (v : Byte) : (s.writeShadow idx v).cfgErr = s.cfgErr := rfl
@[simp] theorem State.writeShadow_shadow (idx : BitVec 8) (v : Byte) : (s.writeShadow idx v).shadow = s.shadow.write idx.toNat v := rfl
@[simp] theorem State.writeShadow_data (idx : BitVec 8) (v : Byte) : (s.writeShadow idx v).data = s.data := rfl
@[simp] theorem State.writeShadow_clock (idx : BitVec 8) (v : Byte) : (s.writeShadow idx v).clock = s.clock := rfl
@[simp] theorem State.writeShadow_latch (idx : BitVec 8) (v : Byte) : (s.writeShadow idx v).latch = s.latch := rfl
@[simp] theorem State.writeShadow_oeDis (idx : BitVec 8) (v : Byte) : (s.writeShadow idx v).oeDis = s.oeDis := rfl
@[simp] theorem State.writeShadow_busy (idx : BitVec 8) (v : Byte) : (s.writeShadow idx v).busy = s.busy := rfl
@[simp] theorem State.writeShadow_last (idx : BitVec 8) (v : Byte) : (s.writeShadow idx v).last = s.last := rfl
@[simp] theorem State.writeShadow_holdCnt (idx : BitVec 8) (v : Byte) : (s.writeShadow idx v).holdCnt = s.holdCnt := rfl
@[simp] theorem State.writeShadow_cmd (idx : BitVec 8) (v : Byte) : (s.writeShadow idx v).cmd = s.cmd := rfl
@[simp] theorem State.writeShadow_seq (idx : BitVec 8) (v : Byte) : (s.writeShadow idx v).seq = s.seq := rfl
@[simp] theorem State.writeShadow_sr (idx : BitVec 8) (v : Byte) : (s.writeShadow idx v).sr = s.sr := rfl
@[simp] theorem State.writeShadow_out (idx : BitVec 8) (v : Byte) : (s.writeShadow idx v).out = s.out := rfl
@[simp] theorem State.writeShadow_rspValid (idx : BitVec 8) (v : Byte) : (s.writeShadow idx v).rspValid = s.rspValid := rfl
@[simp] theorem State.writeShadow_rspStatus (idx : BitVec 8) (v : Byte) : (s.writeShadow idx v).rspStatus = s.rspStatus := rfl
@[simp] theorem State.writeShadow_trace (idx : BitVec 8) (v : Byte) : (s.writeShadow idx v).trace = s.trace := rfl
@[simp] theorem State.writeShadow_draws (idx : BitVec 8) (v : Byte) : (s.writeShadow idx v).draws = s.draws := rfl
@[simp] theorem State.writeShadow_inputs (idx : BitVec 8) (v : Byte) : (s.writeShadow idx v).inputs = s.inputs := rfl

/-! ### State.mergeShadow -/

@[simp] theorem State.mergeShadow_n (idx : BitVec 8) (v : Byte) : (s.mergeShadow idx v).n = s.n := rfl
@[simp] theorem State.mergeShadow_cfgErr (idx : BitVec 8) (v : Byte) : (s.mergeShadow idx v).cfgErr = s.cfgErr := rfl
@[simp] theorem State.mergeShadow_shadow (idx : BitVec 8) (v : Byte) : (s.mergeShadow idx v).shadow = s.shadow.write idx.toNat (merge (s.shadowByte idx.toNat) v) := rfl
@[simp] theorem State.mergeShadow_data (idx : BitVec 8) (v : Byte) : (s.mergeShadow idx v).data = s.data := rfl
@[simp] theorem State.mergeShadow_clock (idx : BitVec 8) (v : Byte) : (s.mergeShadow idx v).clock = s.clock := rfl
@[simp] theorem State.mergeShadow_latch (idx : BitVec 8) (v : Byte) : (s.mergeShadow idx v).latch = s.latch := rfl
@[simp] theorem State.mergeShadow_oeDis (idx : BitVec 8) (v : Byte) : (s.mergeShadow idx v).oeDis = s.oeDis := rfl
@[simp] theorem State.mergeShadow_busy (idx : BitVec 8) (v : Byte) : (s.mergeShadow idx v).busy = s.busy := rfl
@[simp] theorem State.mergeShadow_last (idx : BitVec 8) (v : Byte) : (s.mergeShadow idx v).last = s.last := rfl
@[simp] theorem State.mergeShadow_holdCnt (idx : BitVec 8) (v : Byte) : (s.mergeShadow idx v).holdCnt = s.holdCnt := rfl
@[simp] theorem State.mergeShadow_cmd (idx : BitVec 8) (v : Byte) : (s.mergeShadow idx v).cmd = s.cmd := rfl
@[simp] theorem State.mergeShadow_seq (idx : BitVec 8) (v : Byte) : (s.mergeShadow idx v).seq = s.seq := rfl
@[simp] theorem State.mergeShadow_sr (idx : BitVec 8) (v : Byte) : (s.mergeShadow idx v).sr = s.sr := rfl
@[simp] theorem State.mergeShadow_out (idx : BitVec 8) (v : Byte) : (s.mergeShadow idx v).out = s.out := rfl
@[simp] theorem State.mergeShadow_rspValid (idx : BitVec 8) (v : Byte) : (s.mergeShadow idx v).rspValid = s.rspValid := rfl
@[simp] theorem State.mergeShadow_rspStatus (idx : BitVec 8) (v : Byte) : (s.mergeShadow idx v).rspStatus = s.rspStatus := rfl
@[simp] theorem State.mergeShadow_trace (idx : BitVec 8) (v : Byte) : (s.mergeShadow idx v).trace = s.trace := rfl
@[simp] theorem State.mergeShadow_draws (idx : BitVec 8) (v : Byte) : (s.mergeShadow idx v).draws = s.draws := rfl
@[simp] theorem State.mergeShadow_inputs (idx : BitVec 8) (v : Byte) : (s.mergeShadow idx v).inputs = s.inputs := rfl

/-! ### State.holdShadow -/

@[simp] theorem State.holdShadow_n (idx : BitVec 8) : (s.holdShadow idx).n = s.n := rfl
@[simp] theorem State.holdShadow_cfgErr (idx : BitVec 8) : (s.holdShadow idx).cfgErr = s.cfgErr := rfl
@[simp] theorem State.holdShadow_shadow (idx : BitVec 8) : (s.holdShadow idx).shadow = s.shadow.write idx.toNat (clearLow (s.shadowByte idx.toNat)) := rfl
@[simp] theorem State.holdShadow_data (idx : BitVec 8) : (s.holdShadow idx).data = s.data := rfl
@[simp] theorem State.holdShadow_clock (idx : BitVec 8) : (s.holdShadow idx).clock = s.clock := rfl
@[simp] theorem State.holdShadow_latch (idx : BitVec 8) : (s.holdShadow idx).latch = s.latch := rfl
@[simp] theorem State.holdShadow_oeDis (idx : BitVec 8) : (s.holdShadow idx).oeDis = s.oeDis := rfl
@[simp] theorem State.holdShadow_busy (idx : BitVec 8) : (s.holdShadow idx).busy = s.busy := rfl
@[simp] theorem State.holdShadow_last (idx : BitVec 8) : (s.holdShadow idx).last = s.last := rfl
@[simp] theorem State.holdShadow_holdCnt (idx : BitVec 8) : (s.holdShadow idx).holdCnt = s.holdCnt := rfl
@[simp] theorem State.holdShadow_cmd (idx : BitVec 8) : (s.holdShadow idx).cmd = s.cmd := rfl
@[simp] theorem State.holdShadow_seq (idx : BitVec 8) : (s.holdShadow idx).seq = s.seq := rfl
@[simp] theorem State.holdShadow_sr (idx : BitVec 8) : (s.holdShadow idx).sr = s.sr := rfl
@[simp] theorem State.holdShadow_out (idx : BitVec 8) : (s.holdShadow idx).out = s.out := rfl
@[simp] theorem State.holdShadow_rspValid (idx : BitVec 8) : (s.holdShadow idx).rspValid = s.rspValid := rfl
@[simp] theorem State.holdShadow_rspStatus (idx : BitVec 8) : (s.holdShadow idx).rspStatus = s.rspStatus := rfl
@[simp] theorem State.holdShadow_trace (idx : BitVec 8) : (s.holdShadow idx).trace = s.trace := rfl
@[simp] theorem State.holdShadow_draws (idx : BitVec 8) : (s.holdShadow idx).draws = s.draws := rfl
@[simp] theorem State.holdShadow_inputs (idx : BitVec 8) : (s.holdShadow idx).inputs = s.inputs := rfl

/-! ### State.holdAllShadow -/

@[simp] theorem State.holdAllShadow_n : s.holdAllShadow.n = s.n := rfl
@[simp] theorem State.holdAllShadow_cfgErr : s.holdAllShadow.cfgErr = s.cfgErr := rfl
@[simp] theorem State.holdAllShadow_shadow : s.holdAllShadow.shadow = s.shadow.clearLowUpTo s.n.toNat := rfl
@[simp] theorem State.holdAllShadow_data : s.holdAllShadow.data = s.data := rfl
@[simp] theorem State.holdAllShadow_clock : s.holdAllShadow.clock = s.clock := rfl
@[simp] theorem State.holdAllShadow_latch : s.holdAllShadow.latch = s.latch := rfl
@[simp] theorem State.holdAllShadow_oeDis : s.holdAllShadow.oeDis = s.oeDis := rfl
@[simp] theorem State.holdAllShadow_busy : s.holdAllShadow.busy = s.busy := rfl
@[simp] theorem State.holdAllShadow_last : s.holdAllShadow.last = s.last := rfl
@[simp] theorem State.holdAllShadow_holdCnt : s.holdAllShadow.holdCnt = s.holdCnt := rfl
@[simp] theorem State.holdAllShadow_cmd : s.holdAllShadow.cmd = s.cmd := rfl
@[simp] theorem State.holdAllShadow_seq : s.holdAllShadow.seq = s.seq := rfl
@[simp] theorem State.holdAllShadow_sr : s.holdAllShadow.sr = s.sr := rfl
@[simp] theorem State.holdAllShadow_out : s.holdAllShadow.out = s.out := rfl
@[simp] theorem State.holdAllShadow_rspValid : s.holdAllShadow.rspValid = s.rspValid := rfl
@[simp] theorem State.holdAllShadow_rspStatus : s.holdAllShadow.rspStatus = s.rspStatus := rfl
@[simp] theorem State.holdAllShadow_trace : s.holdAllShadow.trace = s.trace := rfl
@[simp] theorem State.holdAllShadow_draws : s.holdAllShadow.draws = s.draws := rfl
@[simp] theorem State.holdAllShadow_inputs : s.holdAllShadow.inputs = s.inputs := rfl

/-! ### State.setClock -/

@[simp] theorem State.setClock_n (v : Bool) : (s.setClock v).n = s.n := rfl
@[simp] theorem State.setClock_cfgErr (v : Bool) : (s.setClock v).cfgErr = s.cfgErr := rfl
@[simp] theorem State.setClock_shadow (v : Bool) : (s.setClock v).shadow = s.shadow := rfl
@[simp] theorem State.setClock_data (v : Bool) : (s.setClock v).data = s.data := rfl
@[simp] theorem State.setClock_clock (v : Bool) : (s.setClock v).clock = v := rfl
@[simp] theorem State.setClock_latch (v : Bool) : (s.setClock v).latch = s.latch := rfl
@[simp] theorem State.setClock_oeDis (v : Bool) : (s.setClock v).oeDis = s.oeDis := rfl
@[simp] theorem State.setClock_busy (v : Bool) : (s.setClock v).busy = s.busy := rfl
@[simp] theorem State.setClock_last (v : Bool) : (s.setClock v).last = s.last := rfl
@[simp] theorem State.setClock_holdCnt (v : Bool) : (s.setClock v).holdCnt = s.holdCnt := rfl
@[simp] theorem State.setClock_cmd (v : Bool) : (s.setClock v).cmd = s.cmd := rfl
@[simp] theorem State.setClock_seq (v : Bool) : (s.setClock v).seq = s.seq := rfl
@[simp] theorem State.setClock_sr (v : Bool) : (s.setClock v).sr = if v && !s.clock then shiftChain s.data s.sr else s.sr := rfl
@[simp] theorem State.setClock_out (v : Bool) : (s.setClock v).out = s.out := rfl
@[simp] theorem State.setClock_rspValid (v : Bool) : (s.setClock v).rspValid = s.rspValid := rfl
@[simp] theorem State.setClock_rspStatus (v : Bool) : (s.setClock v).rspStatus = s.rspStatus := rfl
@[simp] theorem State.setClock_trace (v : Bool) : (s.setClock v).trace = s.trace := rfl
@[simp] theorem State.setClock_draws (v : Bool) : (s.setClock v).draws = s.draws := rfl
@[simp] theorem State.setClock_inputs (v : Bool) : (s.setClock v).inputs = s.inputs := rfl

/-! ### State.setLatch -/

@[simp] theorem State.setLatch_n (v : Bool) : (s.setLatch v).n = s.n := rfl
@[simp] theorem State.setLatch_cfgErr (v : Bool) : (s.setLatch v).cfgErr = s.cfgErr := rfl
@[simp] theorem State.setLatch_shadow (v : Bool) : (s.setLatch v).shadow = s.shadow := rfl
@[simp] theorem State.setLatch_data (v : Bool) : (s.setLatch v).data = s.data := rfl
@[simp] theorem State.setLatch_clock (v : Bool) : (s.setLatch v).clock = s.clock := rfl
@[simp] theorem State.setLatch_latch (v : Bool) : (s.setLatch v).latch = v := rfl
@[simp] theorem State.setLatch_oeDis (v : Bool) : (s.setLatch v).oeDis = s.oeDis := rfl
@[simp] theorem State.setLatch_busy (v : Bool) : (s.setLatch v).busy = s.busy := rfl
@[simp] theorem State.setLatch_last (v : Bool) : (s.setLatch v).last = s.last := rfl
@[simp] theorem State.setLatch_holdCnt (v : Bool) : (s.setLatch v).holdCnt = s.holdCnt := rfl
@[simp] theorem State.setLatch_cmd (v : Bool) : (s.setLatch v).cmd = s.cmd := rfl
@[simp] theorem State.setLatch_seq (v : Bool) : (s.setLatch v).seq = s.seq := rfl
@[simp] theorem State.setLatch_sr (v : Bool) : (s.setLatch v).sr = s.sr := rfl
@[simp] theorem State.setLatch_out (v : Bool) : (s.setLatch v).out = if v && !s.latch then s.sr else s.out := rfl
@[simp] theorem State.setLatch_rspValid (v : Bool) : (s.setLatch v).rspValid = s.rspValid := rfl
@[simp] theorem State.setLatch_rspStatus (v : Bool) : (s.setLatch v).rspStatus = s.rspStatus := rfl
@[simp] theorem State.setLatch_trace (v : Bool) : (s.setLatch v).trace = s.trace := rfl
@[simp] theorem State.setLatch_draws (v : Bool) : (s.setLatch v).draws = s.draws := rfl
@[simp] theorem State.setLatch_inputs (v : Bool) : (s.setLatch v).inputs = s.inputs := rfl

/-! ### State.waitFor -/

@[simp] theorem State.waitFor_n (dur : BitVec 12) : (s.waitFor dur).n = s.n := rfl
@[simp] theorem State.waitFor_cfgErr (dur : BitVec 12) : (s.waitFor dur).cfgErr = s.cfgErr := rfl
@[simp] theorem State.waitFor_shadow (dur : BitVec 12) : (s.waitFor dur).shadow = s.shadow := rfl
@[simp] theorem State.waitFor_data (dur : BitVec 12) : (s.waitFor dur).data = s.data := rfl
@[simp] theorem State.waitFor_clock (dur : BitVec 12) : (s.waitFor dur).clock = s.clock := rfl
@[simp] theorem State.waitFor_latch (dur : BitVec 12) : (s.waitFor dur).latch = s.latch := rfl
@[simp] theorem State.waitFor_oeDis (dur : BitVec 12) : (s.waitFor dur).oeDis = s.oeDis := rfl
@[simp] theorem State.waitFor_busy (dur : BitVec 12) : (s.waitFor dur).busy = s.busy := rfl
@[simp] theorem State.waitFor_last (dur : BitVec 12) : (s.waitFor dur).last = s.last := rfl
@[simp] theorem State.waitFor_holdCnt (dur : BitVec 12) : (s.waitFor dur).holdCnt = 0 := rfl
@[simp] theorem State.waitFor_cmd (dur : BitVec 12) : (s.waitFor dur).cmd = s.cmd := rfl
@[simp] theorem State.waitFor_seq (dur : BitVec 12) : (s.waitFor dur).seq = s.seq := rfl
@[simp] theorem State.waitFor_sr (dur : BitVec 12) : (s.waitFor dur).sr = s.sr := rfl
@[simp] theorem State.waitFor_out (dur : BitVec 12) : (s.waitFor dur).out = s.out := rfl
@[simp] theorem State.waitFor_rspValid (dur : BitVec 12) : (s.waitFor dur).rspValid = s.rspValid := rfl
@[simp] theorem State.waitFor_rspStatus (dur : BitVec 12) : (s.waitFor dur).rspStatus = s.rspStatus := rfl
@[simp] theorem State.waitFor_trace (dur : BitVec 12) : (s.waitFor dur).trace = s.trace ++ [.delay (.ticks dur)] := rfl
@[simp] theorem State.waitFor_draws (dur : BitVec 12) : (s.waitFor dur).draws = s.draws := rfl
@[simp] theorem State.waitFor_inputs (dur : BitVec 12) : (s.waitFor dur).inputs = s.inputs := rfl

/-! ### State.resetTo -/

@[simp] theorem State.resetTo_n (c : BitVec 8) : (s.resetTo c).n = c := rfl
@[simp] theorem State.resetTo_cfgErr (c : BitVec 8) : (s.resetTo c).cfgErr = (c == 0) := rfl
@[simp] theorem State.resetTo_shadow (c : BitVec 8) : (s.resetTo c).shadow = [] := rfl
@[simp] theorem State.resetTo_data (c : BitVec 8) : (s.resetTo c).data = false := rfl
@[simp] theorem State.resetTo_clock (c : BitVec 8) : (s.resetTo c).clock = false := rfl
@[simp] theorem State.resetTo_latch (c : BitVec 8) : (s.resetTo c).latch = false := rfl
@[simp] theorem State.resetTo_oeDis (c : BitVec 8) : (s.resetTo c).oeDis = true := rfl
@[simp] theorem State.resetTo_busy (c : BitVec 8) : (s.resetTo c).busy = false := rfl
@[simp] theorem State.resetTo_last (c : BitVec 8) : (s.resetTo c).last = if c = 0 then .configError else .ok := rfl
@[simp] theorem State.resetTo_holdCnt (c : BitVec 8) : (s.resetTo c).holdCnt = 0 := rfl
@[simp] theorem State.resetTo_cmd (c : BitVec 8) : (s.resetTo c).cmd = Command.ofWord (Config.resetCommand s.draws) := rfl
@[simp] theorem State.resetTo_seq (c : BitVec 8) : (s.resetTo c).seq = .idle := rfl
@[simp] theorem State.resetTo_sr (c : BitVec 8) : (s.resetTo c).sr = s.sr := rfl
@[simp] theorem State.resetTo_out (c : BitVec 8) : (s.resetTo c).out = s.out := rfl
@[simp] theorem State.resetTo_rspValid (c : BitVec 8) : (s.resetTo c).rspValid = false := rfl
@[simp] theorem State.resetTo_rspStatus (c : BitVec 8) : (s.resetTo c).rspStatus = s.rspStatus := rfl
@[simp] theorem State.resetTo_trace (c : BitVec 8) : (s.resetTo c).trace = s.trace := rfl
@[simp] theorem State.resetTo_draws (c : BitVec 8) : (s.resetTo c).draws = s.draws + 1 := rfl
@[simp] theorem State.resetTo_inputs (c : BitVec 8) : (s.resetTo c).inputs = s.inputs := rfl

/-! ### State.powerOn -/

@[simp] theorem State.powerOn_n (c : BitVec 8) : (s.powerOn c).n = c := rfl
@[simp] theorem State.powerOn_cfgErr (c : BitVec 8) : (s.powerOn c).cfgErr = (c == 0) := rfl
@[simp] theorem State.powerOn_shadow (c : BitVec 8) : (s.powerOn c).shadow = [] := rfl
@[simp] theorem State.powerOn_data (c : BitVec 8) : (s.powerOn c).data = false := rfl
@[simp] theorem State.powerOn_clock (c : BitVec 8) : (s.powerOn c).clock = false := rfl
@[simp] theorem State.powerOn_latch (c : BitVec 8) : (s.powerOn c).latch = false := rfl
@[simp] theorem State.powerOn_oeDis (c : BitVec 8) : (s.powerOn c).oeDis = true := rfl
@[simp] theorem State.powerOn_busy (c : BitVec 8) : (s.powerOn c).busy = false := rfl
@[simp] theorem State.powerOn_last (c : BitVec 8) : (s.powerOn c).last = if c = 0 then .configError else .ok := rfl
@[simp] theorem State.powerOn_holdCnt (c : BitVec 8) : (s.powerOn c).holdCnt = 0 := rfl
@[simp] theorem State.powerOn_cmd (c : BitVec 8) : (s.powerOn c).cmd = Command.ofWord (Config.resetCommand s.draws) := rfl
@[simp] theorem State.powerOn_seq (c : BitVec 8) : (s.powerOn c).seq = .idle := rfl
@[simp] theorem State.powerOn_sr (c : BitVec 8) : (s.powerOn c).sr = (List.range s.sr.length).map (Config.powerOnShift s.draws) := rfl
@[simp] theorem State.powerOn_out (c : BitVec 8) : (s.powerOn c).out = (List.range s.out.length).map (Config.powerOnOutput s.draws) := rfl
@[simp] theorem State.powerOn_rspValid (c : BitVec 8) : (s.powerOn c).rspValid = false := rfl
@[simp] theorem State.powerOn_rspStatus (c : BitVec 8) : (s.powerOn c).rspStatus = .ok := rfl
@[simp] theorem State.powerOn_trace (c : BitVec 8) : (s.powerOn c).trace = [] := rfl
@[simp] theorem State.powerOn_draws (c : BitVec 8) : (s.powerOn c).draws = s.draws + 1 := rfl
@[simp] theorem State.powerOn_inputs (c : BitVec 8) : (s.powerOn c).inputs = s.inputs := rfl

/-! ### State.react and State.emit: what no event touches -/

@[simp] theorem State.react_n (e : Event) : (s.react e).n = s.n := by
  rcases e with ⟨_ | _ | _ | _, v⟩ | t <;> rfl
@[simp] theorem State.react_cfgErr (e : Event) : (s.react e).cfgErr = s.cfgErr := by
  rcases e with ⟨_ | _ | _ | _, v⟩ | t <;> rfl
@[simp] theorem State.react_shadow (e : Event) : (s.react e).shadow = s.shadow := by
  rcases e with ⟨_ | _ | _ | _, v⟩ | t <;> rfl
@[simp] theorem State.react_busy (e : Event) : (s.react e).busy = s.busy := by
  rcases e with ⟨_ | _ | _ | _, v⟩ | t <;> rfl
@[simp] theorem State.react_last (e : Event) : (s.react e).last = s.last := by
  rcases e with ⟨_ | _ | _ | _, v⟩ | t <;> rfl
@[simp] theorem State.react_holdCnt (e : Event) : (s.react e).holdCnt = s.holdCnt := by
  rcases e with ⟨_ | _ | _ | _, v⟩ | t <;> rfl
@[simp] theorem State.react_cmd (e : Event) : (s.react e).cmd = s.cmd := by
  rcases e with ⟨_ | _ | _ | _, v⟩ | t <;> rfl
@[simp] theorem State.react_seq (e : Event) : (s.react e).seq = s.seq := by
  rcases e with ⟨_ | _ | _ | _, v⟩ | t <;> rfl
@[simp] theorem State.react_rspValid (e : Event) : (s.react e).rspValid = s.rspValid := by
  rcases e with ⟨_ | _ | _ | _, v⟩ | t <;> rfl
@[simp] theorem State.react_rspStatus (e : Event) : (s.react e).rspStatus = s.rspStatus := by
  rcases e with ⟨_ | _ | _ | _, v⟩ | t <;> rfl
@[simp] theorem State.react_draws (e : Event) : (s.react e).draws = s.draws := by
  rcases e with ⟨_ | _ | _ | _, v⟩ | t <;> rfl
@[simp] theorem State.react_inputs (e : Event) : (s.react e).inputs = s.inputs := by
  rcases e with ⟨_ | _ | _ | _, v⟩ | t <;> rfl
@[simp] theorem State.react_trace (e : Event) : (s.react e).trace = s.trace := by
  rcases e with ⟨_ | _ | _ | _, v⟩ | t <;> rfl
@[simp] theorem State.emit_n (e : Event) : (s.emit e).n = s.n := State.react_n s e
@[simp] theorem State.emit_cfgErr (e : Event) : (s.emit e).cfgErr = s.cfgErr := State.react_cfgErr s e
@[simp] theorem State.emit_shadow (e : Event) : (s.emit e).shadow = s.shadow := State.react_shadow s e
@[simp] theorem State.emit_busy (e : Event) : (s.emit e).busy = s.busy := State.react_busy s e
@[simp] theorem State.emit_last (e : Event) : (s.emit e).last = s.last := State.react_last s e
@[simp] theorem State.emit_holdCnt (e : Event) : (s.emit e).holdCnt = s.holdCnt := State.react_holdCnt s e
@[simp] theorem State.emit_cmd (e : Event) : (s.emit e).cmd = s.cmd := State.react_cmd s e
@[simp] theorem State.emit_seq (e : Event) : (s.emit e).seq = s.seq := State.react_seq s e
@[simp] theorem State.emit_rspValid (e : Event) : (s.emit e).rspValid = s.rspValid := State.react_rspValid s e
@[simp] theorem State.emit_rspStatus (e : Event) : (s.emit e).rspStatus = s.rspStatus := State.react_rspStatus s e
@[simp] theorem State.emit_draws (e : Event) : (s.emit e).draws = s.draws := State.react_draws s e
@[simp] theorem State.emit_inputs (e : Event) : (s.emit e).inputs = s.inputs := State.react_inputs s e
@[simp] theorem State.emit_data (e : Event) : (s.emit e).data = (s.react e).data := rfl
@[simp] theorem State.emit_clock (e : Event) : (s.emit e).clock = (s.react e).clock := rfl
@[simp] theorem State.emit_latch (e : Event) : (s.emit e).latch = (s.react e).latch := rfl
@[simp] theorem State.emit_oeDis (e : Event) : (s.emit e).oeDis = (s.react e).oeDis := rfl
@[simp] theorem State.emit_sr (e : Event) : (s.emit e).sr = (s.react e).sr := rfl
@[simp] theorem State.emit_out (e : Event) : (s.emit e).out = (s.react e).out := rfl
@[simp] theorem State.emit_trace (e : Event) : (s.emit e).trace = s.trace ++ [e] := rfl

/-! ### State.react: what each event does to the lines and the chain -/

@[simp] theorem State.react_dataLine_data (v : Bool) : (s.react (.emit .data v)).data = v := rfl
@[simp] theorem State.react_dataLine_clock (v : Bool) : (s.react (.emit .data v)).clock = s.clock := rfl
@[simp] theorem State.react_dataLine_latch (v : Bool) : (s.react (.emit .data v)).latch = s.latch := rfl
@[simp] theorem State.react_dataLine_oeDis (v : Bool) : (s.react (.emit .data v)).oeDis = s.oeDis := rfl
@[simp] theorem State.react_dataLine_sr (v : Bool) : (s.react (.emit .data v)).sr = s.sr := rfl
@[simp] theorem State.react_dataLine_out (v : Bool) : (s.react (.emit .data v)).out = s.out := rfl
@[simp] theorem State.react_clockLine_data (v : Bool) : (s.react (.emit .clock v)).data = s.data := rfl
@[simp] theorem State.react_clockLine_clock (v : Bool) : (s.react (.emit .clock v)).clock = v := rfl
@[simp] theorem State.react_clockLine_latch (v : Bool) : (s.react (.emit .clock v)).latch = s.latch := rfl
@[simp] theorem State.react_clockLine_oeDis (v : Bool) : (s.react (.emit .clock v)).oeDis = s.oeDis := rfl
@[simp] theorem State.react_clockLine_sr (v : Bool) : (s.react (.emit .clock v)).sr = if v && !s.clock then shiftChain s.data s.sr else s.sr := rfl
@[simp] theorem State.react_clockLine_out (v : Bool) : (s.react (.emit .clock v)).out = s.out := rfl
@[simp] theorem State.react_latchLine_data (v : Bool) : (s.react (.emit .latch v)).data = s.data := rfl
@[simp] theorem State.react_latchLine_clock (v : Bool) : (s.react (.emit .latch v)).clock = s.clock := rfl
@[simp] theorem State.react_latchLine_latch (v : Bool) : (s.react (.emit .latch v)).latch = v := rfl
@[simp] theorem State.react_latchLine_oeDis (v : Bool) : (s.react (.emit .latch v)).oeDis = s.oeDis := rfl
@[simp] theorem State.react_latchLine_sr (v : Bool) : (s.react (.emit .latch v)).sr = s.sr := rfl
@[simp] theorem State.react_latchLine_out (v : Bool) : (s.react (.emit .latch v)).out = if v && !s.latch then s.sr else s.out := rfl
@[simp] theorem State.react_oeLine_data (v : Bool) : (s.react (.emit .oe v)).data = s.data := rfl
@[simp] theorem State.react_oeLine_clock (v : Bool) : (s.react (.emit .oe v)).clock = s.clock := rfl
@[simp] theorem State.react_oeLine_latch (v : Bool) : (s.react (.emit .oe v)).latch = s.latch := rfl
@[simp] theorem State.react_oeLine_oeDis (v : Bool) : (s.react (.emit .oe v)).oeDis = v := rfl
@[simp] theorem State.react_oeLine_sr (v : Bool) : (s.react (.emit .oe v)).sr = s.sr := rfl
@[simp] theorem State.react_oeLine_out (v : Bool) : (s.react (.emit .oe v)).out = s.out := rfl
@[simp] theorem State.react_delay (t : Duration) : s.react (.delay t) = s := rfl

/-! ### State.emitAll: what no sequence of events touches -/

@[simp] theorem State.emitAll_n (es : List Event) : (s.emitAll es).n = s.n := by
  induction es generalizing s with
  | nil => rfl
  | cons e es ih => exact (ih (s.emit e)).trans (State.emit_n s e)
@[simp] theorem State.emitAll_cfgErr (es : List Event) : (s.emitAll es).cfgErr = s.cfgErr := by
  induction es generalizing s with
  | nil => rfl
  | cons e es ih => exact (ih (s.emit e)).trans (State.emit_cfgErr s e)
@[simp] theorem State.emitAll_shadow (es : List Event) : (s.emitAll es).shadow = s.shadow := by
  induction es generalizing s with
  | nil => rfl
  | cons e es ih => exact (ih (s.emit e)).trans (State.emit_shadow s e)
@[simp] theorem State.emitAll_busy (es : List Event) : (s.emitAll es).busy = s.busy := by
  induction es generalizing s with
  | nil => rfl
  | cons e es ih => exact (ih (s.emit e)).trans (State.emit_busy s e)
@[simp] theorem State.emitAll_last (es : List Event) : (s.emitAll es).last = s.last := by
  induction es generalizing s with
  | nil => rfl
  | cons e es ih => exact (ih (s.emit e)).trans (State.emit_last s e)
@[simp] theorem State.emitAll_holdCnt (es : List Event) : (s.emitAll es).holdCnt = s.holdCnt := by
  induction es generalizing s with
  | nil => rfl
  | cons e es ih => exact (ih (s.emit e)).trans (State.emit_holdCnt s e)
@[simp] theorem State.emitAll_cmd (es : List Event) : (s.emitAll es).cmd = s.cmd := by
  induction es generalizing s with
  | nil => rfl
  | cons e es ih => exact (ih (s.emit e)).trans (State.emit_cmd s e)
@[simp] theorem State.emitAll_seq (es : List Event) : (s.emitAll es).seq = s.seq := by
  induction es generalizing s with
  | nil => rfl
  | cons e es ih => exact (ih (s.emit e)).trans (State.emit_seq s e)
@[simp] theorem State.emitAll_rspValid (es : List Event) : (s.emitAll es).rspValid = s.rspValid := by
  induction es generalizing s with
  | nil => rfl
  | cons e es ih => exact (ih (s.emit e)).trans (State.emit_rspValid s e)
@[simp] theorem State.emitAll_rspStatus (es : List Event) : (s.emitAll es).rspStatus = s.rspStatus := by
  induction es generalizing s with
  | nil => rfl
  | cons e es ih => exact (ih (s.emit e)).trans (State.emit_rspStatus s e)
@[simp] theorem State.emitAll_draws (es : List Event) : (s.emitAll es).draws = s.draws := by
  induction es generalizing s with
  | nil => rfl
  | cons e es ih => exact (ih (s.emit e)).trans (State.emit_draws s e)
@[simp] theorem State.emitAll_inputs (es : List Event) : (s.emitAll es).inputs = s.inputs := by
  induction es generalizing s with
  | nil => rfl
  | cons e es ih => exact (ih (s.emit e)).trans (State.emit_inputs s e)
@[simp] theorem State.emitAll_trace (es : List Event) : (s.emitAll es).trace = s.trace ++ es := by
  induction es generalizing s with
  | nil => simp [State.emitAll]
  | cons e es ih => exact (ih (s.emit e)).trans (by simp)

/-! ### State.update: what it does not touch, and the trace -/

@[simp] theorem State.update_n : s.update.n = s.n := State.emitAll_n s _
@[simp] theorem State.update_cfgErr : s.update.cfgErr = s.cfgErr := State.emitAll_cfgErr s _
@[simp] theorem State.update_shadow : s.update.shadow = s.shadow := State.emitAll_shadow s _
@[simp] theorem State.update_busy : s.update.busy = s.busy := State.emitAll_busy s _
@[simp] theorem State.update_last : s.update.last = s.last := State.emitAll_last s _
@[simp] theorem State.update_holdCnt : s.update.holdCnt = s.holdCnt := State.emitAll_holdCnt s _
@[simp] theorem State.update_cmd : s.update.cmd = s.cmd := State.emitAll_cmd s _
@[simp] theorem State.update_seq : s.update.seq = s.seq := State.emitAll_seq s _
@[simp] theorem State.update_rspValid : s.update.rspValid = s.rspValid := State.emitAll_rspValid s _
@[simp] theorem State.update_rspStatus : s.update.rspStatus = s.rspStatus := State.emitAll_rspStatus s _
@[simp] theorem State.update_draws : s.update.draws = s.draws := State.emitAll_draws s _
@[simp] theorem State.update_inputs : s.update.inputs = s.inputs := State.emitAll_inputs s _
@[simp] theorem State.update_trace : s.update.trace = s.trace ++ updateTrace s.n.toNat s.shadow :=
  State.emitAll_trace s _

end Sys2Proof.Machine
end

