-- ==== Sys2Proof/Laws/Memory.lean ====
section
/-! SUPPORT. SHADOW as a canonical list: read after write, the canonical form kept by every operation, and equal contents
are equal lists. -/

namespace Sys2Proof.Machine

/-! ### Reading what a write left -/

@[simp] theorem Memory.read_nil (k : Nat) : Memory.read [] k = blankByte := rfl

theorem Memory.read_cons (a : Nat) (v : Byte) (m : Memory) (k : Nat) :
    Memory.read ((a, v) :: m) k = if a = k then v else Memory.read m k := rfl

theorem Memory.read_erase (m : Memory) (k a : Nat) :
    (m.erase k).read a = if a = k then blankByte else m.read a := by
  induction m with
  | nil => simp [Memory.erase]
  | cons c m ih =>
    obtain ⟨b, v⟩ := c
    by_cases hb : b = k
    · subst hb
      have h : Memory.erase ((b, v) :: m) b = Memory.erase m b := by simp [Memory.erase]
      rw [h, ih, Memory.read_cons]
      by_cases ha : a = b
      · simp [ha]
      · simp [ha, Ne.symm ha]
    · have h : Memory.erase ((b, v) :: m) k = (b, v) :: Memory.erase m k := by simp [Memory.erase, hb]
      rw [h, Memory.read_cons, Memory.read_cons, ih]
      by_cases ha : b = a
      · subst ha; simp [hb]
      · simp [ha]

theorem Memory.read_insert_other (m : Memory) {k a : Nat} (v : Byte) (ha : a ≠ k) :
    (m.insert k v).read a = m.read a := by
  induction m with
  | nil => simp [Memory.insert, Memory.read_cons, Ne.symm ha]
  | cons c m ih =>
    obtain ⟨b, x⟩ := c
    simp only [Memory.insert]
    split
    · simp [Memory.read_cons, Ne.symm ha]
    · simp [Memory.read_cons, ih]

theorem Memory.read_insert_self (m : Memory) (k : Nat) (v : Byte) (hk : ∀ c ∈ m, c.1 ≠ k) :
    (m.insert k v).read k = v := by
  induction m with
  | nil => simp [Memory.insert, Memory.read_cons]
  | cons c m ih =>
    obtain ⟨b, x⟩ := c
    have hb : b ≠ k := hk (b, x) (by simp)
    have hm : ∀ c ∈ m, c.1 ≠ k := fun c hc => hk c (by simp [hc])
    simp only [Memory.insert]
    split
    · simp [Memory.read_cons]
    · simp [Memory.read_cons, hb, ih hm]

/-- Read after write, at every index: the written byte there, every other byte as before. -/
theorem Memory.read_write (m : Memory) (k a : Nat) (v : Byte) :
    (m.write k v).read a = if a = k then v else m.read a := by
  have hk : ∀ c ∈ m.erase k, c.1 ≠ k := by simp [Memory.erase]
  unfold Memory.write
  split
  · next h => rw [Memory.read_erase, h]
  · by_cases ha : a = k
    · subst ha; simp [Memory.read_insert_self _ _ _ hk]
    · simp [Memory.read_insert_other _ _ ha, Memory.read_erase, ha]

@[simp] theorem Memory.read_write_self (m : Memory) (k : Nat) (v : Byte) : (m.write k v).read k = v := by
  simp [Memory.read_write]

theorem Memory.read_write_other (m : Memory) {k a : Nat} (v : Byte) (h : a ≠ k) : (m.write k v).read a = m.read a := by
  simp [Memory.read_write, h]

/-- HOLDALL's loop clears the low nibble below its count and nothing else. -/
theorem Memory.read_clearLowUpTo (n : Nat) (m : Memory) (a : Nat) :
    (m.clearLowUpTo n).read a = if a < n then clearLow (m.read a) else m.read a := by
  induction n with
  | zero => simp [Memory.clearLowUpTo]
  | succ k ih =>
    rw [Memory.clearLowUpTo, Memory.read_write]
    by_cases ha : a = k
    · subst ha; simp [ih]
    · have : a < k + 1 ↔ a < k := by omega
      simp [ha, ih, this]

/-! ### The canonical form -/

theorem Memory.risingAbove_mono {lo : Option Nat} {a : Nat} {m : Memory} (h : Memory.risingAbove (some a) m = true)
    (hlo : ∀ l ∈ lo, l ≤ a) : Memory.risingAbove lo m = true := by
  cases m with
  | nil => rfl
  | cons c m =>
    obtain ⟨b, v⟩ := c
    simp only [Memory.risingAbove, Bool.and_eq_true, Option.all_some, decide_eq_true_eq, bne_iff_ne] at h ⊢
    refine ⟨⟨?_, h.1.2⟩, h.2⟩
    cases lo with
    | none => rfl
    | some l => simpa using lt_of_le_of_lt (hlo l rfl) h.1.1

theorem Memory.risingAbove_erase {lo : Option Nat} {m : Memory} (k : Nat) (h : Memory.risingAbove lo m = true) :
    Memory.risingAbove lo (m.erase k) = true := by
  induction m generalizing lo with
  | nil => rfl
  | cons c m ih =>
    obtain ⟨b, v⟩ := c
    simp only [Memory.risingAbove, Bool.and_eq_true] at h
    by_cases hb : b = k
    · have he : Memory.erase ((b, v) :: m) k = Memory.erase m k := by simp [Memory.erase, hb]
      rw [he]
      refine Memory.risingAbove_mono (ih h.2) ?_
      intro l hl
      cases hl
      have := h.1.1
      simp only [Option.all_some, decide_eq_true_eq] at this
      omega
    · have he : Memory.erase ((b, v) :: m) k = (b, v) :: Memory.erase m k := by simp [Memory.erase, hb]
      rw [he]
      simp only [Memory.risingAbove, Bool.and_eq_true]
      exact ⟨h.1, ih h.2⟩

theorem Memory.risingAbove_insert {lo : Option Nat} {m : Memory} {k : Nat} {v : Byte}
    (h : Memory.risingAbove lo m = true) (hlo : ∀ l ∈ lo, l < k) (hk : ∀ c ∈ m, c.1 ≠ k) (hv : v ≠ blankByte) :
    Memory.risingAbove lo (m.insert k v) = true := by
  induction m generalizing lo with
  | nil =>
    cases lo with
    | none => simp [Memory.insert, Memory.risingAbove, hv]
    | some l => simp [Memory.insert, Memory.risingAbove, hv, hlo l rfl]
  | cons c m ih =>
    obtain ⟨b, x⟩ := c
    have hb : b ≠ k := hk (b, x) (by simp)
    simp only [Memory.insert]
    split
    · next hkb =>
      have h' := h
      simp only [Memory.risingAbove, Bool.and_eq_true] at h ⊢
      refine ⟨⟨?_, by simpa using hv⟩, ⟨by simpa using hkb, h.1.2⟩, h.2⟩
      cases lo with
      | none => rfl
      | some l => simpa using hlo l rfl
    · next hkb =>
      simp only [Memory.risingAbove, Bool.and_eq_true] at h ⊢
      refine ⟨h.1, ih h.2 ?_ fun c hc => hk c (by simp [hc])⟩
      intro l hl
      cases hl
      omega

/-- A write keeps the canonical form. -/
theorem Memory.wf_write {m : Memory} (k : Nat) (v : Byte) (h : m.wf = true) : (m.write k v).wf = true := by
  unfold Memory.write
  split
  · exact Memory.risingAbove_erase k h
  · next hv =>
    exact Memory.risingAbove_insert (Memory.risingAbove_erase k h) (by simp) (by simp [Memory.erase]) hv

theorem Memory.wf_clearLowUpTo {m : Memory} (n : Nat) (h : m.wf = true) : (m.clearLowUpTo n).wf = true := by
  induction n with
  | zero => exact h
  | succ k ih => exact Memory.wf_write _ _ ih

theorem Memory.within_iff (n : Nat) (m : Memory) : m.within n = true ↔ ∀ c ∈ m, c.1 < n := by
  simp [Memory.within]

theorem Memory.mem_insert {m : Memory} {k : Nat} {v : Byte} {c : Host.Cell} :
    c ∈ m.insert k v ↔ c = (k, v) ∨ c ∈ m := by
  induction m with
  | nil => simp [Memory.insert]
  | cons d m ih =>
    obtain ⟨b, x⟩ := d
    simp only [Memory.insert]
    split
    · simp
    · simp only [List.mem_cons, ih]; tauto

/-- A write below N adds no byte at or above N. -/
theorem Memory.within_write {m : Memory} {n k : Nat} (v : Byte) (h : m.within n = true) (hk : k < n ∨ v = blankByte) :
    (m.write k v).within n = true := by
  rw [Memory.within_iff] at h ⊢
  have he : ∀ c ∈ m.erase k, c.1 < n := fun c hc => h c (List.mem_of_mem_filter hc)
  unfold Memory.write
  split
  · exact he
  · next hv =>
    intro c hc
    rcases Memory.mem_insert.mp hc with rfl | hc
    · exact hk.resolve_right hv
    · exact he c hc

theorem Memory.within_clearLowUpTo {m : Memory} {n : Nat} (j : Nat) (hj : j ≤ n) (h : m.within n = true) :
    (m.clearLowUpTo j).within n = true := by
  induction j with
  | zero => exact h
  | succ k ih => exact Memory.within_write _ (ih (by omega)) (.inl (by omega))

/-- At or above N nothing is listed, so nothing but the blank byte is read. -/
theorem Memory.read_above {m : Memory} {n a : Nat} (h : m.within n = true) (ha : n ≤ a) : m.read a = blankByte := by
  rw [Memory.within_iff] at h
  induction m with
  | nil => rfl
  | cons c m ih =>
    obtain ⟨b, v⟩ := c
    have hb : b < n := h (b, v) (by simp)
    rw [Memory.read_cons, if_neg (by omega)]
    exact ih fun c hc => h c (by simp [hc])

theorem Memory.read_of_risingAbove {m : Memory} {lo a : Nat} (h : Memory.risingAbove (some lo) m = true) (ha : a ≤ lo) :
    m.read a = blankByte := by
  induction m generalizing lo with
  | nil => rfl
  | cons c m ih =>
    obtain ⟨b, v⟩ := c
    simp only [Memory.risingAbove, Bool.and_eq_true, Option.all_some, decide_eq_true_eq] at h
    rw [Memory.read_cons, if_neg (by omega)]
    exact ih h.2 (by omega)

/-- Arrays in canonical form that read the same at every index are the same list. -/
theorem Memory.ext_of_read {m m' : Memory} (h : m.wf = true) (h' : m'.wf = true) (hr : ∀ k, m.read k = m'.read k) :
    m = m' := by
  suffices H : ∀ (lo : Option Nat), Memory.risingAbove lo m = true → Memory.risingAbove lo m' = true → m = m' from
    H none h h'
  clear h h'
  induction m generalizing m' with
  | nil =>
    intro lo _ h'
    cases m' with
    | nil => rfl
    | cons c m' =>
      obtain ⟨b, v⟩ := c
      simp only [Memory.risingAbove, Bool.and_eq_true, bne_iff_ne] at h'
      have := hr b
      rw [Memory.read_nil, Memory.read_cons, if_pos rfl] at this
      exact absurd this.symm h'.1.2
  | cons c m ih =>
    intro lo h h'
    obtain ⟨a, x⟩ := c
    simp only [Memory.risingAbove, Bool.and_eq_true, bne_iff_ne] at h
    cases m' with
    | nil =>
      have := hr a
      rw [Memory.read_nil, Memory.read_cons, if_pos rfl] at this
      exact absurd this h.1.2
    | cons d m' =>
      obtain ⟨b, y⟩ := d
      simp only [Memory.risingAbove, Bool.and_eq_true, bne_iff_ne] at h'
      have hab : a = b := by
        rcases Nat.lt_trichotomy a b with hlt | heq | hlt
        · have := hr a
          rw [Memory.read_cons, if_pos rfl, Memory.read_cons, if_neg (by omega),
            Memory.read_of_risingAbove h'.2 (by omega)] at this
          exact absurd this h.1.2
        · exact heq
        · have := hr b
          rw [Memory.read_cons, if_neg (by omega), Memory.read_of_risingAbove h.2 (by omega), Memory.read_cons,
            if_pos rfl] at this
          exact absurd this.symm h'.1.2
      subst hab
      have hxy : x = y := by simpa [Memory.read_cons] using hr a
      subst hxy
      congr 1
      refine ih (fun k => ?_) (some a) h.2 h'.2
      by_cases hk : a = k
      · subst hk
        rw [Memory.read_of_risingAbove h.2 le_rfl, Memory.read_of_risingAbove h'.2 le_rfl]
      · simpa [Memory.read_cons, hk] using hr k

/-! ### The memory operations of the state -/

@[simp] theorem State.shadowByte_writeShadow (s : State) (idx : BitVec 8) (v : Byte) (a : Nat) :
    (s.writeShadow idx v).shadowByte a = if a = idx.toNat then v else s.shadowByte a :=
  Memory.read_write ..

@[simp] theorem State.shadowByte_mergeShadow (s : State) (idx : BitVec 8) (v : Byte) (a : Nat) :
    (s.mergeShadow idx v).shadowByte a = if a = idx.toNat then merge (s.shadowByte idx.toNat) v else s.shadowByte a :=
  Memory.read_write ..

@[simp] theorem State.shadowByte_holdShadow (s : State) (idx : BitVec 8) (a : Nat) :
    (s.holdShadow idx).shadowByte a = if a = idx.toNat then clearLow (s.shadowByte idx.toNat) else s.shadowByte a :=
  Memory.read_write ..

@[simp] theorem State.shadowByte_holdAllShadow (s : State) (a : Nat) :
    s.holdAllShadow.shadowByte a = if a < s.n.toNat then clearLow (s.shadowByte a) else s.shadowByte a :=
  Memory.read_clearLowUpTo ..

theorem State.length_shadowBytes (s : State) : s.shadowBytes.length = s.n.toNat := by
  simp [State.shadowBytes, Memory.bytes]

theorem State.shadowBytes_getElem (s : State) (k : Nat) (h : k < s.shadowBytes.length) :
    s.shadowBytes[k] = s.shadowByte k := by
  simp [State.shadowBytes, Memory.bytes, State.shadowByte]

end Sys2Proof.Machine
end

