-- ==== Sys2Proof/Laws/Ops.lean ====
section
/-! SUPPORT. One lemma per shared operation that says what it can do: tests, frame, events, UPDATE, one position of SEQ,
one step.  Later proofs cite these and do not unfold the operations. -/

namespace Sys2Proof.Machine

/-! ### Tests -/

theorem State.validIndex_iff (s : State) (idx : BitVec 8) : s.validIndex idx = true ↔ idx.toNat < s.n.toNat := by
  simp [State.validIndex, BitVec.lt_def]

/-- The bounds test answers nothing or IndexError. -/
theorem State.testIndex_eq (s : State) (idx : BitVec 8) :
    s.testIndex idx = if idx.toNat < s.n.toNat then none else some .indexError := by
  simp only [State.testIndex, State.validIndex_iff]

/-- The interlock test answers nothing or InvalidStateError. -/
theorem testInterlock_eq (v : Byte) : testInterlock v = if contra v = true then some .invalidStateError else none := rfl

/-- The tests of `setRelays`, in their order. -/
theorem State.setTests_eq (s : State) (idx : BitVec 8) (v : Byte) :
    s.setTests idx v =
      if idx.toNat < s.n.toNat then if contra v = true then some .invalidStateError else none else some .indexError := by
  simp only [State.setTests, State.testIndex_eq, testInterlock_eq]
  split <;> rfl

theorem commandTests_congr {s t : State} (i : Instr) (h : t.n = s.n) : commandTests i t = commandTests i s := by
  cases i <;> simp [commandTests, State.setTests, State.testIndex, State.validIndex, h]

/-! ### The frame -/

/-- All the frame can do: ConfigError, the first test's error, or the work and the response OK. -/
theorem State.execute_cases (s : State) (tests : Option Status) (work : State → State) :
    (s.cfgErr = true ∧ s.execute tests work = s.rejectedWith .configError) ∨
      (s.cfgErr = false ∧ ∃ e, tests = some e ∧ s.execute tests work = s.rejectedWith e) ∨
        (s.cfgErr = false ∧ tests = none ∧ s.execute tests work = (work s).respond .ok) := by
  unfold State.execute
  cases hc : s.cfgErr with
  | true => exact .inl ⟨rfl, rfl⟩
  | false =>
    cases tests with
    | some e => exact .inr (.inl ⟨rfl, e, rfl, rfl⟩)
    | none => exact .inr (.inr ⟨rfl, rfl, rfl⟩)

/-- What each command does after its tests. -/
def commandWork : Instr → State → State
  | .setr idx val => setWork idx val
  | .setrt idx val dur => setTimedWork idx val dur
  | .inflate idx => setWork idx Config.inflateMask
  | .deflate idx => setWork idx Config.deflateMask
  | .hold idx => holdWork idx
  | .holdall => holdAllWork

/-- Every meaning is the frame over the command's tests and work, and always answers a next state. -/
theorem exec_eq (i : Instr) (s : State) : exec i s = .next (s.execute (commandTests i s) (commandWork i)) := by
  cases i <;> rfl

/-! ### Events and UPDATE -/

theorem State.emitAll_nil (s : State) : s.emitAll [] = s := rfl

theorem State.emitAll_cons (s : State) (e : Event) (es : List Event) : s.emitAll (e :: es) = (s.emit e).emitAll es := rfl

theorem State.emitAll_append (s : State) (es es' : List Event) : s.emitAll (es ++ es') = (s.emitAll es).emitAll es' :=
  List.foldl_append

/-- PULSE ends with its line low and moves no other line. -/
theorem State.emitAll_pulse_clock (s : State) :
    (s.emitAll (pulse .clock)).clock = false ∧ (s.emitAll (pulse .clock)).data = s.data ∧
      (s.emitAll (pulse .clock)).latch = s.latch ∧ (s.emitAll (pulse .clock)).oeDis = s.oeDis ∧
        (s.emitAll (pulse .clock)).out = s.out ∧
          (s.emitAll (pulse .clock)).sr = if s.clock then s.sr else shiftChain s.data s.sr := by
  cases h : s.clock <;> simp [pulse, State.emitAll_cons, State.emitAll_nil, h]

theorem State.emitAll_pulse_latch (s : State) :
    (s.emitAll (pulse .latch)).latch = false ∧ (s.emitAll (pulse .latch)).data = s.data ∧
      (s.emitAll (pulse .latch)).clock = s.clock ∧ (s.emitAll (pulse .latch)).oeDis = s.oeDis ∧
        (s.emitAll (pulse .latch)).sr = s.sr ∧
          (s.emitAll (pulse .latch)).out = if s.latch then s.out else s.sr := by
  cases h : s.latch <;> simp [pulse, State.emitAll_cons, State.emitAll_nil, h]

/-- One bit cell from an idle clock: DATA is the bit, and the chain has sampled it. -/
theorem State.emitAll_bitCell (s : State) (v : Bool) (hc : s.clock = false) :
    (s.emitAll (bitCell v)).clock = false ∧ (s.emitAll (bitCell v)).data = v ∧
      (s.emitAll (bitCell v)).latch = s.latch ∧ (s.emitAll (bitCell v)).oeDis = s.oeDis ∧
        (s.emitAll (bitCell v)).out = s.out ∧ (s.emitAll (bitCell v)).sr = shiftChain v s.sr := by
  have h := State.emitAll_pulse_clock (s.emit (.emit .data v))
  simpa [bitCell, State.emitAll_cons, hc] using h

theorem length_shiftChain (d : Bool) (c : List Byte) : (shiftChain d c).length = c.length := by
  induction c generalizing d with
  | nil => rfl
  | cons b bs ih => simp [shiftChain, ih]

/-- All one event can do to the two registers of the chain: their lengths stay. -/
theorem State.length_emit (s : State) (e : Event) :
    (s.emit e).sr.length = s.sr.length ∧
      ((s.emit e).out.length = s.out.length ∨ (s.emit e).out.length = s.sr.length) := by
  rcases e with ⟨_ | _ | _ | _, v⟩ | t
  · simp
  · simp only [State.emit_sr, State.emit_out, State.react_clockLine_sr, State.react_clockLine_out]
    split <;> simp [length_shiftChain]
  · simp only [State.emit_sr, State.emit_out, State.react_latchLine_sr, State.react_latchLine_out]
    split <;> simp
  · simp
  · simp

theorem State.length_emitAll (s : State) (es : List Event) (h : s.sr.length = s.out.length) :
    (s.emitAll es).sr.length = s.sr.length ∧ (s.emitAll es).out.length = s.sr.length := by
  induction es generalizing s with
  | nil => exact ⟨rfl, h.symm⟩
  | cons e es ih =>
    obtain ⟨h1, h2⟩ := State.length_emit s e
    have h3 : (s.emit e).out.length = s.sr.length := by omega
    have := ih (s.emit e) (by omega)
    rw [State.emitAll_cons]
    omega

/-! ### One position of SEQ -/

/-- All one position can do: it stops only at a pair of BUSY and SEQ, or a position, that the spec excludes. -/
theorem seqStep_cases (s : State) :
    (s.seq = .idle ∧ seqStep s = .fault .noPosition) ∨
      (s.seq = .check ∧ seqStep s = .next (seqCheck s)) ∨
        (∃ u, s.seq = .oeOff u ∧ seqStep s = .next ((s.emit (.emit .oe true)).goto (seqByte u s.n.toNat))) ∨
          (∃ u k b p, s.seq = .shift u k b p ∧ k < s.n.toNat ∧ seqStep s = .next (seqShift u k b s p)) ∨
            (∃ u k b p, s.seq = .shift u k b p ∧ ¬k < s.n.toNat ∧ seqStep s = .fault .noSuchChip) ∨
              (∃ u p, s.seq = .latch u p ∧ seqStep s = .next (seqLatch u s p)) ∨
                (∃ u, s.seq = .oeOn u ∧ seqStep s = .next (seqOeOn u s)) ∨
                  (s.seq = .wait ∧ seqStep s = .next (seqWait s)) := by
  unfold seqStep
  cases s.seq with
  | idle => simp
  | check => simp
  | oeOff u => simp
  | shift u k b p =>
    by_cases hk : k < s.n.toNat
    · simp [hk]
    · simpa [hk] using Nat.not_lt.mp hk
  | latch u p => simp
  | oeOn u => simp
  | wait => simp

/-- All CHECK can do: reject at once with the first test that fires, or write SHADOW and start the UPDATE. -/
theorem seqCheck_cases (s : State) :
    (∃ e, seqCheck s = s.rejectedWith e ∧ e ≠ .ok) ∨
      (s.cfgErr = false ∧ ∃ i, decode s.cmd.word = .legal i ∧ commandTests i s = none ∧
        seqCheck s = (firstWrite i s).goto (.oeOff .first)) := by
  unfold seqCheck
  cases hc : s.cfgErr with
  | true => exact .inl ⟨.configError, rfl, by decide⟩
  | false =>
    cases hd : decode s.cmd.word with
    | illegal w => exact .inl ⟨.illegalCommand, rfl, by decide⟩
    | legal i =>
      cases ht : commandTests i s with
      | none => exact .inr ⟨rfl, i, rfl, ht, by simp [ht]⟩
      | some e =>
        refine .inl ⟨e, by simp only [ht]; rfl, ?_⟩
        rintro rfl
        cases i <;> simp only [commandTests, State.setTests_eq, State.testIndex_eq] at ht <;>
          (repeat' split at ht) <;> simp at ht

/-- All OE_ON can do: start the wait of a SETRT, or respond OK. -/
theorem seqOeOn_cases (u : UpdateNo) (s : State) :
    (u = .first ∧ ∃ idx val dur, decode s.cmd.word = .legal (.setrt idx val dur) ∧
      seqOeOn u s = { s.emit (.emit .oe false) with holdCnt := dur }.goto .wait) ∨
      (seqOeOn u s = (s.emit (.emit .oe false)).respond .ok ∧
        (u = .second ∨ ∀ idx val dur, decode s.cmd.word ≠ .legal (.setrt idx val dur))) := by
  unfold seqOeOn
  cases u with
  | second => exact .inr ⟨rfl, .inl rfl⟩
  | first =>
    cases hd : decode s.cmd.word with
    | illegal w => exact .inr ⟨rfl, .inr (by simp)⟩
    | legal i =>
      cases i with
      | setrt idx val dur => exact .inl ⟨rfl, idx, val, dur, rfl, rfl⟩
      | setr _ _ => exact .inr ⟨rfl, .inr (by simp)⟩
      | inflate _ => exact .inr ⟨rfl, .inr (by simp)⟩
      | deflate _ => exact .inr ⟨rfl, .inr (by simp)⟩
      | hold _ => exact .inr ⟨rfl, .inr (by simp)⟩
      | holdall => exact .inr ⟨rfl, .inr (by simp)⟩

/-! ### One step -/

/-- What a step does with the outside world's levels, first match first. -/
inductive StepCase (s : State) : Host.Outcome State Fault Refusal → Prop where
  | foreignDriver (h : s.inputs.foreignDriver = true) : StepCase s (.refused .secondDriver)
  | powerUp (h : s.inputs.powerUp = true) : StepCase s (.next (s.powerOn s.inputs.chipCount))
  | reset (h : s.inputs.reset = true) : StepCase s (.next (s.resetTo s.inputs.chipCount))
  | hostFault (h : s.inputs.hostFault = true) : StepCase s (.fault .hostFault)
  | busy (h : s.busy = true) : StepCase s (seqStep s)
  | acceptEvent (h : s.busy = false) (hv : s.inputs.cmdValid = true) : StepCase s (.next (s.accept s.inputs.cmd))
  | acceptWhole (h : s.busy = false) (hv : s.inputs.cmdValid = true) :
      StepCase s (execWord s.inputs.cmd (s.accept s.inputs.cmd))
  | idle (h : s.busy = false) (hv : s.inputs.cmdValid = false) : StepCase s (.next s.idle)

/-- All a step can do. -/
theorem step_cases (s : State) : StepCase s (step s) := by
  unfold step
  split
  · exact .foreignDriver ‹_›
  · split
    · exact .powerUp ‹_›
    · split
      · exact .reset ‹_›
      · split
        · next h => exact .hostFault (by simp only [Bool.and_eq_true] at h; exact h.1)
        · split
          · exact .busy ‹_›
          · split
            · unfold acceptStep
              split
              · exact .acceptEvent (by simpa using ‹¬s.busy = true›) ‹_›
              · exact .acceptWhole (by simpa using ‹¬s.busy = true›) ‹_›
            · exact .idle (by simpa using ‹¬s.busy = true›) (by simpa using ‹¬s.inputs.cmdValid = true›)

/-- All the execution of an accepted word can do: a rejection, or a command's work and the response OK. -/
theorem execWord_cases (w : CmdWord) (s : State) :
    (∃ e, execWord w s = .next (s.rejectedWith e)) ∨
      (s.cfgErr = false ∧ ∃ i, decode w = .legal i ∧ commandTests i s = none ∧
        execWord w s = .next ((commandWork i s).respond .ok)) := by
  unfold execWord
  cases hd : decode w with
  | illegal _ =>
    left
    rcases State.execute_cases s (some .illegalCommand) id with ⟨_, h⟩ | ⟨_, e, _, h⟩ | ⟨_, h, _⟩
    · exact ⟨_, congrArg Host.Outcome.next h⟩
    · exact ⟨e, congrArg Host.Outcome.next h⟩
    · cases h
  | legal i =>
    simp only [exec_eq]
    rcases State.execute_cases s (commandTests i s) (commandWork i) with ⟨_, h⟩ | ⟨_, e, _, h⟩ | ⟨hc, ht, h⟩
    · exact .inl ⟨_, congrArg Host.Outcome.next h⟩
    · exact .inl ⟨e, congrArg Host.Outcome.next h⟩
    · exact .inr ⟨hc, i, rfl, ht, congrArg Host.Outcome.next h⟩

end Sys2Proof.Machine
end

