-- ==== Sys2Proof/Laws/PerInstr.lean ====
section
/-! SUPPORT. Statements made per instruction, about the instruction as syntax. -/

namespace Sys2Proof.Laws

/-- The word of every command is selected by the command's own row of the opcode map (R78, R86). -/
def EncodesInItsRow.Statement (i : Instr) : Prop := i.row.selects (encode i) = true

/-- A shifted field has no bit below its place or above its width. -/
theorem getLsbD_placeIdx (idx : BitVec 8) (j : Nat) :
    (placeIdx idx).getLsbD j = (decide (20 ≤ j) && decide (j < 28) && idx.getLsbD (j - 20)) := by
  simp only [placeIdx, BitVec.getLsbD_shiftLeft, BitVec.getLsbD_setWidth]
  by_cases h : j < 20
  · simp [h]
  · by_cases h' : j < 28
    · have : j < 32 := by omega
      have : j - 20 < 32 := by omega
      simp [*]; omega
    · have : 8 ≤ j - 20 := by omega
      simp [h', BitVec.getLsbD_of_ge idx _ this]

theorem getLsbD_placeVal (val : BitVec 8) (j : Nat) :
    (placeVal val).getLsbD j = (decide (12 ≤ j) && decide (j < 20) && val.getLsbD (j - 12)) := by
  simp only [placeVal, BitVec.getLsbD_shiftLeft, BitVec.getLsbD_setWidth]
  by_cases h : j < 12
  · simp [h]
  · by_cases h' : j < 20
    · have : j < 32 := by omega
      have : j - 12 < 32 := by omega
      simp [*]; omega
    · have : 8 ≤ j - 12 := by omega
      simp [h', BitVec.getLsbD_of_ge val _ this]

theorem getLsbD_placeDur (dur : BitVec 12) (j : Nat) :
    (placeDur dur).getLsbD j = (decide (j < 12) && dur.getLsbD j) := by
  simp only [placeDur, BitVec.getLsbD_setWidth]
  by_cases h : j < 12
  · have : j < 32 := by omega
    simp [*]
  · simp [h, BitVec.getLsbD_of_ge dur _ (Nat.not_lt.mp h)]

/-- A mask without the bits 27 to 20 meets no index field. -/
theorem placeIdx_and {mask : CmdWord} (idx : BitVec 8) (h : ∀ j, j < 8 → mask.getLsbD (20 + j) = false) :
    placeIdx idx &&& mask = 0 := by
  apply BitVec.eq_of_getLsbD_eq
  intro j _
  simp only [BitVec.getLsbD_and, getLsbD_placeIdx]
  by_cases h1 : 20 ≤ j ∧ j < 28
  · have := h (j - 20) (by omega)
    rw [show 20 + (j - 20) = j by omega] at this
    simp [this]
  · rcases not_and_or.mp h1 with h2 | h2 <;> simp [h2]

theorem placeVal_and {mask : CmdWord} (val : BitVec 8) (h : ∀ j, j < 8 → mask.getLsbD (12 + j) = false) :
    placeVal val &&& mask = 0 := by
  apply BitVec.eq_of_getLsbD_eq
  intro j _
  simp only [BitVec.getLsbD_and, getLsbD_placeVal]
  by_cases h1 : 12 ≤ j ∧ j < 20
  · have := h (j - 12) (by omega)
    rw [show 12 + (j - 12) = j by omega] at this
    simp [this]
  · rcases not_and_or.mp h1 with h2 | h2 <;> simp [h2]

theorem placeDur_and {mask : CmdWord} (dur : BitVec 12) (h : ∀ j, j < 12 → mask.getLsbD j = false) :
    placeDur dur &&& mask = 0 := by
  apply BitVec.eq_of_getLsbD_eq
  intro j _
  simp only [BitVec.getLsbD_and, getLsbD_placeDur]
  by_cases h1 : j < 12
  · simp [h j h1]
  · simp [h1]

theorem EncodesInItsRow.setr (idx val : BitVec 8) : EncodesInItsRow.Statement (.setr idx val) := by
  have hi : placeIdx idx &&& 0xF0000FFF = 0 := placeIdx_and idx (by decide)
  have hv : placeVal val &&& 0xF0000FFF = 0 := placeVal_and val (by decide)
  simp only [EncodesInItsRow.Statement, OpcodeRow.selects, Instr.row, encode, BitVec.and_comm _ (0xF0000FFF : CmdWord),
    BitVec.and_or_distrib_left]
  rw [BitVec.and_comm _ (placeIdx idx), BitVec.and_comm _ (placeVal val), hi, hv]
  decide

theorem EncodesInItsRow.setrt (idx val : BitVec 8) (dur : BitVec 12) :
    EncodesInItsRow.Statement (.setrt idx val dur) := by
  have hi : placeIdx idx &&& 0xF0000000 = 0 := placeIdx_and idx (by decide)
  have hv : placeVal val &&& 0xF0000000 = 0 := placeVal_and val (by decide)
  have hd : placeDur dur &&& 0xF0000000 = 0 := placeDur_and dur (by decide)
  simp only [EncodesInItsRow.Statement, OpcodeRow.selects, Instr.row, encode, BitVec.and_comm _ (0xF0000000 : CmdWord),
    BitVec.and_or_distrib_left]
  rw [BitVec.and_comm _ (placeIdx idx), BitVec.and_comm _ (placeVal val), BitVec.and_comm _ (placeDur dur), hi, hv, hd]
  decide

theorem EncodesInItsRow.inflate (idx : BitVec 8) : EncodesInItsRow.Statement (.inflate idx) := by
  have hi : placeIdx idx &&& 0xF00FFFFF = 0 := placeIdx_and idx (by decide)
  simp only [EncodesInItsRow.Statement, OpcodeRow.selects, Instr.row, encode, BitVec.and_comm _ (0xF00FFFFF : CmdWord),
    BitVec.and_or_distrib_left]
  rw [BitVec.and_comm _ (placeIdx idx), hi]
  decide

theorem EncodesInItsRow.deflate (idx : BitVec 8) : EncodesInItsRow.Statement (.deflate idx) := by
  have hi : placeIdx idx &&& 0xF00FFFFF = 0 := placeIdx_and idx (by decide)
  simp only [EncodesInItsRow.Statement, OpcodeRow.selects, Instr.row, encode, BitVec.and_comm _ (0xF00FFFFF : CmdWord),
    BitVec.and_or_distrib_left]
  rw [BitVec.and_comm _ (placeIdx idx), hi]
  decide

theorem EncodesInItsRow.hold (idx : BitVec 8) : EncodesInItsRow.Statement (.hold idx) := by
  have hi : placeIdx idx &&& 0xF00FFFFF = 0 := placeIdx_and idx (by decide)
  simp only [EncodesInItsRow.Statement, OpcodeRow.selects, Instr.row, encode, BitVec.and_comm _ (0xF00FFFFF : CmdWord),
    BitVec.and_or_distrib_left]
  rw [BitVec.and_comm _ (placeIdx idx), hi]
  decide

theorem EncodesInItsRow.holdall : EncodesInItsRow.Statement .holdall := by
  simp only [EncodesInItsRow.Statement]; decide

end Sys2Proof.Laws
end

