-- ==== Sys2Proof/Machine/Assembler.lean ====
section
/-! DEFINITION. The assembler's text (30_encoding.md R83, R84): one command per line, as a list of characters.  It is the
host's tool and no part of a step. -/

namespace Sys2Proof.Machine

/-- What a line is made of. -/
inductive Token where
  | word (cs : List Char)
  | comma
  | lparen
  | rparen
  deriving DecidableEq, Repr

/-- What a line says. -/
inductive AsmLine where
  /-- nothing but blanks and a comment -/
  | blank
  | command (c : SourceCmd)
  /-- no line of R83 or R84 -/
  | refused
  deriving DecidableEq, Repr

/-- `;` starts a comment (R83). -/
def stripComment (cs : List Char) : List Char := cs.takeWhile fun c => c != ';'

/-- A collected word, if any, in front of the tokens after it. -/
def Token.flush (acc : List Char) (ts : List Token) : List Token :=
  match acc with
  | [] => ts
  | _ :: _ => .word acc.reverse :: ts

/-- The tokens of a line; `acc` is the word being read, last character first. -/
def tokens (acc : List Char) : List Char → Option (List Token)
  | [] => some (Token.flush acc [])
  | c :: cs =>
    if c = ' ' || c = '\t' then (tokens [] cs).map (Token.flush acc)
    else if c = ',' then (tokens [] cs).map fun ts => Token.flush acc (.comma :: ts)
    else if c = '(' then (tokens [] cs).map fun ts => Token.flush acc (.lparen :: ts)
    else if c = ')' then (tokens [] cs).map fun ts => Token.flush acc (.rparen :: ts)
    else if c.isAlphanum then tokens (c :: acc) cs
    else none

/-- The value of one digit, a hexadecimal one in either case. -/
def digitValue (c : Char) : Option Nat :=
  if '0' ≤ c ∧ c ≤ '9' then some (c.toNat - '0'.toNat)
  else if 'a' ≤ c ∧ c ≤ 'f' then some (c.toNat - 'a'.toNat + 10)
  else if 'A' ≤ c ∧ c ≤ 'F' then some (c.toNat - 'A'.toNat + 10)
  else none

/-- Digits in a base, at least one, each below the base. -/
def digits (base acc : Nat) : List Char → Option Nat
  | [] => some acc
  | c :: cs =>
    match digitValue c with
    | some d => if d < base then digits base (base * acc + d) cs else none
    | none => none

/-- A number: decimal, `0x` hexadecimal or `0b` binary (R83). -/
def number : List Char → Option Nat
  | [] => none
  | '0' :: 'x' :: c :: cs => digits 16 0 (c :: cs)
  | '0' :: 'b' :: c :: cs => digits 2 0 (c :: cs)
  | c :: cs => digits 10 0 (c :: cs)

/-- Numbers separated by commas. -/
def operands : List Token → Option (List Nat)
  | [.word w] => (number w).map fun n => [n]
  | .word w :: .comma :: ts =>
    match number w, operands ts with
    | some n, some ns => some (n :: ns)
    | _, _ => none
  | _ => none

/-- A possibly empty operand list. -/
def operands? : List Token → Option (List Nat)
  | [] => some []
  | ts => operands ts

/-- The arguments of an API call: what stands between the parentheses that end the line. -/
def arguments (ts : List Token) : Option (List Nat) :=
  match ts.getLast? with
  | some .rparen => operands? ts.dropLast
  | _ => none

/-- A mnemonic in lower or upper case (R83; a mixed spelling is refused, log 26). -/
def isMnemonic (w : List Char) (lower upper : String) : Bool := w == lower.toList || w == upper.toList

/-- A mnemonic with its operands (R83). -/
def plainCommand (w : List Char) (ns : List Nat) : AsmLine :=
  match ns with
  | [i, v] => if isMnemonic w "setr" "SETR" then .command (.setr i v) else .refused
  | [i, v, d] => if isMnemonic w "setrt" "SETRT" then .command (.setrt i v d) else .refused
  | [i] =>
    if isMnemonic w "inflate" "INFLATE" then .command (.inflate i)
    else if isMnemonic w "deflate" "DEFLATE" then .command (.deflate i)
    else if isMnemonic w "hold" "HOLD" then .command (.hold i)
    else .refused
  | [] => if isMnemonic w "holdall" "HOLDALL" then .command .holdall else .refused
  | _ => .refused

/-- An API spelling with its arguments (R84). -/
def apiCall (w : List Char) (ns : List Nat) : AsmLine :=
  match ns with
  | [i, v] => if w = "setRelays".toList then .command (ApiCall.setRelays i v none).expand else .refused
  | [i, v, d] => if w = "setRelays".toList then .command (ApiCall.setRelays i v (some d)).expand else .refused
  | [i] =>
    if w = "inflate".toList then .command (ApiCall.inflate i).expand
    else if w = "deflate".toList then .command (ApiCall.deflate i).expand
    else if w = "hold".toList then .command (ApiCall.hold (some i)).expand
    else .refused
  | [] => if w = "hold".toList then .command (ApiCall.hold none).expand else .refused
  | _ => .refused

/-- What a line's tokens say (R83, R84). -/
def parseTokens : List Token → AsmLine
  | [] => .blank
  | .word w :: .lparen :: ts =>
    match arguments ts with
    | some ns => apiCall w ns
    | none => .refused
  | .word w :: ts =>
    match operands? ts with
    | some ns => plainCommand w ns
    | none => .refused
  | _ => .refused

/-- What a line says (R83, R84). -/
def parseLine (cs : List Char) : AsmLine :=
  match tokens [] (stripComment cs) with
  | some ts => parseTokens ts
  | none => .refused

/-- The word of a line: none for a line that holds no command, or one the assembler refuses (R83). -/
def assembleLine (cs : List Char) : Option CmdWord :=
  match parseLine cs with
  | .command c => c.assemble
  | _ => none

end Sys2Proof.Machine
end

