-- ==== Sys2Proof/Tests/Slice0.lean ====
section
/-! SUPPORT. Small checks of the model against 95_test_vectors.md and the worked examples of the rules, and for every
statement with hypotheses a state and operands that meet them. -/

namespace Sys2Proof.Tests

open Sys2Proof Sys2Proof.Machine

/-- The outcome is a next state with this property. -/
def gives (o : Host.Outcome State Fault Refusal) (p : State → Bool) : Bool :=
  match o with
  | .next t => p t
  | .fault _ => false
  | .refused _ => false

/-- A core of `c` chips with this SHADOW, idle, the chain as long as N. -/
def core (c : BitVec 8) (bytes : Memory) : State := { State.afterReset c with shadow := bytes }

/-- The same, with a word presented. -/
def presented (c : BitVec 8) (bytes : Memory) (w : Nat) : State := (core c bytes).withFetchWord 32 w

/-! ### WellFormed: each check refuses a term (R83) -/

theorem test_wf_refuses_setr_idx : (SourceCmd.setr 256 0).wellFormed = false := by decide
theorem test_wf_refuses_setr_val : (SourceCmd.setr 0 256).wellFormed = false := by decide
theorem test_wf_refuses_setrt_idx : (SourceCmd.setrt 256 0 0).wellFormed = false := by decide
theorem test_wf_refuses_setrt_val : (SourceCmd.setrt 0 256 0).wellFormed = false := by decide
theorem test_wf_refuses_setrt_dur : (SourceCmd.setrt 0 0 4096).wellFormed = false := by decide
theorem test_wf_refuses_inflate_idx : (SourceCmd.inflate 256).wellFormed = false := by decide
theorem test_wf_refuses_deflate_idx : (SourceCmd.deflate 256).wellFormed = false := by decide
theorem test_wf_refuses_hold_idx : (SourceCmd.hold 256).wellFormed = false := by decide
theorem test_wf_takes_largest : (SourceCmd.setrt 255 255 4095).wellFormed = true := by decide

/-! ### Decode: words written out bit by bit from R74 and R78 (opc, idx, val, dur), and the vectors of 2.1 -/

theorem test_decode_setr : decode 0b0001_00000001_00001100_000000000000 = .legal (.setr 1 0x0C) := by decide
theorem test_decode_setrt : decode 0b0010_00000000_00000011_000000000101 = .legal (.setrt 0 3 5) := by decide
theorem test_decode_inflate : decode 0b0011_11111110_00000000_000000000000 = .legal (.inflate 254) := by decide
theorem test_decode_deflate : decode 0b0100_00000001_00000000_000000000000 = .legal (.deflate 1) := by decide
theorem test_decode_hold : decode 0b0101_00000010_00000000_000000000000 = .legal (.hold 2) := by decide
theorem test_decode_holdall : decode 0b0110_00000000_00000000_000000000000 = .legal .holdall := by decide

theorem test_decode_largest_words :
    decode 0x1FFFF000 = .legal (.setr 255 255) ∧ decode 0x2FFFFFFF = .legal (.setrt 255 255 4095) := by decide

theorem test_decode_refuses_reserved :
    [0x00000000, 0xFFFFFFFF, 0x70000000].map decode = List.replicate 3 (.illegal .reservedOpcode) := by decide

theorem test_decode_refuses_unused_field :
    [0x10000001, 0x3000F000, 0x30000001, 0x40001000, 0x50000001, 0x60100000].map decode =
      List.replicate 6 (.illegal .nonZeroField) := by decide

theorem test_table_word : decodeTableWord 32 0x2010C003 = some (.setrt 1 0x0C 3) := by decide

theorem test_encode_examples :
    encode (.inflate 0) = 0x30000000 ∧ encode (.setr 1 0x0C) = 0x1010C000 ∧ encode (.setrt 0 3 5) = 0x20003005 ∧
      encode (.hold 2) = 0x50200000 := by decide

/-! ### The assembler (R83, R84, 2.1) -/

theorem test_assemble_line : assembleLine "setrt 1, 0x0C, 3 ; timed deflate".toList = some 0x2010C003 := by decide
theorem test_assemble_binary_upper : assembleLine "SETR 0,0b10011".toList = some 0x10013000 := by decide
theorem test_assemble_api : assembleLine "setRelays(0, 3, 5)".toList = some 0x20003005 := by decide
theorem test_assemble_hold_all : assembleLine "hold()".toList = some 0x60000000 := by decide
theorem test_assemble_refuses_wide : assembleLine "inflate 256".toList = none := by decide
theorem test_assemble_comment_line : parseLine " ; nothing".toList = .blank := by decide

/-! ### Steps (2.2 to 2.8 and the programs) -/

/-- R131's worked example. -/
theorem test_setr_example :
    gives (step (presented 2 [] 0x1010C000)) (fun t => t.shadowBytes == [0x00, 0x0C] && t.out == [0x00, 0x0C]) = true := by
  decide

/-- V14: the high nibble is kept and the request's bit 4 is dropped. -/
theorem test_setr_keeps_high_nibble :
    gives (step (presented 1 [(0, 0xA0)] 0x10013000)) (fun t => t.shadowBytes == [0xA3] && t.out == [0xA3]) = true := by
  decide

/-- V25: the end state and the 93 events. -/
theorem test_setrt_ends_idle :
    gives (step (presented 1 [] 0x20003005)) (fun t => t.shadowBytes == [0x00] && t.trace.length == 93) = true := by
  decide +kernel

/-- V27: a contradictory timed request has no event. -/
theorem test_setrt_contradiction :
    gives (step (presented 1 [] 0x20005009)) (fun t => t.last == .invalidStateError && t.trace == []) = true := by
  decide

/-- V20: INFLATE of chip 1. -/
theorem test_inflate_second_chip :
    gives (step (presented 2 [] 0x30100000)) (fun t => t.shadowBytes == [0x00, 0x03] && t.sr == [0x00, 0x03]) = true := by
  decide

/-- V21: DEFLATE over an inflating chip. -/
theorem test_deflate_over_inflate :
    gives (step (presented 2 [(0, 0x03)] 0x40000000)) (fun t => t.shadowBytes == [0x0C, 0x00] && t.last == .ok) = true := by
  decide

/-- V15 on two chips: HOLD clears its chip only. -/
theorem test_hold_one_chip :
    gives (step (presented 2 [(0, 0x03), (1, 0x0C)] 0x50100000)) (fun t => t.shadowBytes == [0x03, 0x00]) = true := by
  decide

/-- V17: HOLD at N is IndexError. -/
theorem test_hold_out_of_range :
    gives (step (presented 3 [(0, 0x03)] 0x50300000)) (fun t => t.last == .indexError && t.oeDis) = true := by decide

/-- R141's worked example. -/
theorem test_holdall_clears :
    gives (step (presented 2 [(0, 0x03), (1, 0x0C)] 0x60000000)) (fun t => t.shadow == [] && t.out == [0x00, 0x00]) = true := by
  decide

/-- V12: with both faults the index decides. -/
theorem test_both_faults : gives (step (presented 1 [] 0x1050F000)) (fun t => t.last == .indexError) = true := by decide

/-- P5 line 3: ConfigError before IllegalCommand. -/
theorem test_config_error_first :
    gives (step (presented 0 [] 0x00000000)) (fun t => t.last == .configError && t.statusWord == 0x0D00) = true := by decide

/-- V37: STATUS after V8. -/
theorem test_status_after_rejection :
    gives (step (presented 1 [] 0x10005000)) (fun t => t.statusWord == 0x1C01) = true := by decide

/-- V32: one clock edge. -/
theorem test_clock_edge : shiftChain true [0x80, 0x01] = [0x01, 0x03] := by decide

/-- R120: the trace of one UPDATE with SHADOW = [0x03] has 46 events and sends 00000011. -/
theorem test_update_trace :
    (updateTrace 1 [(0, 0x03)]).length = 46 ∧
      (updateTrace 1 [(0, 0x03)]).filterMap Event.dataLevel = [false, false, false, false, false, false, true, true] := by
  decide

/-- S1. -/
theorem test_wire_order :
    wireBits 2 [(0, 0xA5), (1, 0x3C)] = msbFirst 0x3C ++ msbFirst 0xA5 := by decide

/-- R143: the seven allowed low nibbles by class, and the nine forbidden ones. -/
theorem test_chip_classes :
    chipClass 0x0 = .idle ∧ [0x1, 0x2, 0x3].map chipClass = List.replicate 3 .inflate ∧
      [0x4, 0x8, 0xC].map chipClass = List.replicate 3 .deflate ∧
      [0x5, 0x6, 0x7, 0x9, 0xA, 0xB, 0xD, 0xE, 0xF].map chipClass = List.replicate 9 .forbidden := by decide

/-- P6: a core in the wait of a SETRT. -/
def waiting : State :=
  { core 1 [(0, 0x03)] with
    seq := .wait, busy := true, holdCnt := 100, oeDis := false, data := true, sr := [0x03], out := [0x03]
    cmd := Command.ofWord 0x20003064 }

/-- P6: RESET in the wait gives the reset state, outputs disabled, OUT still 0x03 inside the chip. -/
theorem test_reset_in_wait :
    gives (step { waiting with inputs := { waiting.inputs with reset := true } })
      (fun t => t.oeDis && !t.busy && t.holdCnt == 0 && t.shadow == [] && t.out == [0x03] && !t.rspValid) = true := by decide

/-- R192: the code of the last response does not survive a loss of power, and power-on clears RSP_VALID and the trace. -/
theorem test_power_on_forgets_response :
    gives (step { waiting with
        rspStatus := .indexError, rspValid := true, inputs := { waiting.inputs with powerUp := true } })
      (fun t => t.rspStatus == .ok && !t.rspValid && t.trace == [] && t.n == 1 && t.shadow == []) = true := by decide

/-! ### Witnesses: the hypotheses of each statement can be met -/

theorem witness_DecodeFollowsFieldFormula_illegal : ∃ why, decode 0x60100000 = .illegal why := ⟨.nonZeroField, by decide⟩

theorem witness_LegalWordsAreTheRowsOfTheMap :
    decode 0x2FFFFFFF = .legal (.setrt 255 255 4095) ∧ OpcodeRow.selects (Instr.setrt 0 0 0).row 0x2FFFFFFF = true := by
  decide

theorem witness_UnusedFieldsMustBeZero :
    (opcField 0x10000001 ∈ ([1, 3, 4, 5, 6] : List (BitVec 4)) ∧ durField 0x10000001 ≠ 0) ∧
      (opcField 0x40001000 ∈ ([3, 4, 5, 6] : List (BitVec 4)) ∧ valField 0x40001000 ≠ 0) ∧
      (opcField 0x60100000 = 6 ∧ idxField 0x60100000 ≠ 0) ∧ opcField 0x00000000 = 0 ∧ 7 ≤ (opcField 0x70000000).toNat := by
  decide

theorem witness_AssemblerNeverTruncates :
    ((255 < 256 ∧ 255 < 256) ∧ ¬(256 < 256 ∧ 255 < 256)) ∧ ((255 < 256 ∧ 255 < 256 ∧ 4095 < 4096) ∧
      ¬(255 < 256 ∧ 255 < 256 ∧ 4096 < 4096)) ∧ (SourceCmd.setrt 255 255 4095).assemble = some 0x2FFFFFFF ∧
      (SourceCmd.setr 255 256).assemble = none := by decide

theorem witness_StepRunsDecodedInstruction :
    (presented 2 [] 0x1010C000).inputs.Quiet ∧ (presented 2 [] 0x1010C000).busy = false ∧
      (presented 2 [] 0x1010C000).inputs.cmdValid = true ∧ (presented 2 [] 0x1010C000).inputs.byEvent = false ∧
      decode (presented 2 [] 0x1010C000).inputs.cmd = .legal (.setr 1 0x0C) := by
  unfold Inputs.Quiet; decide

/-- A word that spells no command, presented event by event: accepted all the same (R71). -/
def presentedByEvent : State :=
  { presented 2 [] 0 with inputs := { (presented 2 [] 0).inputs with byEvent := true } }

theorem witness_StepRunsDecodedInstruction_byEvent :
    presentedByEvent.inputs.Quiet ∧ presentedByEvent.busy = false ∧ presentedByEvent.inputs.cmdValid = true ∧
      presentedByEvent.inputs.byEvent = true ∧
      gives (step presentedByEvent) (fun t => t.busy && !t.rspValid && t.seq == .check) = true := by
  unfold Inputs.Quiet; decide

/-- P5, line 3: an illegal word after a failed construction is answered ConfigError (R171, R176). -/
theorem witness_StepRunsDecodedInstruction_configError :
    (presented 0 [] 0).inputs.Quiet ∧ (presented 0 [] 0).busy = false ∧ (presented 0 [] 0).inputs.cmdValid = true ∧
      (presented 0 [] 0).inputs.byEvent = false ∧ (presented 0 [] 0).cfgErr = true ∧
      gives (step (presented 0 [] 0)) (fun t => t.last == .configError && t.rspValid && !t.busy) = true := by
  unfold Inputs.Quiet; decide

theorem witness_IllegalWordIsRejected :
    (presented 2 [] 0).inputs.Quiet ∧ (presented 2 [] 0).busy = false ∧ (presented 2 [] 0).inputs.cmdValid = true ∧
      (presented 2 [] 0).inputs.byEvent = false ∧ (presented 2 [] 0).cfgErr = false ∧
      decode (presented 2 [] 0).inputs.cmd = .illegal .reservedOpcode := by
  unfold Inputs.Quiet; decide

/-- A failed construction with RESET held and CHIP_COUNT = 1. -/
def failedThenReset : State :=
  { core 0 [] with inputs := { (core 0 []).inputs with reset := true, chipCount := 1 } }

theorem witness_ConfigErrorUntilValidReset :
    (core 0 []).cfgErr = true ∧ failedThenReset.cfgErr = true ∧
      gives (step failedThenReset) (fun t => !t.cfgErr) = true := by decide

theorem witness_OrderOfTests :
    (core 0 []).cfgErr = true ∧ (core 1 []).cfgErr = false ∧ decode 0 = .illegal .reservedOpcode ∧
      (decode 0x10101000 = .legal (.setr 1 1) ∧ indexOf (.setr 1 1) = some 1 ∧
        ¬(1 : BitVec 8).toNat < (core 1 []).n.toNat) ∧
      ((0 : BitVec 8).toNat < (core 1 []).n.toNat ∧ requestOf (.setr 0 5) = some 5 ∧ contra 5 = true) ∧
      (decode 0x10003000 = .legal (.setr 0 3) ∧ contra 3 = false) := by decide

theorem witness_RejectedCommandChangesNothing :
    gives (execWord 0 ((core 1 []).accept 0)) (fun t => t.last != .ok) = true := by decide

/-- A core one position before the end of its UPDATE. -/
def atOeOn : State :=
  { core 1 [(0, 0x03)] with
    seq := .oeOn .first, busy := true, data := true, sr := [0x03], out := [0x03], cmd := Command.ofWord 0x30000000 }

theorem witness_BusyCoreIgnoresPresentedWord :
    atOeOn.busy = true ∧ atOeOn.inputs.Quiet ∧ ∃ t, step atOeOn = .next t := by
  refine ⟨rfl, ?_, _, rfl⟩
  unfold Inputs.Quiet; decide

theorem witness_IdleCoreMovesNothing :
    State.reset.inputs.Quiet ∧ State.reset.busy = false ∧ State.reset.inputs.cmdValid = false := by
  unfold Inputs.Quiet; decide

/-- A foreign driver on the lines of a fresh block. -/
def shared : State := { core 1 [] with inputs := { (core 1 []).inputs with foreignDriver := true } }

/-- A host-level fault on a waiting core. -/
def struck : State := { waiting with inputs := { waiting.inputs with hostFault := true } }

/-- A host-level fault while a word is presented to an idle core. -/
def struckAtAcceptance : State :=
  { core 1 [] with inputs := { (core 1 []).inputs with hostFault := true, cmdValid := true } }

theorem witness_ForeignDriverAndHostFaultHaveNoStep :
    shared.inputs.foreignDriver = true ∧ struck.inputs.foreignDriver = false ∧ struck.inputs.powerUp = false ∧
      struck.inputs.reset = false ∧ struck.inputs.hostFault = true ∧ struck.busy = true ∧
      struckAtAcceptance.inputs.hostFault = true ∧ struckAtAcceptance.inputs.cmdValid = true := by decide

/-- SETR at both sides of the bound, and both verdicts at the last chip. -/
theorem witness_SetrSetsTheNibbleAndUpdates :
    (core 2 []).cfgErr = false ∧ ¬(2 : BitVec 8).toNat < (core 2 []).n.toNat ∧ (1 : BitVec 8).toNat < (core 2 []).n.toNat ∧
      ((5 : Byte) &&& 0x03 ≠ 0 ∧ (5 : Byte) &&& 0x0C ≠ 0) ∧ ¬((0xF3 : Byte) &&& 0x03 ≠ 0 ∧ (0xF3 : Byte) &&& 0x0C ≠ 0) := by
  decide

theorem witness_SetrtSetsWaitsAndHolds :
    (core 1 []).cfgErr = false ∧ ¬(1 : BitVec 8).toNat < (core 1 []).n.toNat ∧ (0 : BitVec 8).toNat < (core 1 []).n.toNat ∧
      ((0x0F : Byte) &&& 0x03 ≠ 0 ∧ (0x0F : Byte) &&& 0x0C ≠ 0) ∧ ¬((0 : Byte) &&& 0x03 ≠ 0 ∧ (0 : Byte) &&& 0x0C ≠ 0) := by
  decide

theorem witness_InflateSetsTheInflatePair :
    (core 255 []).cfgErr = false ∧ ¬(255 : BitVec 8).toNat < (core 255 []).n.toNat ∧
      (254 : BitVec 8).toNat < (core 255 []).n.toNat := by decide

theorem witness_DeflateSetsTheDeflatePair :
    (core 2 []).cfgErr = false ∧ ¬(2 : BitVec 8).toNat < (core 2 []).n.toNat ∧
      (1 : BitVec 8).toNat < (core 2 []).n.toNat := by decide

theorem witness_HoldClearsOneChip :
    (core 3 []).cfgErr = false ∧ ¬(3 : BitVec 8).toNat < (core 3 []).n.toNat ∧
      (2 : BitVec 8).toNat < (core 3 []).n.toNat := by decide

theorem witness_HoldallClearsEveryChip : (core 1 [(0, 3)]).cfgErr = false ∧ 0 < (core 1 [(0, 3)]).n.toNat := by decide

theorem witness_ReversalIsAccepted :
    (core 1 []).cfgErr = false ∧ (0 : BitVec 8).toNat < (core 1 []).n.toNat := by decide

theorem witness_ReversalIsRejected :
    (core 1 []).cfgErr = false ∧ (0 : BitVec 8).toNat < (core 1 []).n.toNat ∧
      ∃ t u, exec (.inflate 0) (core 1 []) = .next t ∧
        exec (.deflate 0) (t.accept (encode (.deflate 0))) = .next u :=
  ⟨by decide, by decide, _, _, rfl, rfl⟩

/-- The invariant of an idle block of one chip, for whatever is held at it. -/
theorem inv_core (c : BitVec 8) (hc : c = 0 ∨ c = 1) (i : Inputs) : ((State.afterReset c).withInputs i).Inv := by
  rcases hc with rfl | rfl <;>
    exact
      { memWf := rfl, memWithin := rfl, interlocked := fun _ => by simp [State.withInputs, State.afterReset, blankByte]; decide, highClear := fun _ => by simp [State.withInputs, State.afterReset, blankByte]
        cfgErr_iff := by simp [State.withInputs, State.afterReset]
        cfgErr_off := fun _ => rfl, cfgErr_seq := fun _ => .inl rfl
        busy_iff := by simp [State.withInputs, State.afterReset]
        seqLegal := rfl, clock_eq := rfl, latch_eq := rfl, blanked := fun _ => rfl
        waitOn := by simp [State.withInputs, State.afterReset]
        holdZero := fun _ => rfl
        timed := by simp [State.withInputs, State.afterReset, Seq.timed]
        chainLen := rfl
        chain := fun _ => by simp [State.ChainInv, State.withInputs, State.afterReset] }

/-- HOLDALL presented, and nothing else held. -/
def holdallHeld : Inputs := (presented 1 [] 0x60000000).inputs

theorem witness_HoldallAlwaysReachable (c : BitVec 8) (hc : c = 0 ∨ c = 1) :
    ((State.afterReset c).withInputs holdallHeld).Inv ∧ holdallHeld.Quiet ∧
      ((State.afterReset c).withInputs holdallHeld).busy = false ∧ holdallHeld.cmdValid = true ∧
      holdallHeld.byEvent = false ∧ holdallHeld.cmd = 0x60000000 ∧
      ((State.afterReset c).withInputs holdallHeld).cfgErr = (c == 0) := by
  refine ⟨inv_core c hc _, ?_, rfl, rfl, rfl, rfl, rfl⟩
  unfold Inputs.Quiet; decide

theorem witness_TraceLengths :
    gives (exec (.setrt 0 3 5) (core 1 [])) (fun t => t.last == .ok) = true ∧
      gives (exec (.hold 0) (core 1 [])) (fun t => t.last == .ok) = true ∧
      gives (exec (.hold 1) (core 1 [])) (fun t => t.last != .ok) = true := by decide +kernel

theorem witness_RelayIsGatedOutput : 0 < (core 1 []).out.length ∧ 7 < 8 := by decide

theorem witness_ShiftOutSendsTheWireOrder : Memory.bytes 2 [(0, 0xA5), (1, 0x3C)] = [0xA5, 0x3C] := by decide

theorem witness_ClockEdgeShiftsTheChain :
    (core 1 []).clock = false ∧ 0 < (core 1 []).sr.length ∧ Event.emit .clock false ≠ Event.emit .clock true ∧
      ({ core 1 [] with clock := true }).clock = true := by decide

theorem witness_LatchEdgeCommitsTheChain :
    (core 1 []).latch = false ∧ Event.emit .latch false ≠ Event.emit .latch true ∧
      ({ core 1 [] with latch := true }).latch = true := by decide

theorem witness_ShiftOutLoadsTheRealChain :
    ({ core 1 [] with sr := [0x12, 0x34, 0x56] }).clock = false := by decide

theorem witness_OkCommandLeavesChainShowingShadow :
    (core 1 []).chainFits ∧ (core 1 []).linesIdle ∧ 0 < (core 1 []).n.toNat ∧
      gives (exec (.inflate 0) (core 1 [])) (fun t => t.last == .ok) = true :=
  ⟨⟨rfl, rfl⟩, ⟨rfl, rfl⟩, by decide, by decide⟩

theorem witness_UpdateTwiceIsUpdateOnce : (core 2 []).chainFits ∧ (core 2 []).linesIdle := ⟨⟨rfl, rfl⟩, ⟨rfl, rfl⟩⟩

theorem witness_OutputsDisabledThroughoutUpdate :
    updateTrace (core 1 []).n.toNat (core 1 []).shadow =
        (updateTrace 1 []).take 45 ++ (updateTrace 1 []).drop 45 ∧
      (updateTrace 1 []).take 45 ≠ [] ∧ (updateTrace 1 []).drop 45 ≠ [] := by decide

theorem witness_DataStableAtEachClockEdge :
    (core 1 []).clock = false ∧
      updateTrace (core 1 []).n.toNat (core 1 []).shadow =
        (updateTrace 1 []).take 2 ++ .emit .clock true :: (updateTrace 1 []).drop 3 := by decide

theorem witness_LatchPulseAfterLastClock :
    (core 1 []).clock = false ∧
      updateTrace (core 1 []).n.toNat (core 1 []).shadow =
        (updateTrace 1 []).take 41 ++ .emit .latch true :: (updateTrace 1 []).drop 42 := by decide

theorem witness_HowLongCommandsLast :
    gives (exec (.setrt 0 3 0) (core 1 [])) (fun t => t.last == .ok) = true ∧
      gives (exec .holdall (core 1 [])) (fun t => t.last == .ok) = true ∧
      gives (exec (.hold 1) (core 1 [])) (fun t => t.last != .ok) = true ∧
      updateTrace 1 [] = (updateTrace 1 []).take 41 ++ .emit .latch true :: (updateTrace 1 []).drop 42 := by decide +kernel

/-- RESET held over a waiting core, with either CHIP_COUNT. -/
def resetHeld (c : BitVec 8) : State := { waiting with inputs := { waiting.inputs with reset := true, chipCount := c } }

theorem witness_ResetFromAnyState (c : BitVec 8) :
    (resetHeld c).inputs.foreignDriver = false ∧ (resetHeld c).inputs.powerUp = false ∧
      (resetHeld c).inputs.reset = true := ⟨rfl, rfl, rfl⟩

/-- Power returning. -/
def powerReturns : State := { waiting with inputs := { waiting.inputs with powerUp := true } }

theorem witness_PowerOnGivesResetState :
    powerReturns.inputs.foreignDriver = false ∧ powerReturns.inputs.powerUp = true := by decide

theorem witness_OnlyResetChangesChipCount :
    waiting.inputs.reset = false ∧ waiting.inputs.powerUp = false ∧ ∃ t, step waiting = .next t := ⟨rfl, rfl, _, rfl⟩

theorem witness_StepKeepsInterlock :
    (core 1 []).shadow.interlocked ∧ ∃ t, step (presented 1 [] 0x30000000) = .next t := by
  exact ⟨fun k => by simp [core, State.afterReset, blankByte]; decide, _, rfl⟩

theorem witness_StepKeepsHighNibble :
    (presented 1 [(0, 0xA0)] 0x10013000).inputs.reset = false ∧ (presented 1 [(0, 0xA0)] 0x10013000).inputs.powerUp = false ∧
      ∃ t, step (presented 1 [(0, 0xA0)] 0x10013000) = .next t := ⟨rfl, rfl, _, rfl⟩

theorem witness_StepKeepsCanonicalShadow :
    (presented 2 [(1, 0x0C)] 0x30000000).shadow.wf = true ∧
      (presented 2 [(1, 0x0C)] 0x30000000).shadow.within (presented 2 [(1, 0x0C)] 0x30000000).n.toNat = true ∧
      ∃ t, step (presented 2 [(1, 0x0C)] 0x30000000) = .next t := ⟨by decide, by decide, _, rfl⟩

theorem witness_StepKeepsInvariant :
    (State.afterReset 1).Inv ∧ ∃ t, step ((State.afterReset 1).withInputs holdallHeld) = .next t :=
  ⟨inv_core 1 (.inr rfl) (State.afterReset 1).inputs, _, rfl⟩

theorem witness_InvariantStatesAlwaysStep :
    (State.afterReset 1).Inv ∧ (State.afterReset 1).inputs.foreignDriver = false ∧
      (State.afterReset 1).inputs.hostFault = false := ⟨inv_core 1 (.inr rfl) (State.afterReset 1).inputs, rfl, rfl⟩

theorem witness_NoReachableStateDrivesBothGroups :
    ((State.afterReset 1).Inv ∧ (State.afterReset 1).chainFits) ∧ Reachable 1 (State.afterReset 1) :=
  ⟨⟨inv_core 1 (.inr rfl) (State.afterReset 1).inputs, rfl, rfl⟩, .start⟩

/-- A run of one HOLDALL rests with outputs enabled. -/
theorem witness_ConsistentAtRest :
    (∃ s, Reachable 1 s ∧ s.busy = false ∧ s.oeDis = false) ∧
      ((State.afterReset 1).Inv ∧ (State.afterReset 1).chainFits) ∧ (State.afterReset 1).busy = false ∧
        (State.afterReset 1).oeDis = true :=
  ⟨⟨_, .step holdallHeld .start rfl rfl, by decide, by decide⟩,
    ⟨inv_core 1 (.inr rfl) (State.afterReset 1).inputs, rfl, rfl⟩, rfl, rfl⟩

theorem witness_OutputsEnabledOnlyByAnUpdate :
    ((presented 1 [] 0x60000000).oeDis = true ∧ gives (step (presented 1 [] 0x60000000)) (fun t => !t.oeDis) = true) ∧
      atOeOn.oeDis = true ∧ gives (step atOeOn) (fun t => !t.oeDis) = true := by decide

theorem witness_BusyStepIsOnePosition : waiting.inputs.Quiet ∧ waiting.busy = true := by
  unfold Inputs.Quiet; decide

theorem witness_EventRunEqualsOneTransition : 0 < positionsOf 0x20003005 (core 1 []) := by decide

theorem witness_SetrtHoldsTheRequestWhileWaiting :
    (core 2 []).cfgErr = false ∧ (1 : BitVec 8).toNat < (core 2 []).n.toNat ∧ contra 0x0C = false ∧
      (core 2 []).chainFits ∧ (core 2 []).linesIdle := ⟨rfl, by decide, by decide, ⟨rfl, rfl⟩, ⟨rfl, rfl⟩⟩

theorem witness_WaitCountsDownAndEnds : waiting.seq = .wait ∧ 100 ≤ waiting.holdCnt.toNat := by decide

theorem witness_ChecksAndWaitMoveNoLine :
    (waiting.seq = .wait ∧ ∃ t, seqStep waiting = .next t) ∧
      ((core 1 []).accept 0x30000000).seq = .check ∧ ∃ t, seqStep ((core 1 []).accept 0x30000000) = .next t :=
  ⟨⟨rfl, _, rfl⟩, rfl, _, rfl⟩

end Sys2Proof.Tests
end

