-- ==== Sys2Proof/Proofs/Interlock.lean ====
section
/-! The interlock (R24): which bytes a command writes, that none of them holds both bit-groups, and that no other part of a
step writes SHADOW at all. -/

namespace Sys2Proof.Machine

/-! ### What a command does, as its first SHADOW write and the UPDATEs -/

/-- Only SETRT carries a duration (R77). -/
theorem setrt_of_durationOf {i : Instr} {dur : BitVec 12} (hi : durationOf i = some dur) :
    ∃ idx val, i = .setrt idx val dur := by
  cases i with
  | setrt idx val d => cases hi; exact ⟨idx, val, rfl⟩
  | _ => cases hi

/-- Every command without a duration is its SHADOW write and one UPDATE. -/
theorem commandWork_of_untimed {i : Instr} (hi : durationOf i = none) (s : State) :
    commandWork i s = (firstWrite i s).update := by
  cases i with
  | setrt idx val dur => cases hi
  | setr idx val => rfl
  | inflate idx => rfl
  | deflate idx => rfl
  | hold idx => rfl
  | holdall => rfl

/-- SETRT is its SHADOW write, an UPDATE, the wait, the SHADOW write of HOLD and a second UPDATE (R135). -/
theorem commandWork_setrt (idx val : BitVec 8) (dur : BitVec 12) (s : State) :
    commandWork (.setrt idx val dur) s =
      ((((firstWrite (.setrt idx val dur) s).update).waitFor dur).holdShadow idx).update := rfl

/-! ### The verdict on the bytes that are written -/

/-- A mask inside the low nibble sees of a merged byte the request only. -/
theorem merge_and_lowMask (old v : Byte) {mask : Byte} (hhigh : Config.highMask &&& mask = 0)
    (hlow : Config.nibbleMask &&& mask = mask) : merge old v &&& mask = v &&& mask := by
  calc merge old v &&& mask
      = (old &&& (Config.highMask &&& mask)) ||| (v &&& (Config.nibbleMask &&& mask)) := by
        rw [merge, BitVec.and_or_distrib_right, BitVec.and_assoc, BitVec.and_assoc]
    _ = v &&& mask := by simp [hhigh, hlow]

/-- The verdict on a merged byte is the verdict on the request (R150). -/
theorem contra_merge (old v : Byte) : contra (merge old v) = contra v := by
  simp only [contra, merge_and_lowMask old v (mask := Config.inflateMask) (by decide) (by decide),
    merge_and_lowMask old v (mask := Config.deflateMask) (by decide) (by decide)]

/-- A byte whose low nibble is cleared passes. -/
theorem contra_clearLow (old : Byte) : contra (clearLow old) = false := by
  have hempty : clearLow old &&& Config.inflateMask = 0 := by
    rw [clearLow, BitVec.and_assoc, show Config.highMask &&& Config.inflateMask = 0 by decide]
    simp
  simp [contra, hempty]

theorem contra_blankByte : contra blankByte = false := by decide

/-! ### Which operations on SHADOW keep the interlock -/

theorem Memory.interlocked_nil : Memory.interlocked [] := fun _ => contra_blankByte

theorem Memory.interlocked_write {m : Memory} {v : Byte} (k : Nat) (hm : m.interlocked) (hv : contra v = false) :
    (m.write k v).interlocked := by
  intro a
  rw [Memory.read_write]
  split
  · exact hv
  · exact hm a

theorem Memory.interlocked_clearLowUpTo {m : Memory} (n : Nat) (hm : m.interlocked) :
    (m.clearLowUpTo n).interlocked := by
  intro a
  rw [Memory.read_clearLowUpTo]
  split
  · exact contra_clearLow _
  · exact hm a

theorem State.interlocked_mergeShadow {s : State} {v : Byte} (idx : BitVec 8) (hs : s.shadow.interlocked)
    (hv : contra v = false) : (s.mergeShadow idx v).shadow.interlocked :=
  Memory.interlocked_write _ hs ((contra_merge _ v).trans hv)

theorem State.interlocked_holdShadow {s : State} (idx : BitVec 8) (hs : s.shadow.interlocked) :
    (s.holdShadow idx).shadow.interlocked :=
  Memory.interlocked_write _ hs (contra_clearLow _)

/-! ### Commands and positions of SEQ -/

/-- A request that passed the tests of `setRelays` asks for one bit-group at most (R131, R173). -/
theorem State.contra_of_setTests {s : State} {idx : BitVec 8} {v : Byte} (h : s.setTests idx v = none) :
    contra v = false := by
  rw [State.setTests_eq] at h
  split at h
  · split at h
    · cases h
    · next hv => simpa using hv
  · cases h

/-- The first SHADOW write of a command whose tests passed keeps the interlock. -/
theorem interlocked_firstWrite {i : Instr} {s : State} (hs : s.shadow.interlocked) (ht : commandTests i s = none) :
    (firstWrite i s).shadow.interlocked := by
  cases i with
  | setr idx val => exact State.interlocked_mergeShadow idx hs (State.contra_of_setTests ht)
  | setrt idx val dur => exact State.interlocked_mergeShadow idx hs (State.contra_of_setTests ht)
  | inflate idx => exact State.interlocked_mergeShadow idx hs (State.contra_of_setTests ht)
  | deflate idx => exact State.interlocked_mergeShadow idx hs (State.contra_of_setTests ht)
  | hold idx => exact State.interlocked_holdShadow idx hs
  | holdall => exact Memory.interlocked_clearLowUpTo _ hs

/-- The whole work of a command whose tests passed keeps the interlock. -/
theorem interlocked_commandWork {i : Instr} {s : State} (hs : s.shadow.interlocked) (ht : commandTests i s = none) :
    (commandWork i s).shadow.interlocked := by
  have hfirst := interlocked_firstWrite hs ht
  cases hd : durationOf i with
  | none => rwa [commandWork_of_untimed hd, State.update_shadow]
  | some dur =>
    obtain ⟨idx, val, rfl⟩ := setrt_of_durationOf hd
    rw [commandWork_setrt, State.update_shadow]
    exact State.interlocked_holdShadow idx (by simpa using hfirst)

theorem execWord_keeps_interlocked {w : CmdWord} {s t : State} (hs : s.shadow.interlocked)
    (h : execWord w s = .next t) : t.shadow.interlocked := by
  rcases execWord_cases w s with ⟨e, hrej⟩ | ⟨-, i, -, ht, hwork⟩
  · cases hrej.symm.trans h
    exact hs
  · cases hwork.symm.trans h
    exact interlocked_commandWork hs ht

/-- Within a bit cell or the latch pulse SHADOW is only read. -/
@[simp] theorem seqShift_shadow (u : UpdateNo) (k b : Nat) (s : State) (p : CellPhase) :
    (seqShift u k b s p).shadow = s.shadow := by
  cases p <;> simp [seqShift]

@[simp] theorem seqLatch_shadow (u : UpdateNo) (s : State) (p : LatchPhase) :
    (seqLatch u s p).shadow = s.shadow := by
  cases p <;> simp [seqLatch]

@[simp] theorem seqOeOn_shadow (u : UpdateNo) (s : State) : (seqOeOn u s).shadow = s.shadow := by
  rcases seqOeOn_cases u s with ⟨-, _, _, _, -, h⟩ | ⟨h, -⟩ <;> simp [h]

theorem seqCheck_keeps_interlocked {s : State} (hs : s.shadow.interlocked) : (seqCheck s).shadow.interlocked := by
  rcases seqCheck_cases s with ⟨e, h, -⟩ | ⟨-, i, -, ht, h⟩ <;> rw [h]
  · exact hs
  · exact interlocked_firstWrite hs ht

theorem seqWait_keeps_interlocked {s : State} (hs : s.shadow.interlocked) : (seqWait s).shadow.interlocked := by
  unfold seqWait
  split
  · exact State.interlocked_holdShadow _ (by simpa using hs)
  · exact hs

theorem seqStep_keeps_interlocked {s t : State} (hs : s.shadow.interlocked) (h : seqStep s = .next t) :
    t.shadow.interlocked := by
  rcases seqStep_cases s with ⟨-, hq⟩ | ⟨-, hq⟩ | ⟨u, -, hq⟩ | ⟨u, k, b, p, -, -, hq⟩ | ⟨u, k, b, p, -, -, hq⟩ |
    ⟨u, p, -, hq⟩ | ⟨u, -, hq⟩ | ⟨-, hq⟩ <;> cases hq.symm.trans h
  · exact seqCheck_keeps_interlocked hs
  · simpa using hs
  · simpa using hs
  · simpa using hs
  · simpa using hs
  · exact seqWait_keeps_interlocked hs

/-- What a step that answers a next state does to SHADOW keeps the interlock, whichever of its cases applies. -/
theorem StepCase.keeps_interlocked {s t : State} {o : Host.Outcome State Fault Refusal} (hc : StepCase s o)
    (ho : o = .next t) (hs : s.shadow.interlocked) : t.shadow.interlocked := by
  cases hc with
  | foreignDriver _ => cases ho
  | hostFault _ => cases ho
  | powerUp _ => cases ho; exact Memory.interlocked_nil
  | reset _ => cases ho; exact Memory.interlocked_nil
  | busy _ => exact seqStep_keeps_interlocked hs ho
  | acceptEvent _ _ => cases ho; exact hs
  | acceptWhole _ _ => exact execWord_keeps_interlocked (s := s.accept _) hs ho
  | idle _ _ => cases ho; exact hs

/-- Settles O47: every byte a step writes to SHADOW is 0x00, a byte with its low nibble cleared, or a merge with a request
that has passed the interlock test. -/
theorem stepKeepsInterlock : Obligations.StepKeepsInterlock := by
  unfold Obligations.StepKeepsInterlock
  exact ⟨fun _ => Memory.interlocked_nil, fun s _ hs h => (step_cases s).keeps_interlocked h hs⟩

end Sys2Proof.Machine
end

