-- ==== Sys2Proof/Proofs/EventRun.lean ====
section
/-! The two granularities of D22: the micro-sequencer of R33, position by position, comes to the state the one transition of
a command gives.  Each operation of the one transition is matched by a run of the positions that emit its events, and the
runs are put together with `Advances.trans`. -/

namespace Sys2Proof.Machine

/-! ### Runs of positions -/

theorem seqRun_one {s t : State} (h : seqStep s = .next t) : seqRun 1 s = .next t := by simp [seqRun, h]

/-- A run goes on from where a shorter one came to. -/
theorem seqRun_add {a : Nat} {s t : State} (b : Nat) (h : seqRun a s = .next t) : seqRun (a + b) s = seqRun b t := by
  induction a generalizing s with
  | zero => cases h; rw [Nat.zero_add]
  | succ a ih =>
    rw [Nat.add_right_comm]
    cases hq : seqStep s with
    | next u =>
      simp only [seqRun, hq] at h ⊢
      exact ih h
    | fault f => simp [seqRun, hq] at h
    | refused r => simp [seqRun, hq] at h

/-- `k` positions lead from `s` to `t`, and BUSY is 1 before each of them. -/
structure Advances (k : Nat) (s t : State) : Prop where
  /-- the run comes to `t` -/
  run : seqRun k s = .next t
  /-- the command is in execution until then (R29) -/
  busy : ∀ j, j < k → ∃ u, seqRun j s = .next u ∧ u.busy = true

theorem Advances.refl (s : State) : Advances 0 s s := ⟨rfl, fun _ hj => absurd hj (Nat.not_lt_zero _)⟩

theorem Advances.one {s t : State} (hb : s.busy = true) (h : seqStep s = .next t) : Advances 1 s t := by
  refine ⟨seqRun_one h, fun j hj => ⟨s, ?_, hb⟩⟩
  obtain rfl : j = 0 := by omega
  rfl

theorem Advances.trans {a b : Nat} {s t u : State} (hst : Advances a s t) (htu : Advances b t u) :
    Advances (a + b) s u := by
  refine ⟨(seqRun_add b hst.run).trans htu.run, fun j hj => ?_⟩
  by_cases hja : j < a
  · exact hst.busy j hja
  · obtain ⟨d, rfl⟩ := Nat.exists_eq_add_of_le (Nat.le_of_not_lt hja)
    rw [seqRun_add d hst.run]
    exact htu.busy d (by omega)

/-! ### One UPDATE (R102 to R106): from OE_OFF to OE_ON -/

/-- SEQ is no part of what an event reads or moves. -/
theorem State.emit_goto (s : State) (q : Seq) (e : Event) : (s.goto q).emit e = (s.emit e).goto q := by
  rcases e with ⟨_ | _ | _ | _, v⟩ | t <;> rfl

@[simp] theorem State.goto_goto (s : State) (q q' : Seq) : (s.goto q).goto q' = s.goto q' := rfl

@[simp] theorem State.shadowByte_emitAll (s : State) (es : List Event) (k : Nat) :
    (s.emitAll es).shadowByte k = s.shadowByte k := by
  simp [State.shadowByte]

/-- A position that emits one event and moves SEQ. -/
theorem advances_event {s : State} {q q' : Seq} {e : Event} (hb : s.busy = true)
    (h : seqStep (s.goto q) = .next (((s.goto q).emit e).goto q')) :
    Advances 1 (s.goto q) ((s.emit e).goto q') :=
  .one hb (by rw [h, State.emit_goto, State.goto_goto])

/-- A position inside a bit cell of an existing chip. -/
theorem seqStep_shift {s : State} {u : UpdateNo} {k b : Nat} {p : CellPhase} (hk : k < s.n.toNat) :
    seqStep (s.goto (.shift u k b p)) = .next (seqShift u k b (s.goto (.shift u k b p)) p) :=
  if_pos hk

/-- The five positions of a bit cell emit the cell. -/
theorem advances_bitCell {s : State} (u : UpdateNo) {k : Nat} (b : Nat) (hb : s.busy = true) (hk : k < s.n.toNat) :
    Advances 5 (s.goto (.shift u k b .setData))
      ((s.emitAll (bitCell ((s.shadowByte k).getLsbD b))).goto (seqAfterBit u k b)) := by
  have setData := advances_event hb (seqStep_shift (u := u) (b := b) (p := .setData) hk)
  have clkHigh := setData.trans (advances_event (by simpa using hb) (seqStep_shift (by simpa using hk)))
  have waitHigh := clkHigh.trans (advances_event (by simpa using hb) (seqStep_shift (by simpa using hk)))
  have clkLow := waitHigh.trans (advances_event (by simpa using hb) (seqStep_shift (by simpa using hk)))
  exact clkLow.trans (advances_event (by simpa using hb) (seqStep_shift (by simpa using hk)))

/-- The positions of the bits below `b` of byte `k` send them, highest first (R57). -/
theorem advances_shiftBits {s : State} (u : UpdateNo) {k : Nat} (b : Nat) (hb : s.busy = true) (hk : k < s.n.toNat) :
    Advances (5 * b) (s.goto (seqAfterBit u k b))
      ((s.emitAll (shiftBits b (s.shadowByte k))).goto (seqByte u k)) := by
  induction b generalizing s with
  | zero => exact .refl _
  | succ b ih =>
    have rest := ih (s := s.emitAll (bitCell ((s.shadowByte k).getLsbD b))) (by simpa using hb) (by simpa using hk)
    rw [State.shadowByte_emitAll, ← State.emitAll_append] at rest
    rw [Nat.mul_succ, Nat.add_comm]
    exact (advances_bitCell u b hb hk).trans rest

/-- The positions of the bytes below `k` send them, last chip first (R56). -/
theorem advances_shiftOut {s : State} (u : UpdateNo) (k : Nat) (hb : s.busy = true) (hk : k ≤ s.n.toNat) :
    Advances (40 * k) (s.goto (seqByte u k)) ((s.emitAll (shiftOut k s.shadow)).goto (.latch u .high)) := by
  induction k generalizing s with
  | zero => exact .refl _
  | succ k ih =>
    have rest := ih (s := s.emitAll (shiftBits 8 (s.shadowByte k))) (by simpa using hb)
      (by rw [State.emitAll_n]; omega)
    rw [State.emitAll_shadow, ← State.emitAll_append] at rest
    rw [Nat.mul_succ, Nat.add_comm]
    exact (advances_shiftBits u 8 hb hk).trans rest

/-- The four positions of the latch pulse (R103). -/
theorem advances_latchOp {s : State} (u : UpdateNo) (hb : s.busy = true) :
    Advances 4 (s.goto (.latch u .high)) ((s.emitAll latchOp).goto (.oeOn u)) := by
  have high := advances_event (q := .latch u .high) hb rfl
  have waitHigh := high.trans (advances_event (by simpa using hb) rfl)
  have low := waitHigh.trans (advances_event (by simpa using hb) rfl)
  exact low.trans (advances_event (by simpa using hb) rfl)

/-- The events of an UPDATE before its last (R105). -/
def updateHead (n : Nat) (m : Memory) : List Event := .emit .oe true :: (shiftOut n m ++ latchOp)

/-- The last event of an UPDATE enables the outputs (R105). -/
theorem updateTrace_eq_updateHead (n : Nat) (m : Memory) : updateTrace n m = updateHead n m ++ [.emit .oe false] := rfl

theorem State.update_eq_updateHead (s : State) :
    s.update = (s.emitAll (updateHead s.n.toNat s.shadow)).emit (.emit .oe false) := by
  rw [State.update, updateTrace_eq_updateHead, State.emitAll_append]
  rfl

/-- The positions of an UPDATE before OE_ON emit all its events but the last. -/
theorem advances_updateHead {s : State} (u : UpdateNo) (hb : s.busy = true) :
    Advances (40 * s.n.toNat + 5) (s.goto (.oeOff u))
      ((s.emitAll (updateHead s.n.toNat s.shadow)).goto (.oeOn u)) := by
  have oeOff := advances_event (q := .oeOff u) hb rfl
  have shifted := oeOff.trans (advances_shiftOut u s.n.toNat (by simpa using hb) le_rfl)
  have latched := shifted.trans (advances_latchOp u (by simpa using hb))
  rw [← State.emitAll_append, State.emit_shadow] at latched
  rwa [Nat.add_right_comm, Nat.add_comm (1 + 4)] at latched

/-- An UPDATE that ends its command: the position OE_ON responds (R72). -/
theorem advances_updateRespond {s : State} {u : UpdateNo} (hb : s.busy = true)
    (hlast : u = .second ∨ ∀ idx val dur, decode s.cmd.word ≠ .legal (.setrt idx val dur)) :
    Advances (40 * s.n.toNat + 6) (s.goto (.oeOff u)) (s.update.respond .ok) := by
  refine (advances_updateHead u hb).trans (b := 1) (.one (by simpa using hb) ?_)
  rcases seqOeOn_cases u ((s.emitAll (updateHead s.n.toNat s.shadow)).goto (.oeOn u)) with
    ⟨hu, idx, val, dur, hd, -⟩ | ⟨hresp, -⟩
  · rw [State.goto_cmd, State.emitAll_cmd] at hd
    rcases hlast with rfl | hne
    · cases hu
    · exact absurd hd (hne idx val dur)
  · rw [State.emit_goto, ← State.update_eq_updateHead] at hresp
    exact congrArg Host.Outcome.next hresp

/-- The first UPDATE of a SETRT: the position OE_ON loads the hold timer (R31, R135). -/
theorem advances_updateWait {s : State} {idx val : BitVec 8} {dur : BitVec 12} (hb : s.busy = true)
    (hd : decode s.cmd.word = .legal (.setrt idx val dur)) :
    Advances (40 * s.n.toNat + 6) (s.goto (.oeOff .first)) ({ s.update with holdCnt := dur }.goto .wait) := by
  refine (advances_updateHead .first hb).trans (b := 1) (.one (by simpa using hb) ?_)
  rcases seqOeOn_cases .first ((s.emitAll (updateHead s.n.toNat s.shadow)).goto (.oeOn .first)) with
    ⟨-, idx', val', dur', hd', hwait⟩ | ⟨-, hcontra⟩
  · rw [State.goto_cmd, State.emitAll_cmd, hd] at hd'
    cases hd'
    rw [State.emit_goto, ← State.update_eq_updateHead] at hwait
    exact congrArg Host.Outcome.next hwait
  · rw [State.goto_cmd, State.emitAll_cmd] at hcontra
    exact absurd hd (hcontra.resolve_left (by decide) idx val dur)

/-! ### The wait (R136) -/

/-- A period of the wait. -/
theorem seqStep_wait_period {s : State} (hq : s.seq = .wait) (h : s.holdCnt ≠ 0) :
    seqStep s = .next { s with holdCnt := s.holdCnt - 1 } := by
  simp only [seqStep, hq, seqWait, if_neg h]

/-- The position that ends the wait: its one event, and the SHADOW write of HOLD. -/
theorem seqStep_wait_end {s : State} (hq : s.seq = .wait) (h : s.holdCnt = 0) :
    seqStep s = .next (((s.waitFor s.cmd.dur).holdShadow s.cmd.idx).goto (.oeOff .second)) := by
  have hzero : { s with holdCnt := 0 } = s := by rw [← h]
  rw [State.waitFor, hzero]
  simp only [seqStep, hq, seqWait, if_pos h]

/-- While HOLD_CNT counts down, nothing else moves. -/
theorem seqRun_wait_countdown {s : State} (hq : s.seq = .wait) (j : Nat) (hj : j ≤ s.holdCnt.toNat) :
    seqRun j s = .next { s with holdCnt := s.holdCnt - BitVec.ofNat 12 j } := by
  induction j with
  | zero => simp [seqRun]
  | succ j ih =>
    have hne : s.holdCnt - BitVec.ofNat 12 j ≠ 0 := by bv_omega
    have hcount : s.holdCnt - BitVec.ofNat 12 (j + 1) = s.holdCnt - BitVec.ofNat 12 j - 1 := by bv_omega
    rw [seqRun_add 1 (ih (by omega)), hcount]
    exact seqRun_one (seqStep_wait_period hq hne)

/-- The wait as a whole, from the loaded hold timer: its periods, then the position that ends it. -/
theorem advances_waitHold {s : State} (dur : BitVec 12) (hb : s.busy = true) :
    Advances (dur.toNat + 1) ({ s with holdCnt := dur }.goto .wait)
      (((s.waitFor s.cmd.dur).holdShadow s.cmd.idx).goto (.oeOff .second)) := by
  refine ⟨?_, fun j hj => ⟨_, seqRun_wait_countdown rfl j (Nat.le_of_lt_succ hj), hb⟩⟩
  rw [seqRun_add 1 (seqRun_wait_countdown rfl dur.toNat le_rfl)]
  exact seqRun_one (seqStep_wait_end rfl (by simp))

/-! ### The latched command (R32, R74) -/

/-- The latched fields hold the whole word. -/
@[simp] theorem Command.word_ofWord (w : CmdWord) : (Command.ofWord w).word = w := by
  have opcIdx : w.extractLsb' 28 4 ++ w.extractLsb' 20 8 = w.extractLsb' 20 12 :=
    BitVec.extractLsb'_append_extractLsb'_eq_extractLsb' rfl
  have opcVal : w.extractLsb' 20 12 ++ w.extractLsb' 12 8 = w.extractLsb' 12 20 :=
    BitVec.extractLsb'_append_extractLsb'_eq_extractLsb' rfl
  have opcDur : w.extractLsb' 12 20 ++ w.extractLsb' 0 12 = w.extractLsb' 0 32 :=
    BitVec.extractLsb'_append_extractLsb'_eq_extractLsb' rfl
  rw [Command.ofWord, Command.word, opcIdx, opcVal, opcDur, BitVec.extractLsb'_eq_self]

/-- A timed command's operands are the latched fields. -/
theorem Command.fields_of_decode_setrt {w : CmdWord} {idx val : BitVec 8} {dur : BitVec 12}
    (h : decode w = .legal (.setrt idx val dur)) :
    (Command.ofWord w).idx = idx ∧ (Command.ofWord w).dur = dur := by
  simp only [decode, legalIf] at h
  split_ifs at h <;> cases h
  exact ⟨rfl, rfl⟩

/-! ### A whole command -/

/-- CHECK and the one transition answer an accepted word alike: both reject it, in the one position `positionsOf` counts, or
both let its command do its work. -/
theorem acceptedWord_cases (w : CmdWord) (s : State) :
    (execWord w (s.accept w) = .next (seqCheck (s.accept w)) ∧ positionsOf w s = 1) ∨
      (s.cfgErr = false ∧ ∃ i, decode w = .legal i ∧ commandTests i s = none ∧
        seqCheck (s.accept w) = (firstWrite i (s.accept w)).goto (.oeOff .first) ∧
          execWord w (s.accept w) = .next ((commandWork i (s.accept w)).respond .ok)) := by
  have htests : ∀ i, commandTests i (s.accept w) = commandTests i s := fun i => commandTests_congr i rfl
  cases hc : s.cfgErr with
  | true =>
    left
    cases hd : decode w <;> simp [execWord, exec_eq, State.executeIllegal, State.execute, seqCheck, positionsOf, hc, hd]
  | false =>
    cases hd : decode w with
    | illegal why =>
      left
      simp [execWord, State.executeIllegal, State.execute, seqCheck, positionsOf, hc, hd]
    | legal i =>
      cases ht : commandTests i s with
      | some e =>
        left
        simp [execWord, exec_eq, State.execute, seqCheck, positionsOf, hc, hd, ht, htests]
      | none =>
        right
        refine ⟨rfl, i, rfl, ht, ?_, ?_⟩
        · simp [seqCheck, hc, hd, ht, htests]
        · simp [execWord, exec_eq, State.execute, hc, hd, ht, htests]

section
variable {w : CmdWord} {s : State} {i : Instr} (hc : s.cfgErr = false) (hd : decode w = .legal i)
  (ht : commandTests i s = none)
include hc hd ht

theorem positionsOf_untimed (hi : durationOf i = none) : positionsOf w s = 1 + (40 * s.n.toNat + 6) := by
  simp [positionsOf, hc, hd, ht, hi]

theorem positionsOf_timed {dur : BitVec 12} (hi : durationOf i = some dur) :
    positionsOf w s = 1 + (40 * s.n.toNat + 6) + (dur.toNat + 1) + (40 * s.n.toNat + 6) := by
  simp [positionsOf, hc, hd, ht, hi]

end

/-- No SHADOW write moves BUSY, N or the latched command. -/
@[simp] theorem firstWrite_busy (i : Instr) (s : State) : (firstWrite i s).busy = s.busy := by cases i <;> rfl
@[simp] theorem firstWrite_n (i : Instr) (s : State) : (firstWrite i s).n = s.n := by cases i <;> rfl
@[simp] theorem firstWrite_cmd (i : Instr) (s : State) : (firstWrite i s).cmd = s.cmd := by cases i <;> rfl

/-- The first position of an accepted word. -/
theorem advances_check (w : CmdWord) (s : State) : Advances 1 (s.accept w) (seqCheck (s.accept w)) := .one rfl rfl

/-- A command with one UPDATE, from its SHADOW write to its response. -/
theorem advances_untimedWork {s : State} {i : Instr} (hb : s.busy = true) (hd : decode s.cmd.word = .legal i)
    (hi : durationOf i = none) :
    Advances (40 * s.n.toNat + 6) ((firstWrite i s).goto (.oeOff .first)) ((commandWork i s).respond .ok) := by
  have hne : ∀ idx val dur, decode (firstWrite i s).cmd.word ≠ .legal (.setrt idx val dur) := by
    intro idx val dur h
    rw [firstWrite_cmd, hd] at h
    cases h
    cases hi
  rw [commandWork_of_untimed hi, ← firstWrite_n i s]
  exact advances_updateRespond (by simpa using hb) (.inr hne)

/-- A SETRT, from its SHADOW write over its wait to its response. -/
theorem advances_timedWork {s : State} {idx val : BitVec 8} {dur : BitVec 12} (hb : s.busy = true)
    (hd : decode s.cmd.word = .legal (.setrt idx val dur)) (hidx : s.cmd.idx = idx) (hdur : s.cmd.dur = dur) :
    Advances (40 * s.n.toNat + 6 + (dur.toNat + 1) + (40 * s.n.toNat + 6))
      ((firstWrite (.setrt idx val dur) s).goto (.oeOff .first))
      ((commandWork (.setrt idx val dur) s).respond .ok) := by
  subst hidx hdur
  have first := advances_updateWait (s := firstWrite (.setrt s.cmd.idx val s.cmd.dur) s) (by simpa using hb)
    (by simpa using hd)
  have wait := first.trans (advances_waitHold _ (by simpa using hb))
  have second := wait.trans (advances_updateRespond (by simpa using hb) (.inl rfl))
  rw [commandWork_setrt]
  simpa using second

/-- From acceptance, the positions `positionsOf` counts come to the state the one transition answers. -/
theorem advances_accept (w : CmdWord) (s : State) :
    ∃ t, execWord w (s.accept w) = .next t ∧ Advances (positionsOf w s) (s.accept w) t := by
  have check := advances_check w s
  rcases acceptedWord_cases w s with ⟨hrej, hpos⟩ | ⟨hc, i, hd, ht, hcheck, hwork⟩
  · exact ⟨_, hrej, hpos ▸ check⟩
  · refine ⟨_, hwork, ?_⟩
    rw [hcheck] at check
    have hlatched : decode (s.accept w).cmd.word = .legal i := by simpa using hd
    cases hi : durationOf i with
    | none =>
      rw [positionsOf_untimed hc hd ht hi]
      exact check.trans (advances_untimedWork rfl hlatched hi)
    | some dur =>
      obtain ⟨idx, val, rfl⟩ := setrt_of_durationOf hi
      obtain ⟨hidx, hdur⟩ := Command.fields_of_decode_setrt hd
      rw [positionsOf_timed hc hd ht hi, Nat.add_assoc, Nat.add_assoc, ← Nat.add_assoc (40 * s.n.toNat + 6)]
      exact check.trans (advances_timedWork rfl hlatched hidx hdur)

/-- Settles O57: CHECK is matched with the frame, each UPDATE and the wait with the positions that emit their events. -/
theorem eventRunEqualsOneTransition : Obligations.EventRunEqualsOneTransition := by
  unfold Obligations.EventRunEqualsOneTransition
  intro w s
  obtain ⟨t, hexec, hrun⟩ := advances_accept w s
  exact ⟨hrun.run.trans hexec.symm, hrun.busy⟩

end Sys2Proof.Machine
end

