-- ==== Sys2Proof/Proofs/StatusPorts.lean ====
section
/-! The ports that are functions of the state: the STATUS word (R34), the relays (R39), the level of OE (R28) and CMD_READY
(R71). -/

namespace Sys2Proof.Machine

/-! ### The STATUS word -/

/-- Concatenated words, as numbers. -/
theorem toNat_append_eq_add {m w : Nat} (x : BitVec m) (y : BitVec w) : (x ++ y).toNat = x.toNat * 2 ^ w + y.toNat := by
  rw [BitVec.toNat_append, ← Nat.shiftLeft_add_eq_or_of_lt y.isLt, Nat.shiftLeft_eq]

/-- The STATUS word as a number: its fields at their places (R34). -/
theorem State.toNat_statusWord (s : State) :
    s.statusWord.toNat =
      2048 * s.last.code.toNat + 1024 * s.oeDis.toNat + 512 * s.busy.toNat + 256 * s.cfgErr.toNat + s.n.toNat := by
  simp only [State.statusWord, toNat_append_eq_add, BitVec.toNat_ofBool, BitVec.toNat_ofNat]
  omega

/-- A bit of a word, from the word's number. -/
theorem getLsbD_eq_of_toNat {w : Nat} {x : BitVec w} {i : Nat} {b : Bool} (h : x.toNat / 2 ^ i % 2 = b.toNat) :
    x.getLsbD i = b := by
  rw [BitVec.getLsbD, Nat.testBit_eq_decide_div_mod_eq, h]
  cases b <;> rfl

theorem Status.code_le (e : Status) : e.code.toNat ≤ 4 := by cases e <;> decide

/-- Each field of the STATUS word stands at its place, and the reserved bits read as 0 (R34). -/
theorem State.statusWord_fields (s : State) :
    s.statusWord.toNat % 256 = s.n.toNat ∧ s.statusWord.getLsbD 8 = s.cfgErr ∧ s.statusWord.getLsbD 9 = s.busy ∧
      s.statusWord.getLsbD 10 = s.oeDis ∧ s.statusWord.toNat / 2 ^ 11 % 8 = s.last.code.toNat ∧
        s.statusWord.getLsbD 14 = false ∧ s.statusWord.getLsbD 15 = false := by
  have hn := s.n.isLt
  have hlast := s.last.code_le
  have hoe := Bool.toNat_le s.oeDis
  have hbusy := Bool.toNat_le s.busy
  have hcfg := Bool.toNat_le s.cfgErr
  have h := s.toNat_statusWord
  refine ⟨?_, getLsbD_eq_of_toNat ?_, getLsbD_eq_of_toNat ?_, getLsbD_eq_of_toNat ?_, ?_, getLsbD_eq_of_toNat ?_,
    getLsbD_eq_of_toNat ?_⟩
  case refine_6 | refine_7 => rw [Bool.toNat_false]; omega
  all_goals omega

/-- After reset the STATUS word shows CHIP_COUNT and OE_DIS, and CFG_ERR with ConfigError when CHIP_COUNT is 0 (R34, R42). -/
theorem State.toNat_statusWord_afterReset (c : BitVec 8) :
    (State.afterReset c).statusWord.toNat = if c = 0 then 0x0D00 else 0x0400 + c.toNat := by
  rw [State.toNat_statusWord]
  split
  · next hc => subst hc; decide
  · next hc =>
    have hlast : (State.afterReset c).last = .ok := if_neg hc
    have hcfg : (State.afterReset c).cfgErr = false := beq_false_of_ne hc
    rw [hlast, hcfg]
    rfl

/-- Settles O30, on the number whose digits the STATUS word's fields are. -/
theorem statusWordFields : Obligations.StatusWordFields := by
  unfold Obligations.StatusWordFields
  exact ⟨State.statusWord_fields, State.toNat_statusWord_afterReset, rfl, rfl, rfl, rfl, rfl, Status.code_le⟩

/-! ### Relays, OE and CMD_READY -/

theorem State.relay_iff (s : State) {k : Nat} (j : Nat) (hk : k < s.out.length) :
    s.relay k j = true ↔ s.oeDis = false ∧ ∃ b, s.out[k]? = some b ∧ b.getLsbD j = true := by
  simp [State.relay, List.getElem?_eq_getElem hk, List.getD_eq_getElem?_getD]

theorem State.oeLevel_eq_disable_iff (s : State) : s.oeLevel = Config.oeDisableLevel ↔ s.oeDis = true := by
  cases h : s.oeDis <;> simp [State.oeLevel, h]

theorem State.cmdReady_iff (s : State) : s.cmdReady = true ↔ s.busy = false := by
  simp [State.cmdReady]

/-- Settles O31, one equivalence per port. -/
theorem relayIsGatedOutput : Obligations.RelayIsGatedOutput := by
  unfold Obligations.RelayIsGatedOutput
  exact ⟨fun s _ j hk _ => s.relay_iff j hk, State.oeLevel_eq_disable_iff, State.cmdReady_iff⟩

end Sys2Proof.Machine
end

