-- ==== Sys2Proof/Proofs/WireOrder.lean ====
section
/-! The order of the bits on the wire (R56, R57): what SHIFTOUT sends on DATA, read back from its events, against the formula
for the s-th bit. -/

namespace Sys2Proof.Machine

/-! ### The formula for the s-th bit, chip by chip -/

/-- The first eight bits are the last chip's. -/
theorem wireBit_of_lt_eight {s : Nat} (n : Nat) (m : Memory) (hs : s < 8) :
    wireBit (n + 1) m s = (m.read n).getLsbD (7 - s) := by
  simp [wireBit, Nat.div_eq_of_lt hs, Nat.mod_eq_of_lt hs]

/-- After them comes the wire of the chain without its last chip. -/
theorem wireBit_eight_add (n : Nat) (m : Memory) (s : Nat) : wireBit (n + 1) m (8 + s) = wireBit n m s := by
  have hchip : n + 1 - 1 - (8 + s) / 8 = n - 1 - s / 8 := by omega
  rw [wireBit, wireBit, hchip, Nat.add_mod_left]

@[simp] theorem wireBits_zero (m : Memory) : wireBits 0 m = [] := rfl

theorem wireBits_succ (n : Nat) (m : Memory) : wireBits (n + 1) m = msbFirst (m.read n) ++ wireBits n m := by
  have hrange : List.range (8 * (n + 1)) = List.range 8 ++ (List.range (8 * n)).map (8 + ·) := by
    rw [Nat.mul_succ, Nat.add_comm, List.range_add]
  have hlast : (List.range 8).map (wireBit (n + 1) m) = msbFirst (m.read n) :=
    List.map_congr_left fun _ hs => wireBit_of_lt_eight n m (List.mem_range.mp hs)
  have hrest : wireBit (n + 1) m ∘ (8 + ·) = wireBit n m := funext (wireBit_eight_add n m)
  rw [wireBits, hrange, List.map_append, List.map_map, hlast, hrest, wireBits]

/-- A chain of two chips, by the bytes it shows. -/
theorem wireBits_two {m : Memory} {A B : Byte} (h : m.bytes 2 = [A, B]) : wireBits 2 m = msbFirst B ++ msbFirst A := by
  have hread : m.read 0 = A ∧ m.read 1 = B := by simpa [Memory.bytes, List.range_succ] using h
  obtain ⟨rfl, rfl⟩ := hread
  simp [wireBits_succ]

/-! ### The DATA levels of SHIFTOUT's events -/

@[simp] theorem dataLevels_bitCell (v : Bool) : (bitCell v).filterMap Event.dataLevel = [v] := rfl

/-- A byte's loop counts its bits down. -/
theorem dataLevels_shiftBits (c : Nat) (v : Byte) :
    (shiftBits c v).filterMap Event.dataLevel = (List.range c).map fun j => v.getLsbD (c - 1 - j) := by
  induction c with
  | zero => rfl
  | succ b ih =>
    have hnext (j : Nat) : b - 1 - j = b - (j + 1) := by omega
    simp [shiftBits, ih, List.range_succ_eq_map, hnext]

theorem dataLevels_shiftOut (n : Nat) (m : Memory) : (shiftOut n m).filterMap Event.dataLevel = wireBits n m := by
  induction n with
  | zero => rfl
  | succ k ih =>
    have hbyte : (shiftBits 8 (m.read k)).filterMap Event.dataLevel = msbFirst (m.read k) := dataLevels_shiftBits 8 _
    rw [shiftOut, List.filterMap_append, hbyte, ih, wireBits_succ]

/-- Settles O32, by induction on the chips: each turn of the loop sends the last chip's byte, and what is left on the wire is
the shorter chain's. -/
theorem shiftOutSendsTheWireOrder : Obligations.ShiftOutSendsTheWireOrder := by
  unfold Obligations.ShiftOutSendsTheWireOrder
  exact ⟨dataLevels_shiftOut, fun m _ _ h => (dataLevels_shiftOut 2 m).trans (wireBits_two h)⟩

end Sys2Proof.Machine
end

