-- ==== Sys2Proof/Proofs/CommandWord.lean ====
section
/-! The command word (R74 to R86): a word is its four fields, a command fixes all four, and `decode` answers a command exactly
when the word's fields are the command's.  The opcode map, the reserved words and the assembler are read off that. -/

namespace Sys2Proof.Machine

/-! ### The fields of a word -/

theorem Command.ofWord_eq_iff {w : CmdWord} {c : Command} :
    Command.ofWord w = c ↔ opcField w = c.opc ∧ idxField w = c.idx ∧ valField w = c.val ∧ durField w = c.dur :=
  Iff.of_eq (Command.mk.injEq ..)

/-- A word built from fields has these fields (R74). -/
@[simp] theorem Command.ofWord_word (c : Command) : Command.ofWord c.word = c := by
  refine Command.ofWord_eq_iff.mpr ⟨?_, ?_, ?_, ?_⟩
  · rw [opcField, Command.word, BitVec.extractLsb'_append_eq_of_le (by decide),
      BitVec.extractLsb'_append_eq_of_le (by decide), BitVec.extractLsb'_append_eq_left]
  · rw [idxField, Command.word, BitVec.extractLsb'_append_eq_of_le (by decide),
      BitVec.extractLsb'_append_eq_of_le (by decide), BitVec.extractLsb'_append_eq_right]
  · rw [valField, Command.word, BitVec.extractLsb'_append_eq_of_le (by decide), BitVec.extractLsb'_append_eq_right]
  · rw [durField, Command.word, BitVec.extractLsb'_append_eq_right]

section
variable (w : CmdWord)

theorem toNat_opcField : (opcField w).toNat = w.toNat / 2 ^ 28 := by
  rw [opcField, BitVec.extractLsb'_toNat, Nat.shiftRight_eq_div_pow]
  omega

theorem toNat_idxField : (idxField w).toNat = w.toNat / 2 ^ 20 % 256 := by
  rw [idxField, BitVec.extractLsb'_toNat, Nat.shiftRight_eq_div_pow]

theorem toNat_valField : (valField w).toNat = w.toNat / 2 ^ 12 % 256 := by
  rw [valField, BitVec.extractLsb'_toNat, Nat.shiftRight_eq_div_pow]

theorem toNat_durField : (durField w).toNat = w.toNat % 4096 := by
  rw [durField, BitVec.extractLsb'_toNat, Nat.shiftRight_zero]

end

/-- A field that a mask keeps whole is the match's field. -/
theorem extractLsb'_of_and_eq {w mask m : CmdWord} {start len : Nat} (h : w &&& mask = m)
    (hmask : mask.extractLsb' start len = BitVec.allOnes len) : w.extractLsb' start len = m.extractLsb' start len := by
  rw [← h, BitVec.extractLsb'_and, hmask, BitVec.and_allOnes]

/-! ### The decoder, one equation per opcode (R78 to R81) -/

@[simp] theorem legalIf_eq_legal_iff {b : Bool} {i j : Instr} : legalIf b i = .legal j ↔ b = true ∧ i = j := by
  cases b <;> simp [legalIf]

theorem legalIf_false (i : Instr) : legalIf false i = .illegal .nonZeroField := rfl

section
variable {w : CmdWord}

theorem decode_of_opc_setr (h : opcField w = 1) :
    decode w = legalIf (durField w == 0) (.setr (idxField w) (valField w)) := by
  simp [decode, h]

theorem decode_of_opc_setrt (h : opcField w = 2) :
    decode w = .legal (.setrt (idxField w) (valField w) (durField w)) := by
  simp [decode, h]

theorem decode_of_opc_inflate (h : opcField w = 3) :
    decode w = legalIf (valField w == 0 && durField w == 0) (.inflate (idxField w)) := by
  simp [decode, h]

theorem decode_of_opc_deflate (h : opcField w = 4) :
    decode w = legalIf (valField w == 0 && durField w == 0) (.deflate (idxField w)) := by
  simp [decode, h]

theorem decode_of_opc_hold (h : opcField w = 5) :
    decode w = legalIf (valField w == 0 && durField w == 0) (.hold (idxField w)) := by
  simp [decode, h]

theorem decode_of_opc_holdall (h : opcField w = 6) :
    decode w = legalIf (idxField w == 0 && valField w == 0 && durField w == 0) .holdall := by
  simp [decode, h]

theorem decode_of_opc_reserved (h : opcField w ∉ ([1, 2, 3, 4, 5, 6] : List (BitVec 4))) :
    decode w = .illegal .reservedOpcode := by
  simp only [List.mem_cons, List.not_mem_nil, or_false, not_or] at h
  obtain ⟨h1, h2, h3, h4, h5, h6⟩ := h
  simp only [decode, if_neg, h1, h2, h3, h4, h5, h6, not_false_eq_true]

end

/-- The fields of a command's word (R78): its opcode, its operands, and zero where it has no operand. -/
def fieldsOf : Instr → Command
  | .setr idx val => ⟨1, idx, val, 0⟩
  | .setrt idx val dur => ⟨2, idx, val, dur⟩
  | .inflate idx => ⟨3, idx, 0, 0⟩
  | .deflate idx => ⟨4, idx, 0, 0⟩
  | .hold idx => ⟨5, idx, 0, 0⟩
  | .holdall => ⟨6, 0, 0, 0⟩

/-- A word decodes to a command exactly when its fields are the command's. -/
theorem decode_eq_legal_iff {w : CmdWord} {i : Instr} : decode w = .legal i ↔ Command.ofWord w = fieldsOf i := by
  rw [Command.ofWord_eq_iff]
  constructor
  · intro h
    by_cases hused : opcField w ∈ ([1, 2, 3, 4, 5, 6] : List (BitVec 4))
    · simp only [List.mem_cons, List.not_mem_nil, or_false] at hused
      rcases hused with ho | ho | ho | ho | ho | ho
      · obtain ⟨hz, rfl⟩ := legalIf_eq_legal_iff.mp (decode_of_opc_setr ho ▸ h)
        simpa [fieldsOf, ho] using hz
      · cases (decode_of_opc_setrt ho).symm.trans h
        simp [fieldsOf, ho]
      · obtain ⟨hz, rfl⟩ := legalIf_eq_legal_iff.mp (decode_of_opc_inflate ho ▸ h)
        simpa [fieldsOf, ho] using hz
      · obtain ⟨hz, rfl⟩ := legalIf_eq_legal_iff.mp (decode_of_opc_deflate ho ▸ h)
        simpa [fieldsOf, ho] using hz
      · obtain ⟨hz, rfl⟩ := legalIf_eq_legal_iff.mp (decode_of_opc_hold ho ▸ h)
        simpa [fieldsOf, ho] using hz
      · obtain ⟨hz, rfl⟩ := legalIf_eq_legal_iff.mp (decode_of_opc_holdall ho ▸ h)
        simpa [fieldsOf, ho, and_assoc] using hz
    · cases (decode_of_opc_reserved hused).symm.trans h
  · rintro ⟨ho, hi, hv, hd⟩
    cases i with
    | setr idx val => simp [decode_of_opc_setr ho, fieldsOf, hi, hv, hd]
    | setrt idx val dur => simp [decode_of_opc_setrt ho, fieldsOf, hi, hv, hd]
    | inflate idx => simp [decode_of_opc_inflate ho, fieldsOf, hi, hv, hd]
    | deflate idx => simp [decode_of_opc_deflate ho, fieldsOf, hi, hv, hd]
    | hold idx => simp [decode_of_opc_hold ho, fieldsOf, hi, hv, hd]
    | holdall => simp [decode_of_opc_holdall ho, fieldsOf, hi, hv, hd]

theorem decode_of_fields {w : CmdWord} {i : Instr} (ho : opcField w = (fieldsOf i).opc)
    (hi : idxField w = (fieldsOf i).idx) (hv : valField w = (fieldsOf i).val) (hd : durField w = (fieldsOf i).dur) :
    decode w = .legal i :=
  decode_eq_legal_iff.mpr (Command.ofWord_eq_iff.mpr ⟨ho, hi, hv, hd⟩)

/-- The same on the numbers of R81. -/
theorem decode_eq_legal_iff_toNat {w : CmdWord} {i : Instr} :
    decode w = .legal i ↔
      w.toNat / 2 ^ 28 = (fieldsOf i).opc.toNat ∧ w.toNat / 2 ^ 20 % 256 = (fieldsOf i).idx.toNat ∧
        w.toNat / 2 ^ 12 % 256 = (fieldsOf i).val.toNat ∧ w.toNat % 4096 = (fieldsOf i).dur.toNat := by
  rw [decode_eq_legal_iff, Command.ofWord_eq_iff, ← toNat_opcField, ← toNat_idxField, ← toNat_valField,
    ← toNat_durField, BitVec.toNat_inj, BitVec.toNat_inj, BitVec.toNat_inj, BitVec.toNat_inj]

/-- Settles O2: each clause names the fields of the command it answers, and a word with the fields of no command is
illegal. -/
theorem decodeFollowsFieldFormula : Obligations.DecodeFollowsFieldFormula := by
  unfold Obligations.DecodeFollowsFieldFormula
  intro w opc idx val dur
  have hidx : idx = (BitVec.ofNat 8 idx).toNat := (Nat.mod_mod _ 256).symm
  have hval : val = (BitVec.ofNat 8 val).toNat := (Nat.mod_mod _ 256).symm
  have hdur : dur = (BitVec.ofNat 12 dur).toNat := (Nat.mod_mod _ 4096).symm
  split_ifs with hsetr hsetrt hinflate hdeflate hhold hholdall
  · exact decode_eq_legal_iff_toNat.mpr ⟨hsetr.1, hidx, hval, hsetr.2⟩
  · exact decode_eq_legal_iff_toNat.mpr ⟨hsetrt, hidx, hval, hdur⟩
  · exact decode_eq_legal_iff_toNat.mpr ⟨hinflate.1, hidx, hinflate.2⟩
  · exact decode_eq_legal_iff_toNat.mpr ⟨hdeflate.1, hidx, hdeflate.2⟩
  · exact decode_eq_legal_iff_toNat.mpr ⟨hhold.1, hidx, hhold.2⟩
  · exact decode_eq_legal_iff_toNat.mpr hholdall
  · cases hd : decode w with
    | illegal why => exact ⟨why, rfl⟩
    | legal i =>
      obtain ⟨ho, hi, hv, hz⟩ := decode_eq_legal_iff_toNat.mp hd
      cases i with
      | setr _ _ => exact absurd ⟨ho, hz⟩ hsetr
      | setrt _ _ _ => exact absurd ho hsetrt
      | inflate _ => exact absurd ⟨ho, hv, hz⟩ hinflate
      | deflate _ => exact absurd ⟨ho, hv, hz⟩ hdeflate
      | hold _ => exact absurd ⟨ho, hv, hz⟩ hhold
      | holdall => exact absurd ⟨ho, hi, hv, hz⟩ hholdall

/-! ### Illegal words (R79, R80) -/

/-- Settles O4: the decoder's equation for the word's opcode, with the field that is not zero. -/
theorem unusedFieldsMustBeZero : Obligations.UnusedFieldsMustBeZero := by
  unfold Obligations.UnusedFieldsMustBeZero
  refine fun w => ⟨fun ho hdur => ?_, fun ho hval => ?_, fun ho hidx => ?_, fun ho => ?_⟩
  · have hz : (durField w == 0) = false := beq_false_of_ne hdur
    simp only [List.mem_cons, List.not_mem_nil, or_false] at ho
    rcases ho with ho | ho | ho | ho | ho
    · simp only [decode_of_opc_setr ho, hz, legalIf_false]
    · simp only [decode_of_opc_inflate ho, hz, Bool.and_false, legalIf_false]
    · simp only [decode_of_opc_deflate ho, hz, Bool.and_false, legalIf_false]
    · simp only [decode_of_opc_hold ho, hz, Bool.and_false, legalIf_false]
    · simp only [decode_of_opc_holdall ho, hz, Bool.and_false, legalIf_false]
  · have hz : (valField w == 0) = false := beq_false_of_ne hval
    simp only [List.mem_cons, List.not_mem_nil, or_false] at ho
    rcases ho with ho | ho | ho | ho
    · simp only [decode_of_opc_inflate ho, hz, Bool.false_and, legalIf_false]
    · simp only [decode_of_opc_deflate ho, hz, Bool.false_and, legalIf_false]
    · simp only [decode_of_opc_hold ho, hz, Bool.false_and, legalIf_false]
    · simp only [decode_of_opc_holdall ho, hz, Bool.and_false, Bool.false_and, legalIf_false]
  · have hz : (idxField w == 0) = false := beq_false_of_ne hidx
    simp only [decode_of_opc_holdall ho, hz, Bool.false_and, legalIf_false]
  · refine decode_of_opc_reserved fun hused => ?_
    simp only [List.mem_cons, List.not_mem_nil, or_false] at hused
    bv_omega

/-! ### The encoder -/

theorem Command.toNat_word (c : Command) :
    c.word.toNat = c.opc.toNat * 2 ^ 28 + c.idx.toNat * 2 ^ 20 + c.val.toNat * 2 ^ 12 + c.dur.toNat := by
  rw [Command.word, toNat_append_eq_add, toNat_append_eq_add, toNat_append_eq_add]
  omega

theorem placeIdx_eq_word (idx : BitVec 8) : placeIdx idx = Command.word ⟨0, idx, 0, 0⟩ := by
  apply BitVec.eq_of_toNat_eq
  simp [placeIdx, Command.toNat_word, Nat.shiftLeft_eq]
  omega

theorem placeVal_eq_word (val : BitVec 8) : placeVal val = Command.word ⟨0, 0, val, 0⟩ := by
  apply BitVec.eq_of_toNat_eq
  simp [placeVal, Command.toNat_word, Nat.shiftLeft_eq]
  omega

theorem placeDur_eq_word (dur : BitVec 12) : placeDur dur = Command.word ⟨0, 0, 0, dur⟩ := by
  apply BitVec.eq_of_toNat_eq
  simp [placeDur, Command.toNat_word]
  omega

theorem Command.word_or_word (c d : Command) :
    c.word ||| d.word = Command.word ⟨c.opc ||| d.opc, c.idx ||| d.idx, c.val ||| d.val, c.dur ||| d.dur⟩ :=
  BitVec.or_append.trans (by rw [BitVec.or_append, BitVec.or_append]; rfl)

theorem shiftedOpc_eq_word (opc : BitVec 4) : opc.setWidth 32 <<< 28 = Command.word ⟨opc, 0, 0, 0⟩ := by
  apply BitVec.eq_of_toNat_eq
  simp [Command.toNat_word, Nat.shiftLeft_eq]
  omega

/-- The fields of a word at their places (R74). -/
theorem Command.word_eq_or (c : Command) :
    c.word = c.opc.setWidth 32 <<< 28 ||| placeIdx c.idx ||| placeVal c.val ||| placeDur c.dur := by
  simp [shiftedOpc_eq_word, placeIdx_eq_word, placeVal_eq_word, placeDur_eq_word, Command.word_or_word]

@[simp] theorem placeIdx_zero : placeIdx 0#8 = 0#32 := by decide

@[simp] theorem placeVal_zero : placeVal 0#8 = 0#32 := by decide

@[simp] theorem placeDur_zero : placeDur 0#12 = 0#32 := by decide

/-- The encoder writes a command's fields side by side (R86). -/
theorem encode_eq_word (i : Instr) : encode i = (fieldsOf i).word := by
  rw [Command.word_eq_or]
  cases i <;> simp [encode, fieldsOf]

theorem decode_encode (i : Instr) : decode (encode i) = .legal i := by
  rw [decode_eq_legal_iff, encode_eq_word, Command.ofWord_word]

theorem encode_of_decode {w : CmdWord} {i : Instr} (h : decode w = .legal i) : encode i = w := by
  rw [encode_eq_word, ← decode_eq_legal_iff.mp h, Command.word_ofWord]

/-! ### The opcode map (R78) -/

theorem row_mem_opcodeRows (i : Instr) : i.row ∈ opcodeRows := by cases i <;> simp [opcodeRows, Instr.row]

/-- A command's word meets the mask of the command's row. -/
theorem encode_and_mask (i : Instr) : encode i &&& i.row.mask = i.row.opcMatch := by
  apply eq_of_beq
  cases i with
  | setr idx val => exact Laws.EncodesInItsRow.setr idx val
  | setrt idx val dur => exact Laws.EncodesInItsRow.setrt idx val dur
  | inflate idx => exact Laws.EncodesInItsRow.inflate idx
  | deflate idx => exact Laws.EncodesInItsRow.deflate idx
  | hold idx => exact Laws.EncodesInItsRow.hold idx
  | holdall => exact Laws.EncodesInItsRow.holdall

/-- A word that a row selects decodes to a command of that row. -/
theorem decode_of_and_mask {w : CmdWord} {r : OpcodeRow} (hr : r ∈ opcodeRows) (h : w &&& r.mask = r.opcMatch) :
    ∃ i, decode w = .legal i ∧ i.row = r := by
  simp only [opcodeRows, List.mem_cons, List.not_mem_nil, or_false] at hr
  have field (start len : Nat) := extractLsb'_of_and_eq (start := start) (len := len) h
  rcases hr with rfl | rfl | rfl | rfl | rfl | rfl
  · exact ⟨.setr (idxField w) (valField w),
      decode_of_fields (field 28 4 (by decide)) rfl rfl (field 0 12 (by decide)), rfl⟩
  · exact ⟨.setrt (idxField w) (valField w) (durField w), decode_of_fields (field 28 4 (by decide)) rfl rfl rfl, rfl⟩
  · exact ⟨.inflate (idxField w),
      decode_of_fields (field 28 4 (by decide)) rfl (field 12 8 (by decide)) (field 0 12 (by decide)), rfl⟩
  · exact ⟨.deflate (idxField w),
      decode_of_fields (field 28 4 (by decide)) rfl (field 12 8 (by decide)) (field 0 12 (by decide)), rfl⟩
  · exact ⟨.hold (idxField w),
      decode_of_fields (field 28 4 (by decide)) rfl (field 12 8 (by decide)) (field 0 12 (by decide)), rfl⟩
  · exact ⟨.holdall, decode_of_fields (field 28 4 (by decide)) (field 20 8 (by decide)) (field 12 8 (by decide))
      (field 0 12 (by decide)), rfl⟩

/-- Settles O3: a legal word is its command's word, which meets the command's row, and a row selects only words of its own
commands, so the word's one command fixes the row. -/
theorem legalWordsAreTheRowsOfTheMap : Obligations.LegalWordsAreTheRowsOfTheMap := by
  unfold Obligations.LegalWordsAreTheRowsOfTheMap
  have own (w : CmdWord) (i : Instr) (h : decode w = .legal i) : w &&& i.row.mask = i.row.opcMatch := by
    rw [← encode_of_decode h, encode_and_mask]
  refine ⟨rfl, fun w => ⟨?_, ?_⟩, fun w i h => ⟨row_mem_opcodeRows i, own w i h⟩, fun w r hr r' hr' h h' => ?_⟩
  · rintro ⟨i, h⟩
    exact ⟨i.row, row_mem_opcodeRows i, own w i h⟩
  · rintro ⟨r, hr, h⟩
    obtain ⟨i, hi, -⟩ := decode_of_and_mask hr h
    exact ⟨i, hi⟩
  · obtain ⟨i, hi, rfl⟩ := decode_of_and_mask hr h
    obtain ⟨i', hi', rfl⟩ := decode_of_and_mask hr' h'
    cases hi.symm.trans hi'
    rfl

/-! ### The assembler (R83) -/

/-- A line is assembled to a word of its command when its operands fit, and refused otherwise, whatever form `p` the check
takes. -/
theorem assemble_spec {c : SourceCmd} {p q : Prop} [Decidable p] (hp : c.wellFormed = true ↔ p)
    (hq : p → ∀ w, c.assemble = some w → decode w = .legal c.instr → q) : if p then q else c.assemble = none := by
  split_ifs with h
  · exact hq h (encode c.instr) (if_pos (hp.mpr h)) (decode_encode _)
  · exact if_neg (mt hp.mp h)

theorem fitsIdx_iff {i : Nat} : fitsIdx i = true ↔ i < 256 := decide_eq_true_iff

theorem wellFormed_setr_iff {i v : Nat} : (SourceCmd.setr i v).wellFormed = true ↔ i < 256 ∧ v < 256 := by
  simp [SourceCmd.wellFormed, fitsIdx, fitsVal]

theorem wellFormed_setrt_iff {i v d : Nat} :
    (SourceCmd.setrt i v d).wellFormed = true ↔ i < 256 ∧ v < 256 ∧ d < 4096 := by
  simp [SourceCmd.wellFormed, fitsIdx, fitsVal, fitsDur, and_assoc]

/-- Settles O6: the bounds are those of the well-formed lines, and what the assembler encodes decodes again, to operands that
fit. -/
theorem assemblerNeverTruncates : Obligations.AssemblerNeverTruncates := by
  unfold Obligations.AssemblerNeverTruncates
  have fits8 {n : Nat} (h : n < 256) : (BitVec.ofNat 8 n).toNat = n := Nat.mod_eq_of_lt h
  have fits12 {n : Nat} (h : n < 4096) : (BitVec.ofNat 12 n).toNat = n := Nat.mod_eq_of_lt h
  refine ⟨fun i v => ?setr, fun i v d => ?setrt, fun i => ?inflate, fun i => ?deflate, fun i => ?hold, ?holdall⟩
  case setr =>
    exact assemble_spec wellFormed_setr_iff fun h w hw hd =>
      ⟨w, _, _, hw, hd, fits8 h.1, fits8 h.2⟩
  case setrt =>
    exact assemble_spec wellFormed_setrt_iff fun h w hw hd =>
      ⟨w, _, _, _, hw, hd, fits8 h.1, fits8 h.2.1, fits12 h.2.2⟩
  case inflate => exact assemble_spec fitsIdx_iff fun h w hw hd => ⟨w, _, hw, hd, fits8 h⟩
  case deflate => exact assemble_spec fitsIdx_iff fun h w hw hd => ⟨w, _, hw, hd, fits8 h⟩
  case hold => exact assemble_spec fitsIdx_iff fun h w hw hd => ⟨w, _, hw, hd, fits8 h⟩
  case holdall => exact ⟨_, rfl, decode_encode .holdall⟩

end Sys2Proof.Machine
end

