-- ==== Sys2Proof/Proofs/CommandPort.lean ====
section
/-! The command port (R70 to R72): what acceptance does with a presented word, that every accepted word is answered, and that
a busy core neither reads nor stores a word. -/

namespace Sys2Proof.Machine

/-! ### Acceptance (R71, R130) -/

/-- With nothing else held, an idle core accepts a presented word. -/
theorem step_of_presented {s : State} (hq : s.inputs.Quiet) (hb : s.busy = false) (hv : s.inputs.cmdValid = true) :
    step s = acceptStep s := by
  obtain ⟨hreset, hpower, hforeign, hfault⟩ := hq
  simp [step, hreset, hpower, hforeign, hfault, hb, hv]

/-- With nothing else held, a busy core advances by one position. -/
theorem step_of_busy {s : State} (hq : s.inputs.Quiet) (hb : s.busy = true) : step s = seqStep s := by
  obtain ⟨hreset, hpower, hforeign, hfault⟩ := hq
  simp [step, hreset, hpower, hforeign, hfault, hb]

theorem acceptStep_byEvent {s : State} (h : s.inputs.byEvent = true) : acceptStep s = .next (s.accept s.inputs.cmd) :=
  if_pos h

theorem acceptStep_whole {s : State} (h : s.inputs.byEvent = false) :
    acceptStep s = execWord s.inputs.cmd (s.accept s.inputs.cmd) := by
  simp [acceptStep, h]

/-! ### The frame over a whole word (R130, R171, R174) -/

theorem State.execute_of_cfgErr {s : State} (hc : s.cfgErr = true) (tests : Option Status) (work : State → State) :
    s.execute tests work = s.rejectedWith .configError :=
  if_pos hc

theorem execWord_of_legal {w : CmdWord} {i : Instr} (hd : decode w = .legal i) (s : State) : execWord w s = exec i s := by
  simp only [execWord, hd]

theorem execWord_of_illegal {w : CmdWord} {why : IllegalWord} (hd : decode w = .illegal why) (s : State) :
    execWord w s = .next s.executeIllegal := by
  simp only [execWord, hd]

/-- After a failed construction every word is answered ConfigError (R171). -/
theorem execWord_of_cfgErr {s : State} (w : CmdWord) (hc : s.cfgErr = true) :
    execWord w s = .next (s.rejectedWith .configError) := by
  cases hd : decode w with
  | legal i => rw [execWord_of_legal hd, exec_eq, State.execute_of_cfgErr hc]
  | illegal why => rw [execWord_of_illegal hd, State.executeIllegal, State.execute_of_cfgErr hc]

/-- A word that spells no command is answered IllegalCommand (R174). -/
theorem executeIllegal_of_configured {s : State} (hc : s.cfgErr = false) :
    s.executeIllegal = s.rejectedWith .illegalCommand := by
  rw [State.executeIllegal, State.execute, hc]
  rfl

/-- Settles O7: the step is the acceptance, whose latched fields are the fields of the word, and at the granularity of one
transition the execution of the word after it. -/
theorem stepRunsDecodedInstruction : Obligations.StepRunsDecodedInstruction := by
  unfold Obligations.StepRunsDecodedInstruction
  intro s hq hb hv accepted
  have hstep : step s = acceptStep s := step_of_presented hq hb hv
  have hwhole (he : s.inputs.byEvent = false) : step s = execWord s.inputs.cmd accepted :=
    hstep.trans (acceptStep_whole he)
  refine ⟨fun he => hstep.trans (acceptStep_byEvent he), hwhole, ?legal, ?configError, ?illegal⟩
  case legal => exact fun he i hd => (hwhole he).trans (execWord_of_legal hd accepted)
  case configError => exact fun he hc => (hwhole he).trans (execWord_of_cfgErr (s := accepted) _ hc)
  case illegal =>
    intro he hc why hd
    rw [hwhole he, execWord_of_illegal hd, executeIllegal_of_configured (s := accepted) hc]

/-! ### Every accepted word is answered (R72) -/

/-- What a command's work keeps as it was: N, CFG_ERR, the model's draws and inputs, and the latched command. -/
def State.KeepsFixed (s t : State) : Prop := State.SameFixed s t ∧ t.cmd = s.cmd

theorem firstWrite_keepsFixed (i : Instr) (s : State) : s.KeepsFixed (firstWrite i s) := by
  cases i <;> exact ⟨⟨rfl, rfl, rfl, rfl⟩, rfl⟩

theorem State.update_keepsFixed (s : State) : s.KeepsFixed s.update := by
  simp [State.KeepsFixed, State.SameFixed]

theorem State.KeepsFixed.trans {s t u : State} (hst : s.KeepsFixed t) (htu : t.KeepsFixed u) : s.KeepsFixed u := by
  obtain ⟨⟨hn, hc, hd, hi⟩, hcmd⟩ := hst
  obtain ⟨⟨hn', hc', hd', hi'⟩, hcmd'⟩ := htu
  exact ⟨⟨hn'.trans hn, hc'.trans hc, hd'.trans hd, hi'.trans hi⟩, hcmd'.trans hcmd⟩

theorem commandWork_keepsFixed (i : Instr) (s : State) : s.KeepsFixed (commandWork i s) := by
  have first : s.KeepsFixed (firstWrite i s).update := (firstWrite_keepsFixed i s).trans (State.update_keepsFixed _)
  cases hd : durationOf i with
  | none => rwa [commandWork_of_untimed hd]
  | some dur =>
    obtain ⟨idx, val, rfl⟩ := setrt_of_durationOf hd
    rw [commandWork_setrt]
    have waited (u : State) : u.KeepsFixed ((u.waitFor dur).holdShadow idx) := ⟨⟨rfl, rfl, rfl, rfl⟩, rfl⟩
    exact first.trans ((waited _).trans (State.update_keepsFixed _))

/-- The frame responds once, whichever test fires, and keeps what the work keeps. -/
theorem State.execute_responds {s : State} {work : State → State} (tests : Option Status)
    (hwork : s.KeepsFixed (work s)) :
    ∃ code, (s.execute tests work).Responded code ∧ s.KeepsFixed (s.execute tests work) := by
  rcases State.execute_cases s tests work with ⟨-, h⟩ | ⟨-, e, -, h⟩ | ⟨-, -, h⟩ <;> rw [h]
  · exact ⟨.configError, ⟨rfl, rfl, rfl, rfl, rfl⟩, ⟨rfl, rfl, rfl, rfl⟩, rfl⟩
  · exact ⟨e, ⟨rfl, rfl, rfl, rfl, rfl⟩, ⟨rfl, rfl, rfl, rfl⟩, rfl⟩
  · exact ⟨.ok, ⟨rfl, rfl, rfl, rfl, rfl⟩, hwork⟩

theorem exec_responds (i : Instr) (s : State) :
    ∃ t code, exec i s = .next t ∧ t.Responded code ∧ s.KeepsFixed t := by
  obtain ⟨code, hresp, hkeep⟩ := State.execute_responds (commandTests i s) (commandWork_keepsFixed i s)
  exact ⟨_, code, exec_eq i s, hresp, hkeep⟩

/-- Settles O12: a legal word is executed, and any other is rejected, both in the frame, which always responds. -/
theorem everyAcceptedWordResponds : Obligations.EveryAcceptedWordResponds := by
  unfold Obligations.EveryAcceptedWordResponds
  refine ⟨fun w s => ?_, exec_responds⟩
  cases hd : decode w with
  | legal i =>
    rw [execWord_of_legal hd]
    exact exec_responds i s
  | illegal why =>
    obtain ⟨code, hresp, hkeep⟩ :=
      State.execute_responds (s := s) (work := id) (some .illegalCommand) ⟨⟨rfl, rfl, rfl, rfl⟩, rfl⟩
    exact ⟨_, code, execWord_of_illegal hd s, hresp, hkeep⟩

/-! ### A busy core and the presented word (R71, R210, D16) -/

section
variable (s : State) (valid : Bool) (w : CmdWord)

@[simp] theorem State.present_n : (s.present valid w).n = s.n := rfl
@[simp] theorem State.present_cfgErr : (s.present valid w).cfgErr = s.cfgErr := rfl
@[simp] theorem State.present_holdCnt : (s.present valid w).holdCnt = s.holdCnt := rfl
@[simp] theorem State.present_cmd : (s.present valid w).cmd = s.cmd := rfl
@[simp] theorem State.present_seq : (s.present valid w).seq = s.seq := rfl

theorem State.emit_present (e : Event) : (s.present valid w).emit e = (s.emit e).present valid w := by
  rcases e with ⟨_ | _ | _ | _, v⟩ | t <;> rfl

theorem commandTests_present (i : Instr) : commandTests i (s.present valid w) = commandTests i s :=
  commandTests_congr i rfl

theorem firstWrite_present (i : Instr) : firstWrite i (s.present valid w) = (firstWrite i s).present valid w := by
  cases i <;> rfl

theorem seqCheck_present : seqCheck (s.present valid w) = (seqCheck s).present valid w := by
  simp only [seqCheck, State.present_cfgErr, State.present_cmd, commandTests_present, firstWrite_present]
  cases s.cfgErr with
  | true => rfl
  | false =>
    cases decode s.cmd.word with
    | illegal why => rfl
    | legal i => cases h : commandTests i s <;> simp only [h] <;> rfl

theorem seqShift_present (u : UpdateNo) (k b : Nat) (p : CellPhase) :
    seqShift u k b (s.present valid w) p = (seqShift u k b s p).present valid w := by
  cases p <;> rfl

theorem seqLatch_present (u : UpdateNo) (p : LatchPhase) :
    seqLatch u (s.present valid w) p = (seqLatch u s p).present valid w := by
  cases p <;> rfl

theorem seqOeOn_present (u : UpdateNo) : seqOeOn u (s.present valid w) = (seqOeOn u s).present valid w := by
  simp only [seqOeOn, State.present_cmd, State.emit_present]
  split <;> rfl

theorem seqWait_present : seqWait (s.present valid w) = (seqWait s).present valid w := by
  simp only [seqWait, State.present_cmd, State.present_holdCnt, State.emit_present]
  split <;> rfl

/-- A position does the same whatever word is presented. -/
theorem seqStep_present {t : State} (h : seqStep s = .next t) :
    seqStep (s.present valid w) = .next (t.present valid w) := by
  rcases seqStep_cases s with ⟨-, hs⟩ | ⟨hq, hs⟩ | ⟨u, hq, hs⟩ | ⟨u, k, b, p, hq, hk, hs⟩ | ⟨u, k, b, p, -, -, hs⟩ |
    ⟨u, p, hq, hs⟩ | ⟨u, hq, hs⟩ | ⟨hq, hs⟩ <;> cases hs.symm.trans h
  · simp only [seqStep, State.present_seq, hq, seqCheck_present]
  · simp only [seqStep, State.present_seq, hq, State.emit_present, State.present_n]
    rfl
  · simp only [seqStep, State.present_seq, hq, State.present_n, if_pos hk, seqShift_present]
  · simp only [seqStep, State.present_seq, hq, seqLatch_present]
  · simp only [seqStep, State.present_seq, hq, seqOeOn_present]
  · simp only [seqStep, State.present_seq, hq, seqWait_present]

end

theorem seqCheck_cmd (s : State) : (seqCheck s).cmd = s.cmd := by
  rcases seqCheck_cases s with ⟨e, h, -⟩ | ⟨-, i, -, -, h⟩ <;> rw [h]
  · rfl
  · simp

theorem seqShift_cmd (u : UpdateNo) (k b : Nat) (s : State) (p : CellPhase) : (seqShift u k b s p).cmd = s.cmd := by
  cases p <;> simp [seqShift]

theorem seqLatch_cmd (u : UpdateNo) (s : State) (p : LatchPhase) : (seqLatch u s p).cmd = s.cmd := by
  cases p <;> simp [seqLatch]

theorem seqOeOn_cmd (u : UpdateNo) (s : State) : (seqOeOn u s).cmd = s.cmd := by
  rcases seqOeOn_cases u s with ⟨-, _, _, _, -, h⟩ | ⟨h, -⟩ <;> simp [h]

theorem seqWait_cmd (s : State) : (seqWait s).cmd = s.cmd := by
  unfold seqWait
  split <;> simp

/-- No position writes the latched command (R32). -/
theorem seqStep_cmd {s t : State} (h : seqStep s = .next t) : t.cmd = s.cmd := by
  rcases seqStep_cases s with ⟨-, hs⟩ | ⟨-, hs⟩ | ⟨u, -, hs⟩ | ⟨u, k, b, p, -, -, hs⟩ | ⟨u, k, b, p, -, -, hs⟩ |
    ⟨u, p, -, hs⟩ | ⟨u, -, hs⟩ | ⟨-, hs⟩ <;> cases hs.symm.trans h
  · exact seqCheck_cmd s
  · simp
  · exact seqShift_cmd u k b s p
  · exact seqLatch_cmd u s p
  · exact seqOeOn_cmd u s
  · exact seqWait_cmd s

/-- Settles O13: the step of a busy core is one position of SEQ, which reads no input port and keeps the latched command. -/
theorem busyCoreIgnoresPresentedWord : Obligations.BusyCoreIgnoresPresentedWord := by
  unfold Obligations.BusyCoreIgnoresPresentedWord
  intro s t valid w hb hstep hq
  rw [step_of_busy hq hb] at hstep
  have hq' : (s.present valid w).inputs.Quiet := hq
  exact ⟨(step_of_busy hq' hb).trans (seqStep_present s valid w hstep), seqStep_cmd hstep⟩

end Sys2Proof.Machine
end

