-- ==== Sys2Proof/Proofs/ChainDriver.lean ====
section
/-! What an UPDATE leaves on the chain (R116, R117): SHIFTOUT is one bit cell per wire bit, the cells clock the wire bits into
the chain, the bits of N bytes load N chips, and the latch pulse and OE make the relays show them. -/

namespace Sys2Proof.Machine

/-! ### SHIFTOUT as one bit cell per wire bit (R102, R106) -/

/-- A byte's loop counts its bits down. -/
theorem shiftBits_eq_bitCells (c : Nat) (v : Byte) :
    shiftBits c v = ((List.range c).map fun j => v.getLsbD (c - 1 - j)).flatMap bitCell := by
  induction c with
  | zero => rfl
  | succ b ih =>
    have hnext (j : Nat) : b - 1 - j = b - (j + 1) := by omega
    simp [shiftBits, ih, List.range_succ_eq_map, List.flatMap_map, hnext]

theorem shiftOut_eq_bitCells (n : Nat) (m : Memory) : shiftOut n m = (wireBits n m).flatMap bitCell := by
  induction n with
  | zero => rfl
  | succ k ih =>
    have hbyte : shiftBits 8 (m.read k) = (msbFirst (m.read k)).flatMap bitCell := shiftBits_eq_bitCells 8 _
    rw [shiftOut, hbyte, ih, wireBits_succ, List.flatMap_append]

/-! ### Bits clocked into the chain (R114) -/

theorem clockIn_cons (d : Bool) (bits : List Bool) (c : List Byte) :
    clockIn (d :: bits) c = clockIn bits (shiftChain d c) := rfl

theorem clockIn_append (bits bits' : List Bool) (c : List Byte) :
    clockIn (bits ++ bits') c = clockIn bits' (clockIn bits c) :=
  List.foldl_append

theorem clockIn_nil_chain (bits : List Bool) : clockIn bits [] = [] := by
  induction bits with
  | nil => rfl
  | cons d bits ih => exact ih

/-- One chip on a rising edge: the new bit enters stage 0 and every other stage takes the one below it. -/
theorem getElem_shiftChip (d : Bool) (b : Byte) {j : Nat} (hj : j < 8) :
    (shiftChip d b)[j] = if j = 0 then d else b[j - 1] := by
  cases j with
  | zero => simp [shiftChip]
  | succ j => simp [shiftChip]

theorem msbFirst_eq (v : Byte) : msbFirst v = [v[7], v[6], v[5], v[4], v[3], v[2], v[1], v[0]] := rfl

/-- After eight edges a chip holds the eight bits that entered it. -/
theorem foldl_shiftChip_msbFirst (v b : Byte) : (msbFirst v).foldl (fun x d => shiftChip d x) b = v := by
  rw [msbFirst_eq]
  refine BitVec.eq_of_getElem_eq fun j hj => ?_
  interval_cases j <;> simp [getElem_shiftChip]

/-- Eight bits replace the first chip's byte, whose old bits go on to the rest of the chain in the same order. -/
theorem clockIn_msbFirst_cons (v b : Byte) (bs : List Byte) :
    clockIn (msbFirst v) (b :: bs) = v :: clockIn (msbFirst b) bs := by
  have hedges : clockIn (msbFirst v) (b :: bs) =
      (msbFirst v).foldl (fun x d => shiftChip d x) b :: clockIn (msbFirst b) bs := by
    simp [msbFirst_eq, clockIn, shiftChain, getElem_shiftChip]
  rw [hedges, foldl_shiftChip_msbFirst]

/-- A byte's bits push the whole chain one chip on; the last chip's byte is lost. -/
theorem clockIn_msbFirst (v : Byte) (c : List Byte) : clockIn (msbFirst v) c = (v :: c).take c.length := by
  induction c generalizing v with
  | nil => exact clockIn_nil_chain _
  | cons b bs ih => rw [clockIn_msbFirst_cons, ih, List.length_cons, List.take_succ_cons]

theorem Memory.bytes_succ (n : Nat) (m : Memory) : m.bytes (n + 1) = m.bytes n ++ [m.read n] := by
  simp [Memory.bytes, List.range_succ]

/-- The 8N wire bits load the first of N bytes into a chain of any length (R116). -/
theorem clockIn_wireBits (n : Nat) (m : Memory) (c : List Byte) :
    clockIn (wireBits n m) c = (m.bytes n ++ c).take c.length := by
  induction n generalizing c with
  | zero => simp [clockIn, Memory.bytes]
  | succ n ih =>
    have hlen : ((m.read n :: c).take c.length).length = c.length := by simp
    rw [wireBits_succ, clockIn_append, clockIn_msbFirst, ih, hlen, Memory.bytes_succ, List.append_assoc,
      List.singleton_append, List.take_append, List.take_append, List.take_take]
    simp

/-! ### The lines and the chain after SHIFTOUT and after an UPDATE -/

/-- Bit cells from a low CLOCK: the chain has sampled their bits, and CLOCK is low again. -/
theorem State.emitAll_bitCells (s : State) (bits : List Bool) (hc : s.clock = false) :
    (s.emitAll (bits.flatMap bitCell)).clock = false ∧ (s.emitAll (bits.flatMap bitCell)).latch = s.latch ∧
      (s.emitAll (bits.flatMap bitCell)).sr = clockIn bits s.sr := by
  induction bits generalizing s with
  | nil => exact ⟨hc, rfl, rfl⟩
  | cons v bits ih =>
    obtain ⟨hclock, -, hlatch, -, -, hsr⟩ := State.emitAll_bitCell s v hc
    have rest := ih (s.emitAll (bitCell v)) hclock
    rwa [hlatch, hsr, ← clockIn_cons, ← State.emitAll_append, ← List.flatMap_cons] at rest

theorem State.emitAll_shiftOut (s : State) (n : Nat) (m : Memory) (hc : s.clock = false) :
    (s.emitAll (shiftOut n m)).clock = false ∧ (s.emitAll (shiftOut n m)).latch = s.latch ∧
      (s.emitAll (shiftOut n m)).sr = (m.bytes n ++ s.sr).take s.sr.length := by
  rw [shiftOut_eq_bitCells, ← clockIn_wireBits]
  exact State.emitAll_bitCells s _ hc

/-- An UPDATE from idle lines, on a chain of any length: the lines are idle again, and what the chain was loaded with is latched
and enabled (R105, R116). -/
theorem State.update_of_linesIdle {s : State} (h : s.linesIdle) :
    s.update.linesIdle ∧ s.update.oeDis = false ∧ s.update.sr = (s.shadowBytes ++ s.sr).take s.sr.length ∧
      s.update.out = (s.shadowBytes ++ s.sr).take s.sr.length := by
  obtain ⟨hclock, hlatch⟩ := h
  have shifted := State.emitAll_shiftOut (s.emit (.emit .oe true)) s.n.toNat s.shadow hclock
  obtain ⟨hshClock, hshLatch, hshSr⟩ := shifted
  obtain ⟨hlLatch, -, hlClock, -, hlSr, hlOut⟩ :=
    State.emitAll_pulse_latch ((s.emit (.emit .oe true)).emitAll (shiftOut s.n.toNat s.shadow))
  have hlow : (s.emit (.emit .oe true)).latch = false := hlatch
  rw [hshClock] at hlClock
  rw [hshSr] at hlSr
  rw [hshSr, hshLatch, hlow] at hlOut
  rw [State.update_eq_updateHead, updateHead, State.emitAll_cons, State.emitAll_append]
  exact ⟨⟨hlClock, hlLatch⟩, rfl, hlSr, hlOut⟩

theorem State.update_chainFits {s : State} (h : s.chainFits) : s.update.chainFits := by
  obtain ⟨hsr, hout⟩ := h
  obtain ⟨hsr', hout'⟩ := State.length_emitAll s (updateTrace s.n.toNat s.shadow) (hsr.trans hout.symm)
  rw [State.chainFits, State.update_n]
  exact ⟨hsr'.trans hsr, hout'.trans hsr⟩

/-- Outputs that hold SHADOW and are enabled make the relays show it (R39). -/
theorem State.chainShowsShadow_of_out {t : State} (hoe : t.oeDis = false) (hsr : t.sr = t.shadowBytes)
    (hout : t.out = t.shadowBytes) : t.ChainShowsShadow := by
  refine ⟨hsr, hout, fun k hk j _ => ?_⟩
  have hlen : k < t.shadowBytes.length := by rwa [State.length_shadowBytes]
  have hbyte : t.out.getD k 0 = t.shadowByte k := by
    rw [hout, List.getD_eq_getElem _ _ hlen, State.shadowBytes_getElem]
  rw [State.relay, hoe, hbyte]
  rfl

/-- An UPDATE loads a chain of N chips with SHADOW, whatever it held (R117). -/
theorem State.update_chainShowsShadow {s : State} (hfit : s.chainFits) (hidle : s.linesIdle) :
    s.update.ChainShowsShadow := by
  obtain ⟨hlen, -⟩ := hfit
  obtain ⟨-, hoe, hsr, hout⟩ := State.update_of_linesIdle hidle
  have hload : (s.shadowBytes ++ s.sr).take s.sr.length = s.update.shadowBytes := by
    rw [hlen, List.take_left' s.length_shadowBytes, State.shadowBytes, State.shadowBytes, State.update_n,
      State.update_shadow]
  exact State.chainShowsShadow_of_out hoe (hsr.trans hload) (hout.trans hload)

/-! ### Commands -/

/-- No test of a command answers OK. -/
theorem commandTests_ne_ok (i : Instr) (s : State) : commandTests i s ≠ some .ok := by
  have hindex (idx : BitVec 8) : s.testIndex idx ≠ some .ok := by
    rw [State.testIndex_eq]
    split <;> simp
  have hset (idx : BitVec 8) (v : Byte) : s.setTests idx v ≠ some .ok := by
    rw [State.setTests_eq]
    split_ifs <;> simp
  cases i with
  | setr idx val => exact hset idx val
  | setrt idx val dur => exact hset idx val
  | inflate idx => exact hset idx _
  | deflate idx => exact hset idx _
  | hold idx => exact hindex idx
  | holdall => exact fun h => nomatch h

/-- The code a command answers tells its rejection, which does nothing else, from its completion. -/
theorem exec_rejected_or_completed {i : Instr} {s t : State} (h : exec i s = .next t) :
    (t.last ≠ .ok ∧ ∃ e, t = s.rejectedWith e) ∨ (t.last = .ok ∧ t = (commandWork i s).respond .ok) := by
  rw [exec_eq] at h
  cases h
  rcases State.execute_cases s (commandTests i s) (commandWork i) with ⟨-, hx⟩ | ⟨-, e, ht, hx⟩ | ⟨-, -, hx⟩ <;> rw [hx]
  · exact .inl ⟨nofun, _, rfl⟩
  · refine .inl ⟨?_, e, rfl⟩
    rintro rfl
    exact commandTests_ne_ok i s ht
  · exact .inr ⟨rfl, rfl⟩

theorem eq_commandWork_of_ok {i : Instr} {s t : State} (h : exec i s = .next t) (hok : t.last = .ok) :
    t = (commandWork i s).respond .ok := by
  rcases exec_rejected_or_completed h with ⟨hne, -⟩ | ⟨-, ht⟩
  · exact absurd hok hne
  · exact ht

/-- No SHADOW write moves the lines, the chain or the trace. -/
@[simp] theorem firstWrite_clock (i : Instr) (s : State) : (firstWrite i s).clock = s.clock := by cases i <;> rfl
@[simp] theorem firstWrite_latch (i : Instr) (s : State) : (firstWrite i s).latch = s.latch := by cases i <;> rfl
@[simp] theorem firstWrite_sr (i : Instr) (s : State) : (firstWrite i s).sr = s.sr := by cases i <;> rfl
@[simp] theorem firstWrite_out (i : Instr) (s : State) : (firstWrite i s).out = s.out := by cases i <;> rfl
@[simp] theorem firstWrite_trace (i : Instr) (s : State) : (firstWrite i s).trace = s.trace := by cases i <;> rfl

/-- Whatever a command writes to SHADOW, its last UPDATE puts it on the chain. -/
theorem commandWork_chainShowsShadow {i : Instr} {s : State} (hfit : s.chainFits) (hidle : s.linesIdle) :
    (commandWork i s).ChainShowsShadow := by
  have hfit' : (firstWrite i s).chainFits := by
    rwa [State.chainFits, firstWrite_sr, firstWrite_out, firstWrite_n]
  have hidle' : (firstWrite i s).linesIdle := by
    rwa [State.linesIdle, firstWrite_clock, firstWrite_latch]
  cases hd : durationOf i with
  | none =>
    rw [commandWork_of_untimed hd]
    exact State.update_chainShowsShadow hfit' hidle'
  | some dur =>
    obtain ⟨idx, val, rfl⟩ := setrt_of_durationOf hd
    obtain ⟨hidle₂, -⟩ := State.update_of_linesIdle hidle'
    have hfit₂ := State.update_chainFits hfit'
    rw [commandWork_setrt]
    exact State.update_chainShowsShadow (by simpa [State.chainFits] using hfit₂)
      (by simpa [State.linesIdle] using hidle₂)

/-- Settles O37: a command that answers OK is done by an UPDATE, and an UPDATE loads, latches and enables SHADOW. -/
theorem okCommandLeavesChainShowingShadow : Obligations.OkCommandLeavesChainShowingShadow := by
  unfold Obligations.OkCommandLeavesChainShowingShadow
  refine ⟨fun _ hfit hidle _ => State.update_chainShowsShadow hfit hidle, fun i s t hfit hidle _ hexec hok => ?_⟩
  rw [eq_commandWork_of_ok hexec hok]
  exact commandWork_chainShowsShadow hfit hidle

end Sys2Proof.Machine
end

