-- ==== Sys2Proof/Proofs/CommandTiming.lean ====
section
/-! How long an UPDATE and each command last (R112, R220, R221): the time of a trace is that of its bit cells, pulses and
wait, and a command's trace is put together from UPDATEs and the wait. -/

namespace Sys2Proof.Machine

/-! ### The time of a trace (R220) -/

@[simp] theorem traceTime_nil : traceTime [] = 0 := rfl

@[simp] theorem traceTime_cons (e : Event) (es : List Event) : traceTime (e :: es) = e.time + traceTime es := rfl

@[simp] theorem traceTime_append (es es' : List Event) : traceTime (es ++ es') = traceTime es + traceTime es' := by
  simp [traceTime]

@[simp] theorem Event.time_emit (l : Line) (v : Bool) : (Event.emit l v).time = 0 := rfl
@[simp] theorem Event.time_settle : (Event.delay .settle).time = Config.tSettle := rfl
@[simp] theorem Event.time_ticks (dur : BitVec 12) : (Event.delay (.ticks dur)).time = dur.toNat * Config.tTick := rfl

theorem traceTime_pulse (l : Line) : traceTime (pulse l) = 2 * Config.tSettle := by
  simp [pulse, Nat.two_mul]

theorem traceTime_bitCells (bits : List Bool) :
    traceTime (bits.flatMap bitCell) = bits.length * (2 * Config.tSettle) := by
  induction bits with
  | nil => simp
  | cons v bits ih =>
    simp only [List.flatMap_cons, bitCell, traceTime_append, traceTime_cons, Event.time_emit, traceTime_pulse, ih,
      List.length_cons]
    ring

theorem traceTime_shiftOut (n : Nat) (m : Memory) : traceTime (shiftOut n m) = 16 * n * Config.tSettle := by
  have hbits : (wireBits n m).length = 8 * n := by simp [wireBits]
  rw [shiftOut_eq_bitCells, traceTime_bitCells, hbits]
  ring

/-- The length of an UPDATE (R112). -/
theorem traceTime_updateTrace (n : Nat) (m : Memory) :
    traceTime (updateTrace n m) = (16 * n + 2) * Config.tSettle := by
  simp only [updateTrace, latchOp, traceTime_cons, traceTime_append, traceTime_nil, Event.time_emit, traceTime_shiftOut,
    traceTime_pulse]
  ring

/-! ### The latch instant (R221) -/

theorem latchRise_not_mem_shiftOut (n : Nat) (m : Memory) : Event.emit .latch true ∉ shiftOut n m := by
  simp [shiftOut_eq_bitCells, bitCell, pulse]

/-- An UPDATE has one rising edge of LATCH, after OE and SHIFTOUT (R103, R105). -/
theorem before_latchRise {n : Nat} {m : Memory} {before after : List Event}
    (h : updateTrace n m = before ++ .emit .latch true :: after) : before = .emit .oe true :: shiftOut n m := by
  have hsplit : updateTrace n m = (.emit .oe true :: shiftOut n m) ++ .emit .latch true ::
      [.delay .settle, .emit .latch false, .delay .settle, .emit .oe false] := by
    simp [updateTrace, latchOp, pulse]
  have hfirst : Event.emit .latch true ∉ Event.emit .oe true :: shiftOut n m := by
    simp [latchRise_not_mem_shiftOut]
  have hrest : Event.emit .latch true ∉
      [Event.delay .settle, .emit .latch false, .delay .settle, .emit .oe false] := by decide
  rw [hsplit] at h
  obtain ⟨hbefore, -, -⟩ := (List.append_cons_inj_of_notMem hfirst hrest).mp h
  exact hbefore.symm

theorem traceTime_before_latchRise {n : Nat} {m : Memory} {before after : List Event}
    (h : updateTrace n m = before ++ .emit .latch true :: after) : traceTime before = 16 * n * Config.tSettle := by
  rw [before_latchRise h, traceTime_cons, Event.time_emit, traceTime_shiftOut, Nat.zero_add]

/-! ### The trace of a command (R131, R135, R138 to R141) -/

theorem commandWork_trace_untimed {i : Instr} (hi : durationOf i = none) (s : State) :
    (commandWork i s).trace = s.trace ++ updateTrace s.n.toNat (firstWrite i s).shadow := by
  rw [commandWork_of_untimed hi, State.update_trace, firstWrite_trace, firstWrite_n]

/-- Two whole UPDATEs, the wait between them, the second of the SHADOW the command leaves. -/
theorem commandWork_trace_setrt (idx val : BitVec 8) (dur : BitVec 12) (s : State) :
    (commandWork (.setrt idx val dur) s).trace =
      s.trace ++ updateTrace s.n.toNat (firstWrite (.setrt idx val dur) s).shadow ++ [.delay (.ticks dur)] ++
        updateTrace s.n.toNat (commandWork (.setrt idx val dur) s).shadow := by
  rw [commandWork_setrt]
  simp

/-- How long a command with one UPDATE lasts, once its tests have passed (R220). -/
theorem traceTime_commandWork_untimed {i : Instr} (hi : durationOf i = none) (s : State) :
    traceTime (commandWork i s).trace = traceTime s.trace + (16 * s.n.toNat + 2) * Config.tSettle := by
  rw [commandWork_trace_untimed hi, traceTime_append, traceTime_updateTrace]

/-- A SETRT lasts two UPDATEs and its wait (R220). -/
theorem traceTime_commandWork_setrt (idx val : BitVec 8) (dur : BitVec 12) (s : State) :
    traceTime (commandWork (.setrt idx val dur) s).trace =
      traceTime s.trace + (2 * ((16 * s.n.toNat + 2) * Config.tSettle) + dur.toNat * Config.tTick) := by
  simp only [commandWork_trace_setrt, traceTime_append, traceTime_updateTrace, traceTime_cons, traceTime_nil,
    Event.time_ticks]
  ring

/-- A rejected command has no events (R142). -/
theorem trace_of_rejected {i : Instr} {s t : State} (h : exec i s = .next t) (hne : t.last ≠ .ok) :
    t.trace = s.trace := by
  rcases exec_rejected_or_completed h with ⟨-, e, rfl⟩ | ⟨hok, -⟩
  · rfl
  · exact absurd hok hne

/-- Settles O42: the times follow from the traces, and the one rising edge of LATCH in an UPDATE fixes its instant. -/
theorem howLongCommandsLast : Obligations.HowLongCommandsLast := by
  unfold Obligations.HowLongCommandsLast
  refine ⟨traceTime_updateTrace, ?completed, ?rejected, ?latchInstant, ?hold⟩
  case completed =>
    intro i s t hexec hok
    rw [eq_commandWork_of_ok hexec hok, State.respond_trace]
    cases hd : durationOf i with
    | none => exact traceTime_commandWork_untimed hd s
    | some dur =>
      obtain ⟨idx, val, rfl⟩ := setrt_of_durationOf hd
      exact traceTime_commandWork_setrt idx val dur s
  case rejected => exact fun i s t hexec hne => congrArg traceTime (trace_of_rejected hexec hne)
  case latchInstant =>
    refine fun n m => ⟨List.head?_cons, ?_, fun _ _ h => traceTime_before_latchRise h⟩
    rw [updateTrace_eq_updateHead, List.getLast?_concat]
  case hold =>
    intro idx val dur s t hexec hok
    have htrace := commandWork_trace_setrt idx val dur s
    rw [eq_commandWork_of_ok hexec hok, State.respond_trace, State.respond_shadow]
    exact ⟨_, [.delay (.ticks dur)], htrace, by simp [Event.isEmit], by simp⟩

end Sys2Proof.Machine
end

