-- ==== Sys2Proof/Proofs/RelayOperands.lean ====
section
/-! The operands of the relay commands, bit by bit: what the interlock predicate reads (R132), and where each bit of a merged
byte comes from (R133). -/

namespace Sys2Proof.Machine

/-! ### The two masks -/

theorem getLsbD_nibbleMask (j : Nat) : Config.nibbleMask.getLsbD j = decide (j < 4) := by
  have hones : Config.nibbleMask = BitVec.ofNat 8 (2 ^ 4 - 1) := rfl
  rw [hones, BitVec.getLsbD_ofNat, Nat.testBit_two_pow_sub_one, ← Bool.decide_and]
  exact decide_eq_decide.mpr (by omega)

theorem getLsbD_highMask (j : Nat) : Config.highMask.getLsbD j = (decide (j < 8) && !decide (j < 4)) := by
  have hnot : Config.highMask = ~~~Config.nibbleMask := by decide
  rw [hnot, BitVec.getLsbD_not, getLsbD_nibbleMask]

/-! ### The merge (R133) -/

/-- Bit by bit, a merged byte is the request below bit 4 and the old byte from there on. -/
theorem getLsbD_merge (old v : Byte) (j : Nat) :
    (merge old v).getLsbD j = if j < 4 then v.getLsbD j else old.getLsbD j := by
  rw [merge, BitVec.getLsbD_or, BitVec.getLsbD_and, BitVec.getLsbD_and, getLsbD_highMask, getLsbD_nibbleMask]
  by_cases hlow : j < 4
  · simp [hlow]
  · by_cases hbyte : j < 8
    · simp [hlow, hbyte]
    · simp [hlow, hbyte, BitVec.getLsbD_of_ge old j (Nat.le_of_not_lt hbyte)]

theorem merge_eq (old v : Byte) : merge old v = (old &&& 0xF0) ||| (v &&& 0x0F) := rfl

/-- Settles O28: each bit of the merge, on its side of bit 4. -/
theorem mergeReplacesLowNibble : Obligations.MergeReplacesLowNibble := by
  unfold Obligations.MergeReplacesLowNibble
  refine fun old v => ⟨fun j hj => ?_, fun j hj => ?_, merge_eq old v⟩
  · rw [getLsbD_merge, if_pos hj]
  · rw [getLsbD_merge, if_neg (Nat.not_lt.mpr hj)]

/-! ### The interlock predicate (R132) -/

theorem contra_iff (v : Byte) : contra v = true ↔ v &&& 0x03 ≠ 0 ∧ v &&& 0x0C ≠ 0 := by
  simp [contra, Config.inflateMask, Config.deflateMask]

/-- The predicate reads bits 3 to 0 only. -/
theorem contra_lowNibble (v : Byte) : contra (v &&& Config.nibbleMask) = contra v := by
  have hinflate : Config.nibbleMask &&& Config.inflateMask = Config.inflateMask := by decide
  have hdeflate : Config.nibbleMask &&& Config.deflateMask = Config.deflateMask := by decide
  simp only [contra, BitVec.and_assoc, hinflate, hdeflate]

/-- A byte masked to its low nibble is the four-bit word of that nibble. -/
theorem and_nibbleMask_eq_setWidth (v : Byte) : v &&& Config.nibbleMask = (v.setWidth 4).setWidth 8 := by
  refine BitVec.eq_of_getLsbD_eq fun j hj => ?_
  rw [BitVec.getLsbD_and, getLsbD_nibbleMask, BitVec.getLsbD_setWidth, BitVec.getLsbD_setWidth, Bool.and_comm]
  simp [hj]

/-- The table of R132, over the sixteen nibbles. -/
theorem contra_nibble_table : ∀ u : BitVec 4,
    (contra (u.setWidth 8) = true ↔
      u.setWidth 8 ∈ ([0x5, 0x6, 0x7, 0x9, 0xA, 0xB, 0xD, 0xE, 0xF] : List Byte)) ∧
    (contra (u.setWidth 8) = false ↔ u.setWidth 8 ∈ ([0x0, 0x1, 0x2, 0x3, 0x4, 0x8, 0xC] : List Byte)) := by
  decide

/-- Settles O27: the verdict on a byte is that on its low nibble, and there are sixteen of those. -/
theorem interlockPredicateTable : Obligations.InterlockPredicateTable := by
  unfold Obligations.InterlockPredicateTable
  intro v
  obtain ⟨hrejected, hallowed⟩ := contra_nibble_table (v.setWidth 4)
  rw [← and_nibbleMask_eq_setWidth, contra_lowNibble] at hrejected hallowed
  exact ⟨hrejected, hallowed, contra_iff v⟩

end Sys2Proof.Machine
end

