-- ==== Sys2Proof/Proofs/RelayCommands.lean ====
section
/-! The relay commands (R131, R138 to R142): a command whose tests reject it does nothing but respond; one whose tests pass
is its SHADOW write and the UPDATE of what it wrote. -/

namespace Sys2Proof.Machine

/-! ### The tests of each command (R172, R173, R176) -/

/-- The bounds test comes first, whichever command takes the index. -/
theorem commandTests_of_index_out {i : Instr} {idx : BitVec 8} {s : State} (hi : indexOf i = some idx)
    (hidx : ¬idx.toNat < s.n.toNat) : commandTests i s = some .indexError := by
  have hset (v : Byte) : s.setTests idx v = some .indexError := by rw [State.setTests_eq, if_neg hidx]
  have hindex : s.testIndex idx = some .indexError := by rw [State.testIndex_eq, if_neg hidx]
  cases i with
  | setr _ val => cases hi; exact hset val
  | setrt _ val _ => cases hi; exact hset val
  | inflate _ => cases hi; exact hset _
  | deflate _ => cases hi; exact hset _
  | hold _ => cases hi; exact hindex
  | holdall => cases hi

theorem State.setTests_of_contra {s : State} {idx : BitVec 8} {v : Byte} (hidx : idx.toNat < s.n.toNat)
    (hv : contra v = true) : s.setTests idx v = some .invalidStateError := by
  rw [State.setTests_eq, if_pos hidx, if_pos hv]

theorem State.setTests_of_allowed {s : State} {idx : BitVec 8} {v : Byte} (hidx : idx.toNat < s.n.toNat)
    (hv : contra v = false) : s.setTests idx v = none := by
  simp [State.setTests_eq, hidx, hv]

theorem State.testIndex_of_lt {s : State} {idx : BitVec 8} (hidx : idx.toNat < s.n.toNat) : s.testIndex idx = none := by
  rw [State.testIndex_eq, if_pos hidx]

/-! ### Rejection (R142) and completion -/

theorem State.execute_of_test_fires {s : State} (hc : s.cfgErr = false) (e : Status) (work : State → State) :
    s.execute (some e) work = s.rejectedWith e := by
  rw [State.execute, hc]
  rfl

theorem State.execute_of_tests_pass {s : State} (hc : s.cfgErr = false) (work : State → State) :
    s.execute none work = (work s).respond .ok := by
  rw [State.execute, hc]
  rfl

theorem exec_of_test_fires {i : Instr} {s : State} {e : Status} (hc : s.cfgErr = false)
    (ht : commandTests i s = some e) : exec i s = .next (s.rejectedWith e) := by
  rw [exec_eq, ht, State.execute_of_test_fires hc]

theorem exec_of_tests_pass {i : Instr} {s : State} (hc : s.cfgErr = false) (ht : commandTests i s = none) :
    exec i s = .next ((commandWork i s).respond .ok) := by
  rw [exec_eq, ht, State.execute_of_tests_pass hc]

theorem exec_of_index_out {i : Instr} {idx : BitVec 8} {s : State} (hi : indexOf i = some idx) (hc : s.cfgErr = false)
    (hidx : ¬idx.toNat < s.n.toNat) : exec i s = .next (s.rejectedWith .indexError) :=
  exec_of_test_fires hc (commandTests_of_index_out hi hidx)

/-- Settles O11: a word either is rejected, which is the response alone, or answers OK. -/
theorem rejectedCommandChangesNothing : Obligations.RejectedCommandChangesNothing := by
  unfold Obligations.RejectedCommandChangesNothing
  intro w s t hexec hlast
  rcases execWord_cases w (s.accept w) with ⟨e, hrejected⟩ | ⟨-, i, -, -, hcompleted⟩
  · cases hrejected.symm.trans hexec
    exact ⟨rfl, rfl, rfl, rfl, rfl, rfl, rfl, rfl, rfl, rfl, rfl, rfl⟩
  · cases hcompleted.symm.trans hexec
    exact absurd rfl hlast

/-! ### The lines after an UPDATE, from any lines (R25, R105, R151) -/

/-- After the bits of a byte CLOCK is low and DATA is the last of them, bit 0, wherever the lines stood before. -/
theorem State.emitAll_shiftBits_lines (s : State) (b : Nat) (v : Byte) :
    (s.emitAll (shiftBits (b + 1) v)).clock = false ∧ (s.emitAll (shiftBits (b + 1) v)).data = v.getLsbD 0 := by
  induction b generalizing s with
  | zero =>
    obtain ⟨hclock, hdata, -⟩ := State.emitAll_pulse_clock (s.emit (.emit .data (v.getLsbD 0)))
    exact ⟨hclock, hdata⟩
  | succ b ih =>
    rw [shiftBits, State.emitAll_append]
    exact ih _

/-- SHIFTOUT ends with chip 0, so with bit 0 of its byte. -/
theorem State.emitAll_shiftOut_lines (s : State) (k : Nat) (m : Memory) :
    (s.emitAll (shiftOut (k + 1) m)).clock = false ∧
      (s.emitAll (shiftOut (k + 1) m)).data = (m.read 0).getLsbD 0 := by
  induction k generalizing s with
  | zero => exact State.emitAll_shiftBits_lines s 7 (m.read 0)
  | succ k ih =>
    rw [shiftOut, State.emitAll_append]
    exact ih _

theorem State.shadowByte_update (s : State) (a : Nat) : s.update.shadowByte a = s.shadowByte a :=
  State.shadowByte_emitAll s _ a

theorem State.update_linesAfterUpdate {s : State} (hn : 0 < s.n.toNat) : s.update.LinesAfterUpdate := by
  obtain ⟨k, hk⟩ := Nat.exists_eq_add_one.mpr hn
  obtain ⟨hclock, hdata⟩ := State.emitAll_shiftOut_lines (s.emit (.emit .oe true)) k s.shadow
  rw [← hk] at hclock hdata
  obtain ⟨hlLatch, hlData, hlClock, -⟩ :=
    State.emitAll_pulse_latch ((s.emit (.emit .oe true)).emitAll (shiftOut s.n.toNat s.shadow))
  rw [State.LinesAfterUpdate, State.shadowByte_update, State.update_eq_updateHead, updateHead, State.emitAll_cons,
    State.emitAll_append]
  exact ⟨rfl, hlClock.trans hclock, hlLatch, hlData.trans hdata⟩

/-! ### What a completed command leaves -/

/-- The last thing a command does is an UPDATE of a block with the same N. -/
theorem commandWork_linesAfterUpdate (i : Instr) {s : State} (hn : 0 < s.n.toNat) :
    (commandWork i s).LinesAfterUpdate := by
  cases hd : durationOf i with
  | none =>
    rw [commandWork_of_untimed hd]
    exact State.update_linesAfterUpdate (by rwa [firstWrite_n])
  | some dur =>
    obtain ⟨idx, val, rfl⟩ := setrt_of_durationOf hd
    rw [commandWork_setrt]
    exact State.update_linesAfterUpdate (by simpa using hn)

theorem commandWork_completedOk (i : Instr) {s : State} (hn : 0 < s.n.toNat) :
    State.CompletedOk s ((commandWork i s).respond .ok) := by
  obtain ⟨hfixed, -⟩ := commandWork_keepsFixed i s
  exact ⟨⟨rfl, rfl, rfl, rfl, rfl⟩, hfixed, commandWork_linesAfterUpdate i hn⟩

@[simp] theorem firstWrite_holdCnt (i : Instr) (s : State) : (firstWrite i s).holdCnt = s.holdCnt := by cases i <;> rfl

/-- A command with one UPDATE, once its tests pass: SHADOW is what its write left, and the trace is the UPDATE of that. -/
theorem exec_untimed_completes {i : Instr} {s : State} (hi : durationOf i = none) (hc : s.cfgErr = false)
    (hn : 0 < s.n.toNat) (ht : commandTests i s = none) :
    ∃ t, exec i s = .next t ∧ t.shadow = (firstWrite i s).shadow ∧ t.holdCnt = s.holdCnt ∧
      State.TraceGrewBy s t (updateTrace s.n.toNat t.shadow) ∧ State.CompletedOk s t := by
  have hwork : commandWork i s = (firstWrite i s).update := commandWork_of_untimed hi s
  have hshadow : (commandWork i s).shadow = (firstWrite i s).shadow := by rw [hwork, State.update_shadow]
  have htrace : (commandWork i s).trace = s.trace ++ updateTrace s.n.toNat (commandWork i s).shadow := by
    rw [commandWork_trace_untimed hi, hshadow]
  refine ⟨(commandWork i s).respond .ok, exec_of_tests_pass hc ht, hshadow, ?_, htrace, commandWork_completedOk i hn⟩
  rw [State.respond_holdCnt, hwork, State.update_holdCnt, firstWrite_holdCnt]

/-- A command with one UPDATE that writes one chip byte. -/
theorem exec_writes_one_byte {i : Instr} {idx : BitVec 8} {v : Byte} {s : State} (hi : durationOf i = none)
    (hw : firstWrite i s = s.writeShadow idx v) (hc : s.cfgErr = false) (hidx : idx.toNat < s.n.toNat)
    (ht : commandTests i s = none) :
    ∃ t, exec i s = .next t ∧ t.shadowByte idx.toNat = v ∧ State.SameShadowBut s t idx.toNat ∧
      t.holdCnt = s.holdCnt ∧ State.TraceGrewBy s t (updateTrace s.n.toNat t.shadow) ∧ State.CompletedOk s t := by
  obtain ⟨t, hexec, hshadow, hrest⟩ := exec_untimed_completes hi hc (Nat.zero_lt_of_lt hidx) ht
  have hbyte (a : Nat) : t.shadowByte a = if a = idx.toNat then v else s.shadowByte a := by
    rw [State.shadowByte, hshadow, hw]
    exact State.shadowByte_writeShadow s idx v a
  exact ⟨t, hexec, (hbyte _).trans (if_pos rfl), fun a ha => (hbyte a).trans (if_neg ha), hrest⟩

/-! ### The commands -/

/-- Settles O16: the two tests in their order, then one written byte. -/
theorem setrSetsTheNibbleAndUpdates : Obligations.SetrSetsTheNibbleAndUpdates := by
  unfold Obligations.SetrSetsTheNibbleAndUpdates
  refine fun idx val s hc => ⟨exec_of_index_out rfl hc, fun hidx hboth => ?rejected, fun hidx hone => ?completed⟩
  case rejected => exact exec_of_test_fires hc (State.setTests_of_contra hidx ((contra_iff val).mpr hboth))
  case completed =>
    have hv : contra val = false := by rwa [← Bool.not_eq_true, contra_iff]
    exact exec_writes_one_byte rfl rfl hc hidx (State.setTests_of_allowed hidx hv)

/-- INFLATE and DEFLATE are SETR of a constant request (R138, R139). -/
theorem exec_inflate_eq_setr (idx : BitVec 8) (s : State) : exec (.inflate idx) s = exec (.setr idx 0x03) s := rfl

theorem exec_deflate_eq_setr (idx : BitVec 8) (s : State) : exec (.deflate idx) s = exec (.setr idx 0x0C) s := rfl

theorem merge_inflatePair (old : Byte) : merge old 0x03 = (old &&& 0xF0) ||| 0x03 := rfl

theorem merge_deflatePair (old : Byte) : merge old 0x0C = (old &&& 0xF0) ||| 0x0C := rfl

/-- Settles O18: SETR of a request with the inflate pair alone, which the interlock allows. -/
theorem inflateSetsTheInflatePair : Obligations.InflateSetsTheInflatePair := by
  unfold Obligations.InflateSetsTheInflatePair
  refine fun idx s => ⟨exec_inflate_eq_setr idx s, exec_of_index_out rfl, fun hc hidx => ?_⟩
  rw [exec_inflate_eq_setr, ← merge_inflatePair]
  exact exec_writes_one_byte rfl rfl hc hidx (State.setTests_of_allowed hidx (by decide))

/-- Settles O19: SETR of a request with the deflate pair alone, which the interlock allows. -/
theorem deflateSetsTheDeflatePair : Obligations.DeflateSetsTheDeflatePair := by
  unfold Obligations.DeflateSetsTheDeflatePair
  refine fun idx s => ⟨exec_deflate_eq_setr idx s, exec_of_index_out rfl, fun hc hidx => ?_⟩
  rw [exec_deflate_eq_setr, ← merge_deflatePair]
  exact exec_writes_one_byte rfl rfl hc hidx (State.setTests_of_allowed hidx (by decide))

/-- Settles O20: the bounds test, then one byte written with its low nibble cleared. -/
theorem holdClearsOneChip : Obligations.HoldClearsOneChip := by
  unfold Obligations.HoldClearsOneChip
  exact fun idx s hc => ⟨exec_of_index_out rfl hc, fun hidx =>
    exec_writes_one_byte rfl rfl hc hidx (State.testIndex_of_lt hidx)⟩

/-- Settles O21: HOLDALL has no test, its loop clears the bytes below N, and the one UPDATE follows the loop. -/
theorem holdallClearsEveryChip : Obligations.HoldallClearsEveryChip := by
  unfold Obligations.HoldallClearsEveryChip
  intro s hc hn
  obtain ⟨t, hexec, hshadow, hrest⟩ := exec_untimed_completes (i := .holdall) rfl hc hn rfl
  refine ⟨t, hexec, fun a => ?_, hrest⟩
  rw [State.shadowByte, hshadow]
  exact State.shadowByte_holdAllShadow s a

/-! ### The wait of a SETRT (R135, R136) -/

theorem seqCheck_of_tests_pass {s : State} {i : Instr} (hd : decode s.cmd.word = .legal i) (hc : s.cfgErr = false)
    (ht : commandTests i s = none) : seqCheck s = (firstWrite i s).goto (.oeOff .first) := by
  simp [seqCheck, hc, hd, ht]

/-- From acceptance, CHECK and the first UPDATE of a SETRT whose tests pass lead to its wait. -/
theorem advances_acceptSetrt {w : CmdWord} {idx val : BitVec 8} {dur : BitVec 12} {s : State}
    (hd : decode w = .legal (.setrt idx val dur)) (hc : s.cfgErr = false) (ht : s.setTests idx val = none) :
    Advances (1 + (40 * s.n.toNat + 6)) (s.accept w)
      ({ ((s.accept w).mergeShadow idx val).update with holdCnt := dur }.goto .wait) := by
  have hlatched : decode (s.accept w).cmd.word = .legal (.setrt idx val dur) := by simpa using hd
  have check := advances_check w s
  rw [seqCheck_of_tests_pass hlatched hc ht] at check
  exact check.trans (advances_updateWait (s := (s.accept w).mergeShadow idx val) rfl hlatched)

/-- Loading the hold timer and moving SEQ show nothing else on the chain. -/
theorem State.chainShowsShadow_wait_iff (s : State) (dur : BitVec 12) :
    ({ s with holdCnt := dur }.goto .wait).ChainShowsShadow ↔ s.ChainShowsShadow := Iff.rfl

/-- Settles O58: the state the wait begins in is the one the first UPDATE left, with the hold timer loaded. -/
theorem setrtHoldsTheRequestWhileWaiting : Obligations.SetrtHoldsTheRequestWhileWaiting := by
  unfold Obligations.SetrtHoldsTheRequestWhileWaiting
  intro idx val dur s hc hidx hv
  have hrun := advances_acceptSetrt (decode_encode (.setrt idx val dur)) hc (State.setTests_of_allowed hidx hv)
  have hbyte (u : State) (a : Nat) := (State.shadowByte_update _ a).trans (State.shadowByte_mergeShadow u idx val a)
  obtain ⟨hoe, -⟩ := State.update_linesAfterUpdate
    (s := (s.accept (encode (.setrt idx val dur))).mergeShadow idx val) (Nat.zero_lt_of_lt hidx)
  refine ⟨_, hrun.run, rfl, State.update_busy _, rfl, hoe, (hbyte _ _).trans (if_pos rfl),
    fun a ha => (hbyte _ a).trans (if_neg ha), by simp, fun hfit hidle => ?_⟩
  exact (State.chainShowsShadow_wait_iff _ dur).mpr (State.update_chainShowsShadow hfit hidle)

end Sys2Proof.Machine
end

