-- ==== Sys2Proof/Proofs/Exceptions.lean ====
section
/-! Errors, stops and construction (60_exceptions.md): which error an accepted word reports (R171 to R176), what no step but a
construction writes, when a step stops (R179, R190), and what power-on leaves (R192). -/

namespace Sys2Proof.Machine

/-! ### Illegal words (R174) -/

theorem execWord_of_illegal_configured {w : CmdWord} {why : IllegalWord} {s : State} (hc : s.cfgErr = false)
    (hd : decode w = .illegal why) : execWord w s = .next (s.rejectedWith .illegalCommand) := by
  rw [execWord_of_illegal hd, executeIllegal_of_configured hc]

/-- Settles O8: the step executes the presented word on the accepted state. -/
theorem illegalWordIsRejected : Obligations.IllegalWordIsRejected := by
  unfold Obligations.IllegalWordIsRejected
  intro s why hq hb hv he hc hd
  calc step s = acceptStep s := step_of_presented hq hb hv
    _ = execWord s.inputs.cmd (s.accept s.inputs.cmd) := acceptStep_whole he
    _ = .next ((s.accept s.inputs.cmd).rejectedWith .illegalCommand) := execWord_of_illegal_configured hc hd

/-! ### The order of the tests (R176) -/

/-- With the index in bounds, the interlock test answers a contradictory request. -/
theorem commandTests_of_contra {i : Instr} {val : Byte} {s : State}
    (hidx : ∀ idx, indexOf i = some idx → idx.toNat < s.n.toNat) (hr : requestOf i = some val) (hv : contra val = true) :
    commandTests i s = some .invalidStateError := by
  cases i with
  | setr idx _ => cases hr; exact State.setTests_of_contra (hidx idx rfl) hv
  | setrt idx _ _ => cases hr; exact State.setTests_of_contra (hidx idx rfl) hv
  | inflate _ => cases hr
  | deflate _ => cases hr
  | hold _ => cases hr
  | holdall => cases hr

/-- With the index in bounds and no contradictory request no test fires; the requests of INFLATE and DEFLATE are constants
that the interlock allows. -/
theorem commandTests_of_allowed {i : Instr} {s : State} (hidx : ∀ idx, indexOf i = some idx → idx.toNat < s.n.toNat)
    (hr : ∀ val, requestOf i = some val → contra val = false) : commandTests i s = none := by
  cases i with
  | setr idx val => exact State.setTests_of_allowed (hidx idx rfl) (hr val rfl)
  | setrt idx val _ => exact State.setTests_of_allowed (hidx idx rfl) (hr val rfl)
  | inflate idx => exact State.setTests_of_allowed (hidx idx rfl) (by decide)
  | deflate idx => exact State.setTests_of_allowed (hidx idx rfl) (by decide)
  | hold idx => exact State.testIndex_of_lt (hidx idx rfl)
  | holdall => rfl

/-- Settles O10: each test is asked only when the ones before it pass. -/
theorem orderOfTests : Obligations.OrderOfTests := by
  unfold Obligations.OrderOfTests
  refine fun w s => ⟨execWord_of_cfgErr w, fun hc _ hd => execWord_of_illegal_configured hc hd, fun hc i hd => ?_⟩
  rw [execWord_of_legal hd]
  refine ⟨fun idx hi hout => exec_of_index_out hi hc hout, fun hin => ⟨fun val hr hv => ?interlock, fun hr => ?completed⟩⟩
  case interlock => exact exec_of_test_fires hc (commandTests_of_contra hin hr hv)
  case completed => exact ⟨_, exec_of_tests_pass hc (commandTests_of_allowed hin hr), rfl, rfl, rfl, rfl, rfl⟩

/-! ### What no step but a construction writes (R21, R22, R171) -/

section
variable {s : State}

theorem seqCheck_sameFixed : State.SameFixed s (seqCheck s) := by
  rcases seqCheck_cases s with ⟨e, h, -⟩ | ⟨-, i, -, -, h⟩ <;> rw [h]
  · exact ⟨rfl, rfl, rfl, rfl⟩
  · obtain ⟨hfixed, -⟩ := firstWrite_keepsFixed i s
    exact hfixed

theorem seqShift_sameFixed (u : UpdateNo) (k b : Nat) (p : CellPhase) : State.SameFixed s (seqShift u k b s p) := by
  cases p <;> simp [seqShift, State.SameFixed]

theorem seqLatch_sameFixed (u : UpdateNo) (p : LatchPhase) : State.SameFixed s (seqLatch u s p) := by
  cases p <;> simp [seqLatch, State.SameFixed]

theorem seqOeOn_sameFixed (u : UpdateNo) : State.SameFixed s (seqOeOn u s) := by
  rcases seqOeOn_cases u s with ⟨-, _, _, _, -, h⟩ | ⟨h, -⟩ <;> simp [h, State.SameFixed]

theorem seqWait_sameFixed : State.SameFixed s (seqWait s) := by
  unfold seqWait
  split <;> simp [State.SameFixed]

theorem seqStep_sameFixed {t : State} (h : seqStep s = .next t) : State.SameFixed s t := by
  rcases seqStep_cases s with ⟨-, hs⟩ | ⟨-, hs⟩ | ⟨u, -, hs⟩ | ⟨u, k, b, p, -, -, hs⟩ | ⟨u, k, b, p, -, -, hs⟩ |
    ⟨u, p, -, hs⟩ | ⟨u, -, hs⟩ | ⟨-, hs⟩ <;> cases hs.symm.trans h
  · exact seqCheck_sameFixed
  · simp [State.SameFixed]
  · exact seqShift_sameFixed u k b p
  · exact seqLatch_sameFixed u p
  · exact seqOeOn_sameFixed u
  · exact seqWait_sameFixed

end

theorem execWord_sameFixed {w : CmdWord} {s t : State} (h : execWord w s = .next t) : State.SameFixed s t := by
  obtain ⟨hword, -⟩ := everyAcceptedWordResponds
  obtain ⟨t', _, hexec, -, hfixed, -⟩ := hword w s
  cases hexec.symm.trans h
  exact hfixed

/-- A construction (R200, R201): RESET or power-on is held, and N and CFG_ERR follow the CHIP_COUNT then present. -/
def State.Constructs (s t : State) : Prop :=
  (s.inputs.reset = true ∨ s.inputs.powerUp = true) ∧ t.n = s.inputs.chipCount ∧ t.cfgErr = (s.inputs.chipCount == 0)

/-- A step that answers a next state is a construction, or writes neither N nor CFG_ERR. -/
theorem StepCase.constructs_or_sameFixed {s t : State} {o : Host.Outcome State Fault Refusal} (hc : StepCase s o)
    (ho : o = .next t) : s.Constructs t ∨ State.SameFixed s t := by
  cases hc with
  | foreignDriver _ => cases ho
  | hostFault _ => cases ho
  | powerUp h => cases ho; exact .inl ⟨.inr h, rfl, rfl⟩
  | reset h => cases ho; exact .inl ⟨.inl h, rfl, rfl⟩
  | busy _ => exact .inr (seqStep_sameFixed ho)
  | acceptEvent _ _ => cases ho; exact .inr ⟨rfl, rfl, rfl, rfl⟩
  | acceptWhole _ _ => exact .inr (execWord_sameFixed (s := s.accept _) ho)
  | idle _ _ => cases ho; exact .inr ⟨rfl, rfl, rfl, rfl⟩

/-- Settles O9: no command writes CFG_ERR, and a construction clears it only for a CHIP_COUNT other than 0. -/
theorem configErrorUntilValidReset : Obligations.ConfigErrorUntilValidReset := by
  unfold Obligations.ConfigErrorUntilValidReset
  refine ⟨fun s => ⟨rfl, rfl⟩, fun s w hc => execWord_of_cfgErr w hc, fun s t hstep hset hcleared => ?_⟩
  rcases (step_cases s).constructs_or_sameFixed hstep with ⟨hheld, -, hcfg⟩ | ⟨-, hcfg, -⟩
  · have hcount : s.inputs.chipCount ≠ 0 := ne_of_beq_false (hcfg.symm.trans hcleared)
    exact ⟨hheld, Nat.one_le_iff_ne_zero.mpr fun h => hcount (BitVec.eq_of_toNat_eq h)⟩
  · rw [hset, hcleared] at hcfg
    cases hcfg

/-! ### Stops (R179, R190) -/

theorem step_of_foreignDriver {s : State} (h : s.inputs.foreignDriver = true) : step s = .refused .secondDriver :=
  if_pos h

theorem step_of_hostFault {s : State} (hforeign : s.inputs.foreignDriver = false) (hpower : s.inputs.powerUp = false)
    (hreset : s.inputs.reset = false) (hfault : s.inputs.hostFault = true)
    (hrun : s.busy = true ∨ s.inputs.cmdValid = true) : step s = .fault .hostFault := by
  simp [step, hforeign, hpower, hreset, hfault, hrun]

/-- Settles O15: the second driver is the first thing a step looks at, and the fault comes next after the constructions. -/
theorem foreignDriverAndHostFaultHaveNoStep : Obligations.ForeignDriverAndHostFaultHaveNoStep := by
  unfold Obligations.ForeignDriverAndHostFaultHaveNoStep
  exact ⟨fun _ => step_of_foreignDriver, fun _ => step_of_hostFault⟩

/-! ### Power-on (R192, R201) -/

theorem step_of_powerUp {s : State} (hforeign : s.inputs.foreignDriver = false) (hpower : s.inputs.powerUp = true) :
    step s = .next (s.powerOn s.inputs.chipCount) := by
  simp [step, hforeign, hpower]

/-- A SHADOW with no entry reads the reset value at every index (R42, log 19). -/
theorem Memory.bytes_nil (n : Nat) : Memory.bytes n [] = List.replicate n 0 := by
  induction n with
  | zero => rfl
  | succ n ih => rw [Memory.bytes_succ, ih, Memory.read_nil, List.replicate_succ']; rfl

/-- Disabled outputs energise no relay (R39, log 13). -/
theorem State.relay_of_oeDis {s : State} (h : s.oeDis = true) (k j : Nat) : s.relay k j = false := by
  simp [State.relay, h]

/-- Settles O44, field by field of the state power-on gives. -/
theorem powerOnGivesResetState : Obligations.PowerOnGivesResetState := by
  unfold Obligations.PowerOnGivesResetState
  intro s hforeign hpower
  have drawn (f : Nat → Byte) {n k : Nat} (hk : k < n) : ((List.range n).map f)[k]? = some (f k) := by simp [hk]
  refine ⟨s.powerOn s.inputs.chipCount, step_of_powerUp hforeign hpower, rfl, rfl, rfl, rfl, rfl, rfl, rfl, rfl,
    beq_iff_eq, rfl, rfl, Memory.bytes_nil _, rfl, rfl, rfl, ?srLength, ?outLength, fun _ => drawn _, fun _ => drawn _,
    rfl, State.relay_of_oeDis rfl⟩
  case srLength => simp
  case outLength => simp

end Sys2Proof.Machine
end

