-- ==== Sys2Proof/Proofs/Reset.lean ====
section
/-! RESET from any state (70_reset_and_hazards.md section 1, R200, R202, R203; 60_exceptions.md R181). -/

namespace Sys2Proof.Machine

/-- RESET wins over everything but a second driver (log 17) and power-on: a command in execution, a presented word and a
host fault are not looked at (R181). -/
theorem step_of_reset {s : State} (hforeign : s.inputs.foreignDriver = false) (hpower : s.inputs.powerUp = false)
    (hreset : s.inputs.reset = true) : step s = .next (s.resetTo s.inputs.chipCount) := by
  simp [step, hforeign, hpower, hreset]

/-- After RESET every byte within N reads the reset value: the SHADOW holds no entry (R42, log 19). -/
theorem State.resetTo_shadowBytes (s : State) (c : BitVec 8) :
    (s.resetTo c).shadowBytes = List.replicate c.toNat 0 := by
  rw [State.shadowBytes, State.resetTo_shadow, State.resetTo_n, Memory.bytes_nil]

/-- CFG_ERR after RESET says that the CHIP_COUNT sampled is 0 (R22). -/
theorem State.resetTo_cfgErr_iff (s : State) (c : BitVec 8) : (s.resetTo c).cfgErr = true ↔ c = 0 := by
  rw [State.resetTo_cfgErr, beq_iff_eq]

/-- Settles O43: the step is the construction `State.resetTo`, whose fields are read off one by one; the relays are off
because the outputs are disabled (log 13), whatever the chain still holds (R202). -/
theorem resetFromAnyState : Obligations.ResetFromAnyState := by
  unfold Obligations.ResetFromAnyState
  intro s hforeign hpower hreset
  have relays_off (k j : Nat) : (s.resetTo s.inputs.chipCount).relay k j = false :=
    State.relay_of_oeDis (s.resetTo_oeDis _) k j
  exact ⟨s.resetTo s.inputs.chipCount, step_of_reset hforeign hpower hreset, rfl, rfl, rfl, rfl, rfl, rfl, rfl, rfl,
    s.resetTo_cfgErr_iff _, rfl, s.resetTo_shadowBytes _, rfl, rfl, rfl, rfl, relays_off⟩

end Sys2Proof.Machine
end

