-- ==== Sys2Proof/Proofs/EncoderFormula.lean ====
section
/-! The encoder's formulas on numbers (R86), and words the test vectors write out (95_test_vectors.md 2.1). -/

namespace Sys2Proof.Machine

/-! ### A field at its place, as a number -/

/-- A field shifted to a place that leaves it inside the word keeps all its bits. -/
theorem toNat_setWidth_shiftLeft {len : Nat} (x : BitVec len) {place : Nat} (h : len + place ≤ 32) :
    (x.setWidth 32 <<< place).toNat = x.toNat <<< place := by
  have hfit : x.toNat * 2 ^ place < 2 ^ 32 :=
    calc x.toNat * 2 ^ place < 2 ^ len * 2 ^ place := Nat.mul_lt_mul_of_pos_right x.isLt (Nat.two_pow_pos place)
      _ = 2 ^ (len + place) := (Nat.pow_add 2 len place).symm
      _ ≤ 2 ^ 32 := Nat.pow_le_pow_right (by decide) h
  rw [BitVec.toNat_shiftLeft, BitVec.toNat_setWidth_of_le (by omega), Nat.shiftLeft_eq, Nat.mod_eq_of_lt hfit]

theorem toNat_placeIdx (idx : BitVec 8) : (placeIdx idx).toNat = idx.toNat <<< 20 :=
  toNat_setWidth_shiftLeft idx (by decide)

theorem toNat_placeVal (val : BitVec 8) : (placeVal val).toNat = val.toNat <<< 12 :=
  toNat_setWidth_shiftLeft val (by decide)

theorem toNat_placeDur (dur : BitVec 12) : (placeDur dur).toNat = dur.toNat :=
  BitVec.toNat_setWidth_of_le (by decide)

/-! ### The statements -/

/-- Settles O1: an OR of words is the OR of their numbers, each field's number is the field at its place, and the two
inverses hold because a word is its fields and a command fixes them. -/
theorem encodeAndDecodeAreInverse : Obligations.EncodeAndDecodeAreInverse := by
  unfold Obligations.EncodeAndDecodeAreInverse
  refine ⟨fun idx val => ?setr, fun idx val dur => ?setrt, fun idx => ?inflate, fun idx => ?deflate, fun idx => ?hold, rfl,
    decode_encode, fun _ _ => encode_of_decode⟩
  case setr => rw [encode, BitVec.toNat_or, BitVec.toNat_or, toNat_placeIdx, toNat_placeVal]; rfl
  case setrt =>
    rw [encode, BitVec.toNat_or, BitVec.toNat_or, BitVec.toNat_or, toNat_placeIdx, toNat_placeVal, toNat_placeDur]; rfl
  case inflate | deflate | hold => rw [encode, BitVec.toNat_or, toNat_placeIdx]; rfl

/-- Settles O5: each word's fields, compared with the command's. -/
theorem writtenWordsDecode : Obligations.WrittenWordsDecode := by
  unfold Obligations.WrittenWordsDecode
  refine ⟨decode_of_fields ?_ ?_ ?_ ?_, decode_of_fields ?_ ?_ ?_ ?_, decode_of_fields ?_ ?_ ?_ ?_,
    decode_of_fields ?_ ?_ ?_ ?_, decode_of_fields ?_ ?_ ?_ ?_, decode_of_fields ?_ ?_ ?_ ?_,
    decode_of_opc_reserved ?_, decode_of_opc_reserved ?_⟩
  all_goals decide

end Sys2Proof.Machine
end

