-- ==== Sys2Proof/Proofs/ShadowWrites.lean ====
section
/-! What a step writes to SHADOW (R40, R41).  An invariant is shown over the positions of SEQ, and a whole command is a run of
them (D22); every byte a position writes keeps its high nibble, and lies below N or is the byte of an index that does not
exist with its low nibble cleared. -/

namespace Sys2Proof.Machine

/-! ### Invariants over positions -/

/-- What every position keeps, a run of positions keeps. -/
theorem seqRun_keeps {P : State → Prop} (hseq : ∀ s t, P s → seqStep s = .next t → P t) {k : Nat} {s t : State}
    (hs : P s) (h : seqRun k s = .next t) : P t := by
  induction k generalizing s with
  | zero => cases h; exact hs
  | succ k ih =>
    cases hq : seqStep s with
    | next u => exact ih (hseq s u hs hq) (by simpa [seqRun, hq] using h)
    | fault f => simp [seqRun, hq] at h
    | refused r => simp [seqRun, hq] at h

/-- The one transition of a word is the run of its positions, so it keeps what they keep. -/
theorem execWord_keeps {P : State → Prop} (hseq : ∀ s t, P s → seqStep s = .next t → P t) {w : CmdWord} {s t : State}
    (hs : P (s.accept w)) (h : execWord w (s.accept w) = .next t) : P t := by
  obtain ⟨hrun, -⟩ := eventRunEqualsOneTransition w s
  exact seqRun_keeps hseq hs (hrun.trans h)

/-- A step keeps what the constructions establish and acceptance, the positions and an idle step keep. -/
theorem StepCase.keeps {P : State → Prop} {s t : State} {o : Host.Outcome State Fault Refusal} (hc : StepCase s o)
    (ho : o = .next t) (hpower : s.inputs.powerUp = true → P (s.powerOn s.inputs.chipCount))
    (hreset : s.inputs.reset = true → P (s.resetTo s.inputs.chipCount))
    (hseq : ∀ u v, P u → seqStep u = .next v → P v) (haccept : s.busy = false → P s → P (s.accept s.inputs.cmd))
    (hidle : P s → P s.idle) (hs : P s) : P t := by
  cases hc with
  | foreignDriver _ => cases ho
  | hostFault _ => cases ho
  | powerUp hp => cases ho; exact hpower hp
  | reset hr => cases ho; exact hreset hr
  | busy _ => exact hseq s t hs ho
  | acceptEvent hb _ => cases ho; exact haccept hb hs
  | acceptWhole hb _ => exact execWord_keeps hseq (haccept hb hs) ho
  | idle _ _ => cases ho; exact hidle hs

/-! ### The bytes a command writes -/

/-- One write a command may make to a SHADOW of `n` bytes: the high nibble stays, and where the index does not exist the byte
is the old one with its low nibble cleared (R140; no test stands before the write that ends a wait). -/
structure Memory.AllowedWrite (n : Nat) (m m' : Memory) (k : Nat) (v : Byte) : Prop where
  /-- the write -/
  eq_write : m' = m.write k v
  /-- the high nibble (R40) -/
  high : v &&& Config.highMask = m.read k &&& Config.highMask
  /-- the bounds (R41) -/
  inBounds : k < n ∨ v = clearLow (m.read k)

/-- Allowed writes in a row. -/
inductive Memory.Written (n : Nat) (m : Memory) : Memory → Prop where
  | none : Memory.Written n m m
  | write {m' m'' : Memory} {k : Nat} {v : Byte} (hm : Memory.Written n m m')
      (hw : Memory.AllowedWrite n m' m'' k v) : Memory.Written n m m''

theorem Memory.Written.one {n : Nat} {m m' : Memory} {k : Nat} {v : Byte} (h : Memory.AllowedWrite n m m' k v) :
    Memory.Written n m m' :=
  .write .none h

theorem clearLow_and_highMask (old : Byte) : clearLow old &&& Config.highMask = old &&& Config.highMask := by
  rw [clearLow, BitVec.and_assoc, BitVec.and_self]

theorem merge_and_highMask (old v : Byte) : merge old v &&& Config.highMask = old &&& Config.highMask := by
  have hdisjoint : Config.nibbleMask &&& Config.highMask = 0 := by decide
  calc merge old v &&& Config.highMask
      = (old &&& (Config.highMask &&& Config.highMask)) ||| (v &&& (Config.nibbleMask &&& Config.highMask)) := by
        rw [merge, BitVec.and_or_distrib_right, BitVec.and_assoc, BitVec.and_assoc]
    _ = old &&& Config.highMask := by simp [hdisjoint]

theorem Memory.written_merge {n k : Nat} (m : Memory) (v : Byte) (hk : k < n) :
    Memory.Written n m (m.write k (merge (m.read k) v)) :=
  .one ⟨rfl, merge_and_highMask _ _, .inl hk⟩

theorem Memory.written_clearLow (n : Nat) (m : Memory) (k : Nat) : Memory.Written n m (m.write k (clearLow (m.read k))) :=
  .one ⟨rfl, clearLow_and_highMask _, .inr rfl⟩

theorem Memory.written_clearLowUpTo (n : Nat) (m : Memory) (j : Nat) : Memory.Written n m (m.clearLowUpTo j) := by
  induction j with
  | zero => exact .none
  | succ j ih => exact .write ih ⟨rfl, clearLow_and_highMask _, .inr rfl⟩

/-! ### What such writes keep -/

theorem Memory.Written.wf {n : Nat} {m m' : Memory} (h : Memory.Written n m m') (hm : m.wf = true) : m'.wf = true := by
  induction h with
  | none => exact hm
  | write _ hw ih => rw [hw.eq_write]; exact Memory.wf_write _ _ ih

theorem Memory.Written.within {n : Nat} {m m' : Memory} (h : Memory.Written n m m') (hm : m.within n = true) :
    m'.within n = true := by
  induction h with
  | none => exact hm
  | @write m₁ _ k v _ hw ih =>
    rw [hw.eq_write]
    refine Memory.within_write v ih ?_
    by_cases hk : k < n
    · exact .inl hk
    · have hblank : m₁.read k = blankByte := Memory.read_above ih (Nat.le_of_not_lt hk)
      rw [hw.inBounds.resolve_left hk, hblank]
      exact .inr (by decide)

theorem Memory.Written.high {n : Nat} {m m' : Memory} (h : Memory.Written n m m') (a : Nat) :
    m'.read a &&& Config.highMask = m.read a &&& Config.highMask := by
  induction h with
  | none => rfl
  | write _ hw ih =>
    rw [hw.eq_write, Memory.read_write]
    split
    · next ha => rw [hw.high, ← ha, ih]
    · exact ih

/-! ### The writes of a position -/

/-- A request that passed the tests of `setRelays` names a chip that exists (R131, R172). -/
theorem State.index_lt_of_setTests {s : State} {idx : BitVec 8} {v : Byte} (h : s.setTests idx v = none) :
    idx.toNat < s.n.toNat := by
  rw [State.setTests_eq] at h
  by_contra hidx
  rw [if_neg hidx] at h
  cases h

theorem written_firstWrite {i : Instr} {s : State} (ht : commandTests i s = none) :
    Memory.Written s.n.toNat s.shadow (firstWrite i s).shadow := by
  cases i with
  | setr idx val => exact Memory.written_merge _ _ (State.index_lt_of_setTests ht)
  | setrt idx val dur => exact Memory.written_merge _ _ (State.index_lt_of_setTests ht)
  | inflate idx => exact Memory.written_merge _ _ (State.index_lt_of_setTests ht)
  | deflate idx => exact Memory.written_merge _ _ (State.index_lt_of_setTests ht)
  | hold idx => exact Memory.written_clearLow _ _ _
  | holdall => exact Memory.written_clearLowUpTo _ _ _

theorem seqCheck_written (s : State) : Memory.Written s.n.toNat s.shadow (seqCheck s).shadow := by
  rcases seqCheck_cases s with ⟨e, h, -⟩ | ⟨-, i, -, ht, h⟩ <;> rw [h]
  · exact .none
  · exact written_firstWrite ht

/-- All WAIT can do: end with its one event and the SHADOW write of HOLD, or count one period (R136). -/
theorem seqWait_cases (s : State) :
    (s.holdCnt = 0 ∧
      seqWait s = ((s.emit (.delay (.ticks s.cmd.dur))).holdShadow s.cmd.idx).goto (.oeOff .second)) ∨
      (s.holdCnt ≠ 0 ∧ seqWait s = { s with holdCnt := s.holdCnt - 1 }) := by
  by_cases h : s.holdCnt = 0
  · exact .inl ⟨h, if_pos h⟩
  · exact .inr ⟨h, if_neg h⟩

theorem seqWait_written (s : State) : Memory.Written s.n.toNat s.shadow (seqWait s).shadow := by
  rcases seqWait_cases s with ⟨-, h⟩ | ⟨-, h⟩ <;> rw [h]
  · exact Memory.written_clearLow _ _ _
  · exact .none

theorem seqStep_written {s t : State} (h : seqStep s = .next t) : Memory.Written s.n.toNat s.shadow t.shadow := by
  rcases seqStep_cases s with ⟨-, hs⟩ | ⟨-, hs⟩ | ⟨u, -, hs⟩ | ⟨u, k, b, p, -, -, hs⟩ | ⟨u, k, b, p, -, -, hs⟩ |
    ⟨u, p, -, hs⟩ | ⟨u, -, hs⟩ | ⟨-, hs⟩ <;> cases hs.symm.trans h
  · exact seqCheck_written s
  · rw [State.goto_shadow, State.emit_shadow]; exact .none
  · rw [seqShift_shadow]; exact .none
  · rw [seqLatch_shadow]; exact .none
  · rw [seqOeOn_shadow]; exact .none
  · exact seqWait_written s

/-! ### The statements -/

/-- SHADOW is a canonical array of N bytes (R41, log 19). -/
def State.CanonicalShadow (s : State) : Prop := s.shadow.wf = true ∧ s.shadow.within s.n.toNat = true

theorem seqStep_canonicalShadow {s t : State} (hs : s.CanonicalShadow) (h : seqStep s = .next t) :
    t.CanonicalShadow := by
  obtain ⟨hwf, hwithin⟩ := hs
  obtain ⟨hn, -⟩ := seqStep_sameFixed h
  have hwritten := seqStep_written h
  rw [State.CanonicalShadow, hn]
  exact ⟨hwritten.wf hwf, hwritten.within hwithin⟩

/-- Settles O49: the constructions leave the empty list, and each position's writes keep the canonical form and the
bound. -/
theorem stepKeepsCanonicalShadow : Obligations.StepKeepsCanonicalShadow := by
  unfold Obligations.StepKeepsCanonicalShadow
  intro s t hwf hwithin hstep
  exact (step_cases s).keeps (P := State.CanonicalShadow) hstep (fun _ => ⟨rfl, rfl⟩) (fun _ => ⟨rfl, rfl⟩)
    (fun _ _ => seqStep_canonicalShadow) (fun _ hs => hs) (fun hs => hs) ⟨hwf, hwithin⟩

/-- The high nibbles are those of `s`. -/
def State.SameHighNibbles (s t : State) : Prop :=
  ∀ k, t.shadowByte k &&& Config.highMask = s.shadowByte k &&& Config.highMask

theorem seqStep_sameHighNibbles {s t u : State} (ht : s.SameHighNibbles t) (h : seqStep t = .next u) :
    s.SameHighNibbles u :=
  fun k => ((seqStep_written h).high k).trans (ht k)

/-- Settles O48: without a construction a step only accepts, idles, or runs positions, whose writes keep the high nibble. -/
theorem stepKeepsHighNibble : Obligations.StepKeepsHighNibble := by
  unfold Obligations.StepKeepsHighNibble
  intro s t hstep hreset hpower
  exact (step_cases s).keeps (P := State.SameHighNibbles s) hstep (fun h => absurd (hpower.symm.trans h) (by decide))
    (fun h => absurd (hreset.symm.trans h) (by decide)) (fun _ _ => seqStep_sameHighNibbles) (fun _ hs => hs)
    (fun hs => hs) (fun _ => rfl)

/-- Settles O46: N and CFG_ERR are written by a construction only, and the array has N bytes. -/
theorem onlyResetChangesChipCount : Obligations.OnlyResetChangesChipCount := by
  unfold Obligations.OnlyResetChangesChipCount
  intro s t hstep hreset hpower
  rcases (step_cases s).constructs_or_sameFixed hstep with ⟨hheld, -⟩ | ⟨hn, hcfg, -, hinputs⟩
  · simp [hreset, hpower] at hheld
  · exact ⟨hn, hcfg, by rw [State.length_shadowBytes, State.length_shadowBytes, hn], hinputs⟩

end Sys2Proof.Machine
end

