-- ==== Sys2Proof/Proofs/ChainContents.lean ====
section
/-! What the chain holds at each position of SEQ (R106, R116, R117): how many of the wire bits SR has sampled, and the part of
the invariant that is `State.ChainInv`, position by position. -/

namespace Sys2Proof.Machine

/-! ### Wire bits sampled so far -/

/-- SR holds the first `c` wire bits of SHADOW, clocked in after whatever it held before. -/
def State.Sampled (s : State) (c : Nat) : Prop :=
  ∃ old : List Byte, old.length = s.sr.length ∧ s.sr = clockIn ((wireBits s.n.toNat s.shadow).take c) old

theorem State.sampled_zero (s : State) : s.Sampled 0 := ⟨s.sr, rfl, by rw [List.take_zero]; rfl⟩

theorem length_wireBits (n : Nat) (m : Memory) : (wireBits n m).length = 8 * n := by simp [wireBits]

theorem getElem_wireBits {n c : Nat} (m : Memory) (h : c < (wireBits n m).length) : (wireBits n m)[c] = wireBit n m c := by
  simp [wireBits]

/-- A rising edge of CLOCK with the next bit on DATA samples that bit (R114). -/
theorem State.Sampled.clockRise {s : State} {c : Nat} (h : s.Sampled c) (hclock : s.clock = false) (hc : c < 8 * s.n.toNat)
    (hdata : s.data = wireBit s.n.toNat s.shadow c) : (s.emit (.emit .clock true)).Sampled (c + 1) := by
  obtain ⟨old, hlen, hsr⟩ := h
  have hedge : (s.emit (.emit .clock true)).sr = shiftChain s.data s.sr := by simp [hclock]
  have hbit : c < (wireBits s.n.toNat s.shadow).length := by rwa [length_wireBits]
  refine ⟨old, by rw [hedge, length_shiftChain, hlen], ?_⟩
  rw [hedge, State.emit_n, State.emit_shadow, List.take_add_one, List.getElem?_eq_getElem hbit, getElem_wireBits,
    Option.toList_some, clockIn_append, ← hsr, hdata]
  rfl

/-- A chain of N chips that has sampled all the bits holds SHADOW (R116). -/
theorem State.Sampled.sr_eq {s : State} (h : s.Sampled (8 * s.n.toNat)) (hfit : s.sr.length = s.n.toNat) :
    s.sr = s.shadowBytes := by
  obtain ⟨old, hlen, hsr⟩ := h
  rw [hsr, List.take_of_length_le (length_wireBits _ _).le, clockIn_wireBits, hlen, hfit]
  exact List.take_left' s.length_shadowBytes

/-! ### Which wire bit a position sends (R57) -/

/-- The place on the wire of bit `b` of byte `k`. -/
def bitNo (n k b : Nat) : Nat := 8 * (n - 1 - k) + (7 - b)

section
variable {n k b : Nat}

theorem bitNo_lt (hk : k < n) (hb : b < 8) : bitNo n k b < 8 * n := by unfold bitNo; omega

theorem wireBit_bitNo (m : Memory) (hk : k < n) (hb : b < 8) : wireBit n m (bitNo n k b) = (m.read k).getLsbD b := by
  have hchip : n - 1 - bitNo n k b / 8 = k := by unfold bitNo; omega
  have hbit : 7 - bitNo n k b % 8 = b := by unfold bitNo; omega
  rw [wireBit, hchip, hbit]

/-- Within a byte the bits go down. -/
theorem bitNo_succ (hb : b + 1 < 8) : bitNo n k (b + 1) + 1 = bitNo n k b := by unfold bitNo; omega

/-- After bit 0 of a byte all bytes from it on have been sent. -/
theorem bitNo_zero (hk : k < n) : bitNo n k 0 + 1 = 8 * (n - k) := by unfold bitNo; omega

/-- A byte starts with bit 7. -/
theorem bitNo_seven (hk : k + 1 ≤ n) : 8 * (n - (k + 1)) = bitNo n k 7 := by unfold bitNo; omega

end

/-! ### The chain position by position -/

/-- DATA is the last wire bit, bit 0 of chip 0 (R25, R57). -/
def State.DataIsLast (s : State) : Prop := s.data = (s.shadowByte 0).getLsbD 0

/-- With every byte from `k` on sent, the next byte starts, or the latch pulse (R102). -/
theorem chainInv_goto_seqByte {s : State} (u : UpdateNo) (k : Nat) (hk : k ≤ s.n.toNat) (hfit : s.sr.length = s.n.toNat)
    (hsent : s.Sampled (8 * (s.n.toNat - k))) (hdata : k = 0 → s.DataIsLast) :
    (s.goto (seqByte u k)).ChainInv := by
  cases k with
  | zero => exact ⟨State.Sampled.sr_eq hsent hfit, hdata rfl, fun h => absurd rfl h⟩
  | succ k =>
    rw [bitNo_seven hk] at hsent
    exact ⟨fun h => absurd rfl h, hsent⟩

/-- With bit `b` of byte `k` sent, the next bit starts, or the next byte (R102). -/
theorem chainInv_goto_seqAfterBit {s : State} (u : UpdateNo) {k b : Nat} (hk : k < s.n.toNat) (hb : b < 8)
    (hfit : s.sr.length = s.n.toNat) (hsent : s.Sampled (bitNo s.n.toNat k b + 1))
    (hdata : s.data = (s.shadowByte k).getLsbD b) : (s.goto (seqAfterBit u k b)).ChainInv := by
  cases b with
  | zero =>
    rw [bitNo_zero hk] at hsent
    exact chainInv_goto_seqByte u k hk.le hfit hsent fun h => by subst h; exact hdata
  | succ b =>
    rw [bitNo_succ hb] at hsent
    exact ⟨fun h => absurd rfl h, hsent⟩

theorem chainInv_shift_iff {s : State} {u : UpdateNo} {k b : Nat} {p : CellPhase} (hq : s.seq = .shift u k b p) :
    s.ChainInv ↔ (p ≠ .setData → s.data = (s.shadowByte k).getLsbD b) ∧
      s.Sampled (Seq.sampled s.n.toNat (.shift u k b p)) := by
  rw [State.ChainInv, hq]
  rfl

/-- One position of a bit cell: only the rising edge of CLOCK moves the chain, and it samples the bit DATA holds. -/
theorem seqShift_chainInv {s : State} {u : UpdateNo} {k b : Nat} {p : CellPhase} (hq : s.seq = .shift u k b p)
    (hk : k < s.n.toNat) (hb : b < 8) (hclock : s.clock = (Seq.shift u k b p).clockHigh)
    (hfit : s.sr.length = s.n.toNat) (h : s.ChainInv) : (seqShift u k b s p).ChainInv := by
  obtain ⟨hdata, hsent⟩ := (chainInv_shift_iff hq).mp h
  cases p with
  | setData => exact ⟨fun _ => rfl, hsent⟩
  | clkHigh =>
    have hbit := hdata (by decide)
    exact ⟨fun _ => hbit,
      State.Sampled.clockRise hsent hclock (bitNo_lt hk hb) (hbit.trans (wireBit_bitNo s.shadow hk hb).symm)⟩
  | waitHigh => exact ⟨fun _ => hdata (by decide), hsent⟩
  | clkLow => exact ⟨fun _ => hdata (by decide), hsent⟩
  | waitLow => exact chainInv_goto_seqAfterBit (s := s.emit (.delay .settle)) u hk hb hfit hsent (hdata (by decide))

theorem chainInv_latch_iff {s : State} {u : UpdateNo} {p : LatchPhase} (hq : s.seq = .latch u p) :
    s.ChainInv ↔ s.sr = s.shadowBytes ∧ s.DataIsLast ∧ (p ≠ .high → s.out = s.shadowBytes) := by
  rw [State.ChainInv, hq]
  rfl

theorem chainInv_oeOn_iff {s : State} {u : UpdateNo} (hq : s.seq = .oeOn u) :
    s.ChainInv ↔ s.sr = s.shadowBytes ∧ s.DataIsLast ∧ s.out = s.shadowBytes := by
  rw [State.ChainInv, hq]
  rfl

theorem chainInv_check_iff {s : State} (hq : s.seq = .check) :
    s.ChainInv ↔ (s.oeDis = false → s.sr = s.shadowBytes ∧ s.out = s.shadowBytes ∧ s.DataIsLast) := by
  rw [State.ChainInv, hq]
  rfl

theorem chainInv_idle_iff {s : State} (hq : s.seq = .idle) :
    s.ChainInv ↔ (s.oeDis = false → s.sr = s.shadowBytes ∧ s.out = s.shadowBytes ∧ s.DataIsLast) := by
  rw [State.ChainInv, hq]
  rfl

theorem chainInv_wait_iff {s : State} (hq : s.seq = .wait) :
    s.ChainInv ↔ s.sr = s.shadowBytes ∧ s.out = s.shadowBytes ∧ s.DataIsLast := by
  rw [State.ChainInv, hq]
  rfl

theorem chainInv_oeOff_iff {s : State} {u : UpdateNo} (hq : s.seq = .oeOff u) :
    s.ChainInv ↔ (s.oeDis = false → ∀ b ∈ s.out, contra b = false) := by
  rw [State.ChainInv, hq]

/-- One position of the latch pulse: its rising edge copies SR to OUT (R115). -/
theorem seqLatch_chainInv {s : State} {u : UpdateNo} {p : LatchPhase} (hq : s.seq = .latch u p)
    (hlatch : s.latch = (Seq.latch u p).latchHigh) (h : s.ChainInv) : (seqLatch u s p).ChainInv := by
  obtain ⟨hsr, hdata, hout⟩ := (chainInv_latch_iff hq).mp h
  cases p with
  | high =>
    have hlow : s.latch = false := hlatch
    have hcopied : (s.emit (.emit .latch true)).out = s.sr := by simp [hlow]
    exact ⟨hsr, hdata, fun _ => hcopied.trans hsr⟩
  | waitHigh => exact ⟨hsr, hdata, fun _ => hout (by decide)⟩
  | low => exact ⟨hsr, hdata, fun _ => hout (by decide)⟩
  | waitLow => exact ⟨hsr, hdata, hout (by decide)⟩

/-- The bytes of an array within the interlock (R24). -/
theorem State.contra_of_mem_shadowBytes {s : State} (h : s.shadow.interlocked) : ∀ b ∈ s.shadowBytes, contra b = false := by
  intro b hb
  obtain ⟨k, -, rfl⟩ := List.mem_map.mp hb
  exact h k

end Sys2Proof.Machine
end

