-- ==== Sys2Proof/Proofs/Invariant.lean ====
section
/-! The machine's invariant: a construction establishes it, and acceptance, an idle step and every position of SEQ keep it.  The
memory's part and the chain's contents are those of the two files before; what is left is SEQ, the lines and the hold timer. -/

namespace Sys2Proof.Machine

/-! ### What a position does to the lines and the chain -/

@[simp] theorem firstWrite_data (i : Instr) (s : State) : (firstWrite i s).data = s.data := by cases i <;> rfl
@[simp] theorem firstWrite_oeDis (i : Instr) (s : State) : (firstWrite i s).oeDis = s.oeDis := by cases i <;> rfl

theorem seqCheck_sameLines (s : State) : State.SameLines s (seqCheck s) := by
  rcases seqCheck_cases s with ⟨e, h, -⟩ | ⟨-, i, -, -, h⟩ <;> rw [h]
  · exact ⟨rfl, rfl, rfl, rfl, rfl, rfl⟩
  · simp [State.SameLines]

theorem seqWait_sameLines (s : State) : State.SameLines s (seqWait s) := by
  rcases seqWait_cases s with ⟨-, h⟩ | ⟨-, h⟩ <;> rw [h] <;> exact ⟨rfl, rfl, rfl, rfl, rfl, rfl⟩

/-- A position shows the lines and the chain one event, or nothing (R33). -/
theorem seqStep_lines {s t : State} (h : seqStep s = .next t) :
    State.SameLines s t ∨ ∃ e, State.SameLines (s.emit e) t := by
  have moved (e : Event) (q : Seq) : State.SameLines (s.emit e) ((s.emit e).goto q) := ⟨rfl, rfl, rfl, rfl, rfl, rfl⟩
  rcases seqStep_cases s with ⟨-, hs⟩ | ⟨-, hs⟩ | ⟨u, -, hs⟩ | ⟨u, k, b, p, -, -, hs⟩ | ⟨u, k, b, p, -, -, hs⟩ |
    ⟨u, p, -, hs⟩ | ⟨u, -, hs⟩ | ⟨-, hs⟩ <;> cases hs.symm.trans h
  · exact .inl (seqCheck_sameLines s)
  · exact .inr ⟨_, moved _ _⟩
  · cases p <;> exact .inr ⟨_, moved _ _⟩
  · cases p <;> exact .inr ⟨_, moved _ _⟩
  · rcases seqOeOn_cases u s with ⟨-, _, _, _, -, hon⟩ | ⟨hon, -⟩ <;> rw [hon] <;>
      exact .inr ⟨.emit .oe false, rfl, rfl, rfl, rfl, rfl, rfl⟩
  · exact .inl (seqWait_sameLines s)

/-- The registers of a chain keep their length. -/
theorem seqStep_chainLength {s t : State} (hlen : s.sr.length = s.out.length) (h : seqStep s = .next t) :
    t.sr.length = s.sr.length ∧ t.out.length = s.out.length := by
  rcases seqStep_lines h with ⟨-, -, -, -, hsr, hout⟩ | ⟨e, -, -, -, -, hsr, hout⟩
  · rw [hsr, hout]
    exact ⟨rfl, rfl⟩
  · obtain ⟨hsr', hout'⟩ := s.length_emit e
    rw [hsr, hout]
    exact ⟨hsr', by omega⟩

/-! ### SEQ, the lines and the hold timer -/

/-- The part of the invariant that SEQ decides: BUSY, the lines, the hold timer and the kind of command. -/
structure State.Control (s : State) : Prop where
  /-- BUSY (R29) -/
  busy_iff : s.busy = false ↔ s.seq = .idle
  /-- the position exists (R33) -/
  seqLegal : s.seq.legal s.n.toNat = true
  /-- CLOCK (R26) -/
  clock_eq : s.clock = s.seq.clockHigh
  /-- LATCH (R27) -/
  latch_eq : s.latch = s.seq.latchHigh
  /-- outputs disabled inside an UPDATE (R109) -/
  blanked : s.seq.blanked = true → s.oeDis = true
  /-- outputs enabled in the wait (R136) -/
  waitOn : s.seq = .wait → s.oeDis = false
  /-- the hold timer outside its wait (R136) -/
  holdZero : s.seq ≠ .wait → s.holdCnt = 0
  /-- the second half of a SETRT (R33) -/
  timed : s.seq.timed = true → ∃ idx val dur, decode s.cmd.word = .legal (.setrt idx val dur)

theorem State.Inv.control {s : State} (hs : s.Inv) : s.Control :=
  { busy_iff := hs.busy_iff, seqLegal := hs.seqLegal, clock_eq := hs.clock_eq, latch_eq := hs.latch_eq,
    blanked := hs.blanked, waitOn := hs.waitOn, holdZero := hs.holdZero, timed := hs.timed }

/-- A state at rest. -/
theorem State.Control.of_idle {t : State} (hbusy : t.busy = false) (hseq : t.seq = .idle) (hclock : t.clock = false)
    (hlatch : t.latch = false) (hhold : t.holdCnt = 0) : t.Control where
  busy_iff := by simp [hbusy, hseq]
  seqLegal := by rw [hseq]; rfl
  clock_eq := by rw [hseq, hclock]; rfl
  latch_eq := by rw [hseq, hlatch]; rfl
  blanked := by simp [hseq, Seq.blanked]
  waitOn := by simp [hseq]
  holdZero := fun _ => hhold
  timed := by simp [hseq, Seq.timed]

/-- A position that emits an event and goes on inside the UPDATE. -/
theorem State.Control.emit_goto {s : State} (hs : s.Control) {e : Event} {q : Seq} (hbusy : s.busy = true)
    (hseq : s.seq ≠ .wait) (hq : q.blanked = true) (hlegal : q.legal s.n.toNat = true)
    (hclock : (s.emit e).clock = q.clockHigh) (hlatch : (s.emit e).latch = q.latchHigh) (hoe : (s.emit e).oeDis = true)
    (htimed : q.timed = s.seq.timed) : ((s.emit e).goto q).Control where
  busy_iff := by
    have hidle : q ≠ .idle := by rintro rfl; cases hq
    simp [hbusy, hidle]
  seqLegal := by rwa [State.goto_seq, State.goto_n, State.emit_n]
  clock_eq := hclock
  latch_eq := hlatch
  blanked := fun _ => hoe
  waitOn := fun h => by cases h; cases hq
  holdZero := fun _ => by rw [State.goto_holdCnt, State.emit_holdCnt, hs.holdZero hseq]
  timed := by
    rw [State.goto_seq, State.goto_cmd, State.emit_cmd, htimed]
    exact hs.timed

/-! ### The positions inside an UPDATE -/

/-- Inside one UPDATE the half of the command is that UPDATE's. -/
theorem timed_shift (u : UpdateNo) (k b : Nat) (p : CellPhase) : (Seq.shift u k b p).timed = (Seq.oeOff u).timed := by
  cases u <;> rfl

theorem timed_latch (u : UpdateNo) (p : LatchPhase) : (Seq.latch u p).timed = (Seq.oeOff u).timed := by cases u <;> rfl

theorem timed_oeOn (u : UpdateNo) : (Seq.oeOn u).timed = (Seq.oeOff u).timed := by cases u <;> rfl

/-- The start of a byte, or of the latch pulse: a position of the same UPDATE, with the lines of both pulses low. -/
theorem seqByte_facts (u : UpdateNo) {n k : Nat} (hk : k ≤ n) :
    (seqByte u k).blanked = true ∧ (seqByte u k).legal n = true ∧ (seqByte u k).clockHigh = false ∧
      (seqByte u k).latchHigh = false ∧ (seqByte u k).timed = (Seq.oeOff u).timed := by
  cases k with
  | zero => exact ⟨rfl, rfl, rfl, rfl, timed_latch u _⟩
  | succ k => exact ⟨rfl, by simpa [seqByte, Seq.legal] using hk, rfl, rfl, timed_shift u _ _ _⟩

theorem seqAfterBit_facts (u : UpdateNo) {n k b : Nat} (hk : k < n) (hb : b < 8) :
    (seqAfterBit u k b).blanked = true ∧ (seqAfterBit u k b).legal n = true ∧ (seqAfterBit u k b).clockHigh = false ∧
      (seqAfterBit u k b).latchHigh = false ∧ (seqAfterBit u k b).timed = (Seq.oeOff u).timed := by
  cases b with
  | zero => exact seqByte_facts u hk.le
  | succ b =>
    have hlegal : (seqAfterBit u k (b + 1)).legal n = true := by
      simp only [seqAfterBit, Seq.legal, hk, decide_true, Bool.true_and, decide_eq_true_eq]
      omega
    exact ⟨rfl, hlegal, rfl, rfl, timed_shift u _ _ _⟩

theorem legal_shift_iff {n k b : Nat} {u : UpdateNo} {p : CellPhase} :
    (Seq.shift u k b p).legal n = true ↔ k < n ∧ b < 8 := by
  simp [Seq.legal]

section
variable {s : State} (hs : s.Control) (hbusy : s.busy = true)
include hs hbusy

theorem oeOff_control {u : UpdateNo} (hq : s.seq = .oeOff u) :
    ((s.emit (.emit .oe true)).goto (seqByte u s.n.toNat)).Control := by
  obtain ⟨hblank, hlegal, hclock, hlatch, htimed⟩ := seqByte_facts u (Nat.le_refl s.n.toNat)
  have hclockLow : s.clock = false := by rw [hs.clock_eq, hq]; rfl
  have hlatchLow : s.latch = false := by rw [hs.latch_eq, hq]; rfl
  exact hs.emit_goto hbusy (by simp [hq]) hblank hlegal (hclockLow.trans hclock.symm) (hlatchLow.trans hlatch.symm) rfl
    (by rw [htimed, hq])

theorem seqShift_control {u : UpdateNo} {k b : Nat} {p : CellPhase} (hq : s.seq = .shift u k b p) :
    (seqShift u k b s p).Control := by
  have hlegal := hs.seqLegal
  rw [hq] at hlegal
  obtain ⟨hk, hb⟩ := legal_shift_iff.mp hlegal
  have hoe : s.oeDis = true := hs.blanked (by rw [hq]; rfl)
  have hlatch : s.latch = false := by rw [hs.latch_eq, hq]; rfl
  have hclock : s.clock = (Seq.shift u k b p).clockHigh := by rw [hs.clock_eq, hq]
  have htimed (p' : CellPhase) : (Seq.shift u k b p').timed = s.seq.timed := by rw [hq, timed_shift, timed_shift]
  have hwait : s.seq ≠ .wait := by simp [hq]
  cases p with
  | setData => exact hs.emit_goto hbusy hwait rfl hlegal hclock hlatch hoe (htimed _)
  | clkHigh => exact hs.emit_goto hbusy hwait rfl hlegal rfl hlatch hoe (htimed _)
  | waitHigh => exact hs.emit_goto hbusy hwait rfl hlegal hclock hlatch hoe (htimed _)
  | clkLow => exact hs.emit_goto hbusy hwait rfl hlegal rfl hlatch hoe (htimed _)
  | waitLow =>
    obtain ⟨hblank, hlegal', hclock', hlatch', htimed'⟩ := seqAfterBit_facts u hk hb
    exact hs.emit_goto hbusy hwait hblank hlegal' (hclock.trans hclock'.symm) (hlatch.trans hlatch'.symm) hoe
      (by rw [htimed', hq, timed_shift])

theorem seqLatch_control {u : UpdateNo} {p : LatchPhase} (hq : s.seq = .latch u p) : (seqLatch u s p).Control := by
  have hoe : s.oeDis = true := hs.blanked (by rw [hq]; rfl)
  have hlatch : s.latch = (Seq.latch u p).latchHigh := by rw [hs.latch_eq, hq]
  have hclock : s.clock = false := by rw [hs.clock_eq, hq]; rfl
  have htimed (p' : LatchPhase) : (Seq.latch u p').timed = s.seq.timed := by rw [hq, timed_latch, timed_latch]
  have hwait : s.seq ≠ .wait := by simp [hq]
  cases p with
  | high => exact hs.emit_goto hbusy hwait rfl rfl hclock rfl hoe (htimed _)
  | waitHigh => exact hs.emit_goto hbusy hwait rfl rfl hclock hlatch hoe (htimed _)
  | low => exact hs.emit_goto hbusy hwait rfl rfl hclock rfl hoe (htimed _)
  | waitLow => exact hs.emit_goto hbusy hwait rfl rfl hclock hlatch hoe (by rw [hq, timed_oeOn, timed_latch])

end

/-! ### The positions around the UPDATEs -/

/-- The start of an UPDATE: the first of a command, or the second of a SETRT (R33). -/
theorem State.Control.of_oeOff {t : State} {u : UpdateNo} (hseq : t.seq = .oeOff u) (hbusy : t.busy = true)
    (hclock : t.clock = false) (hlatch : t.latch = false) (hhold : t.holdCnt = 0)
    (htimed : (Seq.oeOff u).timed = true → ∃ idx val dur, decode t.cmd.word = .legal (.setrt idx val dur)) :
    t.Control where
  busy_iff := by simp [hbusy, hseq]
  seqLegal := by rw [hseq]; rfl
  clock_eq := by rw [hseq, hclock]; rfl
  latch_eq := by rw [hseq, hlatch]; rfl
  blanked := by simp [hseq, Seq.blanked]
  waitOn := by simp [hseq]
  holdZero := fun _ => hhold
  timed := by rwa [hseq]

/-- The wait of a SETRT (R136). -/
theorem State.Control.of_wait {t : State} (hseq : t.seq = .wait) (hbusy : t.busy = true) (hclock : t.clock = false)
    (hlatch : t.latch = false) (hoe : t.oeDis = false)
    (htimed : ∃ idx val dur, decode t.cmd.word = .legal (.setrt idx val dur)) : t.Control where
  busy_iff := by simp [hbusy, hseq]
  seqLegal := by rw [hseq]; rfl
  clock_eq := by rw [hseq, hclock]; rfl
  latch_eq := by rw [hseq, hlatch]; rfl
  blanked := by simp [hseq, Seq.blanked]
  waitOn := fun _ => hoe
  holdZero := fun h => absurd hseq h
  timed := fun _ => htimed

theorem State.Inv.busy_of_seq {s : State} (hs : s.Inv) (hq : s.seq ≠ .idle) : s.busy = true := by
  simpa using mt hs.busy_iff.mp hq

/-- A command past its tests runs on a block whose construction did not fail (R130, R171). -/
theorem State.Inv.cfgErr_of_seq {s : State} (hs : s.Inv) (hidle : s.seq ≠ .idle) (hcheck : s.seq ≠ .check) :
    s.cfgErr = false := by
  rw [← Bool.not_eq_true]
  exact fun hc => (hs.cfgErr_seq hc).elim hidle hcheck

theorem State.Inv.n_pos {s : State} (hs : s.Inv) (hc : s.cfgErr = false) : 0 < s.n.toNat := by
  have hn : s.n ≠ 0 := fun h => absurd (hc.symm.trans (hs.cfgErr_iff.mpr h)) (by decide)
  exact Nat.pos_of_ne_zero fun h => hn (BitVec.eq_of_toNat_eq h)

/-- What one position makes of the part of the invariant that SEQ decides. -/
structure State.Advanced (s t : State) : Prop where
  /-- SEQ, the lines and the hold timer -/
  control : t.Control
  /-- the chain's contents -/
  chain : s.chainFits → t.ChainInv
  /-- after a failed construction the command has been rejected (R171) -/
  rejected : s.cfgErr = true → t.seq = .idle ∧ t.oeDis = s.oeDis

section
variable {s : State} (hs : s.Inv)
include hs

/-- A position past CHECK. -/
theorem State.Inv.advanced {t : State} (hidle : s.seq ≠ .idle) (hcheck : s.seq ≠ .check) (hctrl : t.Control)
    (hchain : s.chainFits → s.ChainInv → t.ChainInv) : s.Advanced t where
  control := hctrl
  chain := fun hfit => hchain hfit (hs.chain hfit)
  rejected := fun hc => absurd ((hs.cfgErr_of_seq hidle hcheck).symm.trans hc) (by decide)

/-- CHECK rejects and is at rest again with nothing else moved, or starts the first UPDATE. -/
theorem seqCheck_advanced (hq : s.seq = .check) : s.Advanced (seqCheck s) := by
  have hbusy : s.busy = true := hs.busy_of_seq (by simp [hq])
  have hclock : s.clock = false := by rw [hs.clock_eq, hq]; rfl
  have hlatch : s.latch = false := by rw [hs.latch_eq, hq]; rfl
  have hhold : s.holdCnt = 0 := hs.holdZero (by simp [hq])
  rcases seqCheck_cases s with ⟨e, h, -⟩ | ⟨hc, i, -, -, h⟩ <;> rw [h]
  · exact ⟨.of_idle rfl rfl hclock hlatch hhold, fun hfit => (chainInv_check_iff hq).mp (hs.chain hfit),
      fun _ => ⟨rfl, rfl⟩⟩
  · refine ⟨.of_oeOff rfl (by simpa using hbusy) (by simpa using hclock) (by simpa using hlatch) (by simpa using hhold)
      nofun, fun hfit hoe => ?_, fun hc' => absurd (hc.symm.trans hc') (by decide)⟩
    rw [State.goto_oeDis, firstWrite_oeDis] at hoe
    obtain ⟨-, hout, -⟩ := (chainInv_check_iff hq).mp (hs.chain hfit) hoe
    rw [State.goto_out, firstWrite_out, hout]
    exact State.contra_of_mem_shadowBytes hs.interlocked

theorem oeOff_advanced {u : UpdateNo} (hq : s.seq = .oeOff u) :
    s.Advanced ((s.emit (.emit .oe true)).goto (seqByte u s.n.toNat)) := by
  have hbusy : s.busy = true := hs.busy_of_seq (by simp [hq])
  have hn : 0 < s.n.toNat := hs.n_pos (hs.cfgErr_of_seq (by simp [hq]) (by simp [hq]))
  refine hs.advanced (by simp [hq]) (by simp [hq]) (oeOff_control hs.control hbusy hq) fun hfit _ => ?_
  obtain ⟨hsr, -⟩ := hfit
  have hsent : (s.emit (.emit .oe true)).Sampled (8 * (s.n.toNat - s.n.toNat)) := by
    rw [Nat.sub_self]
    exact State.sampled_zero _
  exact chainInv_goto_seqByte (s := s.emit (.emit .oe true)) u s.n.toNat le_rfl hsr hsent fun h => absurd h hn.ne'

theorem seqShift_advanced {u : UpdateNo} {k b : Nat} {p : CellPhase} (hq : s.seq = .shift u k b p) :
    s.Advanced (seqShift u k b s p) := by
  have hbusy : s.busy = true := hs.busy_of_seq (by simp [hq])
  have hlegal := hs.seqLegal
  rw [hq] at hlegal
  obtain ⟨hk, hb⟩ := legal_shift_iff.mp hlegal
  have hclock : s.clock = (Seq.shift u k b p).clockHigh := by rw [hs.clock_eq, hq]
  refine hs.advanced (by simp [hq]) (by simp [hq]) (seqShift_control hs.control hbusy hq) fun hfit hchain => ?_
  obtain ⟨hsr, -⟩ := hfit
  exact seqShift_chainInv hq hk hb hclock hsr hchain

theorem seqLatch_advanced {u : UpdateNo} {p : LatchPhase} (hq : s.seq = .latch u p) : s.Advanced (seqLatch u s p) := by
  have hbusy : s.busy = true := hs.busy_of_seq (by simp [hq])
  have hlatch : s.latch = (Seq.latch u p).latchHigh := by rw [hs.latch_eq, hq]
  exact hs.advanced (by simp [hq]) (by simp [hq]) (seqLatch_control hs.control hbusy hq) fun _ hchain =>
    seqLatch_chainInv hq hlatch hchain

/-- OE_ON starts the wait of a SETRT or ends the command at rest; the chain shows SHADOW either way. -/
theorem seqOeOn_advanced {u : UpdateNo} (hq : s.seq = .oeOn u) : s.Advanced (seqOeOn u s) := by
  have hbusy : s.busy = true := hs.busy_of_seq (by simp [hq])
  have hclock : s.clock = false := by rw [hs.clock_eq, hq]; rfl
  have hlatch : s.latch = false := by rw [hs.latch_eq, hq]; rfl
  have hhold : s.holdCnt = 0 := hs.holdZero (by simp [hq])
  rcases seqOeOn_cases u s with ⟨-, idx, val, dur, hd, h⟩ | ⟨h, -⟩ <;> rw [h]
  · refine hs.advanced (by simp [hq]) (by simp [hq]) (.of_wait rfl hbusy hclock hlatch rfl ⟨idx, val, dur, hd⟩)
      fun _ hchain => ?_
    obtain ⟨hsr, hdata, hout⟩ := (chainInv_oeOn_iff hq).mp hchain
    exact ⟨hsr, hout, hdata⟩
  · refine hs.advanced (by simp [hq]) (by simp [hq]) (.of_idle rfl rfl hclock hlatch hhold) fun _ hchain _ => ?_
    obtain ⟨hsr, hdata, hout⟩ := (chainInv_oeOn_iff hq).mp hchain
    exact ⟨hsr, hout, hdata⟩

/-- The wait goes on, or ends with a SHADOW write, before which the chain showed bytes within the interlock. -/
theorem seqWait_advanced (hq : s.seq = .wait) : s.Advanced (seqWait s) := by
  have hbusy : s.busy = true := hs.busy_of_seq (by simp [hq])
  have hclock : s.clock = false := by rw [hs.clock_eq, hq]; rfl
  have hlatch : s.latch = false := by rw [hs.latch_eq, hq]; rfl
  have hsetrt := hs.timed (by rw [hq]; rfl)
  rcases seqWait_cases s with ⟨hzero, h⟩ | ⟨-, h⟩ <;> rw [h]
  · refine hs.advanced (by simp [hq]) (by simp [hq]) (.of_oeOff rfl hbusy hclock hlatch hzero fun _ => hsetrt)
      fun _ hchain _ => ?_
    obtain ⟨-, hout, -⟩ := (chainInv_wait_iff hq).mp hchain
    have hbytes := State.contra_of_mem_shadowBytes hs.interlocked
    rw [← hout] at hbytes
    exact hbytes
  · exact hs.advanced (by simp [hq]) (by simp [hq]) (.of_wait hq hbusy hclock hlatch (hs.waitOn hq) hsetrt)
      fun _ hchain => (chainInv_wait_iff (s := { s with holdCnt := s.holdCnt - 1 }) hq).mpr ((chainInv_wait_iff hq).mp hchain)

theorem seqStep_advanced {t : State} (h : seqStep s = .next t) : s.Advanced t := by
  rcases seqStep_cases s with ⟨-, hstep⟩ | ⟨hq, hstep⟩ | ⟨u, hq, hstep⟩ | ⟨u, k, b, p, hq, -, hstep⟩ |
    ⟨u, k, b, p, -, -, hstep⟩ | ⟨u, p, hq, hstep⟩ | ⟨u, hq, hstep⟩ | ⟨hq, hstep⟩ <;> cases hstep.symm.trans h
  · exact seqCheck_advanced hs hq
  · exact oeOff_advanced hs hq
  · exact seqShift_advanced hs hq
  · exact seqLatch_advanced hs hq
  · exact seqOeOn_advanced hs hq
  · exact seqWait_advanced hs hq

end

/-! ### Every step -/

/-- The invariant from its parts. -/
theorem State.Control.inv {t : State} (hctrl : t.Control) (hcanonical : t.CanonicalShadow)
    (hinterlocked : t.shadow.interlocked) (hhigh : t.shadow.highClear) (hcfg : t.cfgErr = true ↔ t.n = 0)
    (hoff : t.cfgErr = true → t.oeDis = true) (hrejected : t.cfgErr = true → t.seq = .idle ∨ t.seq = .check)
    (hlen : t.sr.length = t.out.length) (hchain : t.chainFits → t.ChainInv) : t.Inv := by
  obtain ⟨hwf, hwithin⟩ := hcanonical
  exact
    { memWf := hwf, memWithin := hwithin, interlocked := hinterlocked, highClear := hhigh, cfgErr_iff := hcfg
      cfgErr_off := hoff, cfgErr_seq := hrejected, busy_iff := hctrl.busy_iff, seqLegal := hctrl.seqLegal
      clock_eq := hctrl.clock_eq, latch_eq := hctrl.latch_eq, blanked := hctrl.blanked, waitOn := hctrl.waitOn
      holdZero := hctrl.holdZero, timed := hctrl.timed, chainLen := hlen, chain := hchain }

/-- A position keeps the invariant: the memory's part through what it writes, the rest through where SEQ goes. -/
theorem seqStep_inv {s t : State} (hs : s.Inv) (h : seqStep s = .next t) : t.Inv := by
  obtain ⟨hctrl, hchain, hrejected⟩ := seqStep_advanced hs h
  obtain ⟨hn, hcfg, -⟩ := seqStep_sameFixed h
  obtain ⟨hsr, hout⟩ := seqStep_chainLength hs.chainLen h
  rw [← hcfg] at hrejected
  refine hctrl.inv (seqStep_canonicalShadow ⟨hs.memWf, hs.memWithin⟩ h) (seqStep_keeps_interlocked hs.interlocked h)
    (fun k => ((seqStep_written h).high k).trans (hs.highClear k)) ?cfgErr ?off
    (fun hc => .inl (hrejected hc).left) ?length ?chain
  case cfgErr => rw [hn, hcfg, hs.cfgErr_iff]
  case off =>
    intro hc
    obtain ⟨-, hoe⟩ := hrejected hc
    rw [hoe, hs.cfgErr_off (hcfg.symm.trans hc)]
  case length => rw [hsr, hout, hs.chainLen]
  case chain => exact fun hfit => hchain (by rwa [State.chainFits, hsr, hout, hn] at hfit)

/-- What a construction leaves (R200, R201): nothing in SHADOW, the lines low, the core idle, the outputs disabled, and a chain
whose two registers are of one length. -/
structure State.Constructed (t : State) : Prop where
  /-- SHADOW holds 0x00 everywhere (R23) -/
  shadow : t.shadow = []
  /-- CFG_ERR (R22) -/
  cfgErr : t.cfgErr = (t.n == 0)
  /-- the core is idle -/
  idle : t.busy = false ∧ t.seq = .idle ∧ t.holdCnt = 0
  /-- the lines (R25 to R28) -/
  lines : t.linesIdle ∧ t.oeDis = true
  /-- the chain -/
  chainLen : t.sr.length = t.out.length

theorem State.Constructed.inv {t : State} (h : t.Constructed) : t.Inv := by
  obtain ⟨hshadow, hcfg, ⟨hbusy, hseq, hhold⟩, ⟨⟨hclock, hlatch⟩, hoe⟩, hlen⟩ := h
  refine State.Control.inv (.of_idle hbusy hseq hclock hlatch hhold) ⟨?wf, ?within⟩ ?interlocked ?high ?cfgErr
    (fun _ => hoe) (fun _ => .inl hseq) hlen
    (fun _ => (chainInv_idle_iff hseq).mpr fun hon => absurd (hoe.symm.trans hon) (by decide))
  case wf | within => rw [hshadow]; rfl
  case interlocked => rw [hshadow]; exact Memory.interlocked_nil
  case high =>
    intro k
    rw [hshadow, Memory.read_nil]
    decide
  case cfgErr => rw [hcfg, beq_iff_eq]

theorem State.afterReset_constructed (c : BitVec 8) : (State.afterReset c).Constructed :=
  ⟨rfl, rfl, ⟨rfl, rfl, rfl⟩, ⟨⟨rfl, rfl⟩, rfl⟩, rfl⟩

theorem State.resetTo_constructed {s : State} (c : BitVec 8) (hlen : s.sr.length = s.out.length) :
    (s.resetTo c).Constructed :=
  ⟨rfl, rfl, ⟨rfl, rfl, rfl⟩, ⟨⟨rfl, rfl⟩, rfl⟩, hlen⟩

theorem State.powerOn_constructed {s : State} (c : BitVec 8) (hlen : s.sr.length = s.out.length) :
    (s.powerOn c).Constructed :=
  ⟨rfl, rfl, ⟨rfl, rfl, rfl⟩, ⟨⟨rfl, rfl⟩, rfl⟩, by simp [hlen]⟩

/-- Acceptance moves the core from IDLE to CHECK, where the invariant says the same of the lines and the chain. -/
theorem State.Inv.accept {s : State} (hs : s.Inv) (hbusy : s.busy = false) (w : CmdWord) : (s.accept w).Inv := by
  have hq : s.seq = .idle := hs.busy_iff.mp hbusy
  exact
    { memWf := hs.memWf
      memWithin := hs.memWithin
      interlocked := hs.interlocked
      highClear := hs.highClear
      cfgErr_iff := hs.cfgErr_iff
      cfgErr_off := hs.cfgErr_off
      cfgErr_seq := fun _ => .inr rfl
      busy_iff := by simp
      seqLegal := rfl
      clock_eq := by rw [State.accept_clock, hs.clock_eq, hq]; rfl
      latch_eq := by rw [State.accept_latch, hs.latch_eq, hq]; rfl
      blanked := nofun
      waitOn := nofun
      holdZero := fun _ => hs.holdZero (by simp [hq])
      timed := nofun
      chainLen := hs.chainLen
      chain := fun hfit => (chainInv_idle_iff hq).mp (hs.chain hfit) }

/-- The response port is no part of the invariant. -/
theorem State.Inv.idle {s : State} (hs : s.Inv) : s.idle.Inv := by cases hs; constructor <;> assumption

/-- Nor are the inputs. -/
theorem State.Inv.withInputs {s : State} (hs : s.Inv) (i : Inputs) : (s.withInputs i).Inv := by
  cases hs; constructor <;> assumption

theorem step_inv {s t : State} (hs : s.Inv) (h : step s = .next t) : t.Inv :=
  (step_cases s).keeps h (fun _ => (State.powerOn_constructed _ hs.chainLen).inv)
    (fun _ => (State.resetTo_constructed _ hs.chainLen).inv) (fun _ _ => seqStep_inv) (fun hb hs => hs.accept hb _)
    State.Inv.idle hs

/-- The two positions at which the sequencer faults are excluded: IDLE by BUSY, the others by the bounds of SEQ (log 21). -/
theorem State.Inv.seqStep_next {s : State} (hs : s.Inv) (hbusy : s.busy = true) : ∃ t, seqStep s = .next t := by
  rcases seqStep_cases s with ⟨hq, -⟩ | ⟨-, h⟩ | ⟨u, -, h⟩ | ⟨u, k, b, p, -, -, h⟩ | ⟨u, k, b, p, hq, hk, -⟩ |
    ⟨u, p, -, h⟩ | ⟨u, -, h⟩ | ⟨-, h⟩
  · exact absurd ((hs.busy_iff.mpr hq).symm.trans hbusy) (by decide)
  · exact ⟨_, h⟩
  · exact ⟨_, h⟩
  · exact ⟨_, h⟩
  · have hlegal := hs.seqLegal
    rw [hq] at hlegal
    obtain ⟨hlt, -⟩ := legal_shift_iff.mp hlegal
    exact absurd hlt hk
  · exact ⟨_, h⟩
  · exact ⟨_, h⟩
  · exact ⟨_, h⟩

/-- What the outside world must hold for a step to stop (R179, R190): nothing else stops a state of the invariant. -/
theorem StepCase.next_of_inv {s : State} {o : Host.Outcome State Fault Refusal} (hc : StepCase s o) (hs : s.Inv)
    (hforeign : s.inputs.foreignDriver = false) (hfault : s.inputs.hostFault = false) : ∃ t, o = .next t := by
  cases hc with
  | foreignDriver h => exact absurd (hforeign.symm.trans h) (by decide)
  | hostFault h => exact absurd (hfault.symm.trans h) (by decide)
  | powerUp _ => exact ⟨_, rfl⟩
  | reset _ => exact ⟨_, rfl⟩
  | busy hb => exact hs.seqStep_next hb
  | acceptEvent _ _ => exact ⟨_, rfl⟩
  | acceptWhole _ _ =>
    obtain ⟨t, h, -⟩ := advances_accept s.inputs.cmd s
    exact ⟨t, h⟩
  | idle _ _ => exact ⟨_, rfl⟩

/-! ### The statements -/

/-- Settles O50: the fresh block is what a construction leaves. -/
theorem freshBlockMeetsInvariant : Obligations.FreshBlockMeetsInvariant := by
  unfold Obligations.FreshBlockMeetsInvariant
  exact fun c => (State.afterReset_constructed c).inv

/-- Settles O51: the constructions establish the invariant, acceptance and every position keep it, and a command in one
transition is a run of positions. -/
theorem stepKeepsInvariant : Obligations.StepKeepsInvariant := by
  unfold Obligations.StepKeepsInvariant
  exact fun s t i hs h => step_inv (hs.withInputs i) h

/-- Settles O52: a word always runs to its response, and a busy core always has a position to go to. -/
theorem invariantStatesAlwaysStep : Obligations.InvariantStatesAlwaysStep := by
  unfold Obligations.InvariantStatesAlwaysStep
  exact fun s hs hforeign hfault => (step_cases s).next_of_inv hs hforeign hfault

end Sys2Proof.Machine
end

