-- ==== Sys2Proof/Proofs/RelaySafety.lean ====
section
/-! What the relays do in the states of the invariant and in every run (R62, R145, R146, R150, R151): no chip is driven both
ways, at rest the relays show SHADOW or are off, and outputs are enabled only by the end of an UPDATE. -/

namespace Sys2Proof.Machine

/-! ### Every run -/

/-- The invariant, on a chain as long as the CHIP_COUNT the host keeps to (R204). -/
def State.InvFor (c : BitVec 8) (s : State) : Prop := s.Inv ∧ s.n = c ∧ s.chainFits

theorem State.constructed_invFor {c : BitVec 8} {s t : State} (hs : s.InvFor c) (ht : t.Constructed) (hn : t.n = c)
    (hsr : t.sr.length = s.sr.length) : t.InvFor c := by
  obtain ⟨-, hn', hfit, -⟩ := hs
  have hlen : t.sr.length = t.n.toNat := by rw [hsr, hfit, hn', hn]
  exact ⟨ht.inv, hn, hlen, by rw [← ht.chainLen, hlen]⟩

theorem seqStep_invFor {c : BitVec 8} {s t : State} (hs : s.InvFor c) (h : seqStep s = .next t) : t.InvFor c := by
  obtain ⟨hinv, hc, hsrLen, houtLen⟩ := hs
  obtain ⟨hn, -⟩ := seqStep_sameFixed h
  obtain ⟨hsr, hout⟩ := seqStep_chainLength hinv.chainLen h
  exact ⟨seqStep_inv hinv h, hn.trans hc, by rw [hsr, hn, hsrLen], by rw [hout, hn, houtLen]⟩

/-- Every state of a run meets the invariant, with the chain as long as N. -/
theorem Reachable.invFor {c : BitVec 8} {s : State} (h : Reachable c s) : s.InvFor c := by
  induction h with
  | start => exact ⟨(State.afterReset_constructed c).inv, rfl, List.length_replicate, List.length_replicate⟩
  | @step s t i _ hi ht hs =>
    have hs' : (s.withInputs i).InvFor c := by
      obtain ⟨hinv, hn, hfit⟩ := hs
      exact ⟨hinv.withInputs i, hn, hfit⟩
    have hlen := hs'.left.chainLen
    refine (step_cases (s.withInputs i)).keeps (P := State.InvFor c) ht (fun _ => ?power) (fun _ => ?reset)
      (fun _ _ => seqStep_invFor) ?accept ?idle hs'
    case power => exact State.constructed_invFor hs' (State.powerOn_constructed _ hlen) hi (by simp)
    case reset => exact State.constructed_invFor hs' (State.resetTo_constructed _ hlen) hi rfl
    case accept => exact fun hb ⟨hinv, hn, hfit⟩ => ⟨hinv.accept hb _, hn, hfit⟩
    case idle => exact fun ⟨hinv, hn, hfit⟩ => ⟨hinv.idle, hn, hfit⟩

/-! ### No chip is driven both ways (R145, R150) -/

/-- The interlock predicate, bit by bit (R132). -/
theorem contra_eq_bits (b : Byte) :
    contra b = ((b.getLsbD 0 || b.getLsbD 1) && (b.getLsbD 2 || b.getLsbD 3)) := by
  have table : ∀ u : BitVec 4,
      contra (u.setWidth 8) = ((u.getLsbD 0 || u.getLsbD 1) && (u.getLsbD 2 || u.getLsbD 3)) := by decide
  rw [← contra_lowNibble, and_nibbleMask_eq_setWidth, table]
  simp

/-- With outputs enabled the chain shows bytes within the interlock, wherever SEQ stands. -/
theorem State.Inv.contra_of_mem_out {s : State} (hs : s.Inv) (hfit : s.chainFits) (hoe : s.oeDis = false) :
    ∀ b ∈ s.out, contra b = false := by
  have hchain := hs.chain hfit
  have hbytes := State.contra_of_mem_shadowBytes hs.interlocked
  have blanked {q : Prop} (hb : s.seq.blanked = true) : q := absurd ((hs.blanked hb).symm.trans hoe) (by decide)
  cases hq : s.seq with
  | idle =>
    obtain ⟨-, hout, -⟩ := (chainInv_idle_iff hq).mp hchain hoe
    rwa [hout]
  | check =>
    obtain ⟨-, hout, -⟩ := (chainInv_check_iff hq).mp hchain hoe
    rwa [hout]
  | wait =>
    obtain ⟨-, hout, -⟩ := (chainInv_wait_iff hq).mp hchain
    rwa [hout]
  | oeOff u => exact (chainInv_oeOff_iff hq).mp hchain hoe
  | shift u k b p => exact blanked (by rw [hq]; rfl)
  | latch u p => exact blanked (by rw [hq]; rfl)
  | oeOn u => exact blanked (by rw [hq]; rfl)

/-- Relays driven by bytes within the interlock are safe, and so are disabled ones. -/
theorem State.relaysSafe_of_out {s : State} (h : s.oeDis = false → ∀ b ∈ s.out, contra b = false) : s.RelaysSafe := by
  rintro k ⟨hinflate, hdeflate⟩
  cases hoe : s.oeDis with
  | true => simp [State.inflateOn, State.relay_of_oeDis hoe] at hinflate
  | false =>
    have hboth : contra (s.out.getD k 0) = true := by
      rw [contra_eq_bits, Bool.and_eq_true]
      simpa [State.inflateOn, State.deflateOn, State.relay, hoe] using And.intro hinflate hdeflate
    have hone : contra (s.out.getD k 0) = false := by
      by_cases hk : k < s.out.length
      · rw [List.getD_eq_getElem _ _ hk]
        exact h hoe _ (List.getElem_mem hk)
      · rw [List.getD_eq_default _ _ (Nat.le_of_not_lt hk)]
        decide
    exact absurd (hone.symm.trans hboth) (by decide)

/-- Settles O53: with outputs enabled the chain shows bytes within the interlock, and every state of a run meets the
invariant. -/
theorem noReachableStateDrivesBothGroups : Obligations.NoReachableStateDrivesBothGroups := by
  unfold Obligations.NoReachableStateDrivesBothGroups
  have safe (s : State) (hs : s.Inv) (hfit : s.chainFits) : s.RelaysSafe :=
    State.relaysSafe_of_out (hs.contra_of_mem_out hfit)
  refine ⟨safe, fun c s h => ?_⟩
  obtain ⟨hs, -, hfit⟩ := h.invFor
  exact safe s hs hfit

/-! ### At rest (R62, R151) -/

/-- Settles O54: at rest SEQ is IDLE, and there the invariant gives the lines, the hold timer and the chain. -/
theorem consistentAtRest : Obligations.ConsistentAtRest := by
  unfold Obligations.ConsistentAtRest
  intro s h hbusy
  obtain ⟨hs, hfit⟩ : s.Inv ∧ s.chainFits := by
    rcases h with h | ⟨c, hrun⟩
    · exact h
    · obtain ⟨hs, -, hfit⟩ := hrun.invFor
      exact ⟨hs, hfit⟩
  have hq : s.seq = .idle := hs.busy_iff.mp hbusy
  refine ⟨hq, by rw [hs.clock_eq, hq]; rfl, by rw [hs.latch_eq, hq]; rfl, hs.holdZero (by simp [hq]), fun hoe => ?_,
    State.relay_of_oeDis⟩
  obtain ⟨hsr, hout, hdata⟩ := (chainInv_idle_iff hq).mp (hs.chain hfit) hoe
  have hcfg : s.cfgErr = false := by
    rw [← Bool.not_eq_true]
    exact fun hc => absurd (hoe.symm.trans (hs.cfgErr_off hc)) (by decide)
  exact ⟨hcfg, State.chainShowsShadow_of_out hoe hsr hout, hdata⟩

/-! ### HOLDALL (R146) -/

theorem clearLow_and_lowNibble (old : Byte) : clearLow old &&& 0x0F = 0 := by
  have hdisjoint : Config.highMask &&& 0x0F = 0#8 := by decide
  rw [clearLow, BitVec.and_assoc, hdisjoint]
  exact BitVec.and_zero

/-- Settles O25: HOLDALL has no test of its own, clears every byte below N, and no byte is listed above; after a failed
construction the word is answered ConfigError and outputs stay disabled. -/
theorem holdallAlwaysReachable : Obligations.HoldallAlwaysReachable := by
  unfold Obligations.HoldallAlwaysReachable
  intro s hs hquiet hbusy hvalid hwhole hword
  have hstep : step s = execWord (encode .holdall) (s.accept s.inputs.cmd) := by
    rw [step_of_presented hquiet hbusy hvalid, acceptStep_whole hwhole]
    exact congrArg (execWord · (s.accept s.inputs.cmd)) hword
  refine ⟨fun hc => ?configured, fun hc => ?failed⟩
  case configured =>
    obtain ⟨t, hexec, hbytes, -, -, hresp, -⟩ := holdallClearsEveryChip (s.accept s.inputs.cmd) hc (hs.n_pos hc)
    refine ⟨t, by rw [hstep, execWord_of_legal (decode_encode _), hexec], hresp, fun k => ?_⟩
    rw [hbytes k]
    split
    · exact clearLow_and_lowNibble (s.shadowByte k)
    · next hk =>
      have hblank : s.shadowByte k = blankByte := Memory.read_above hs.memWithin (Nat.le_of_not_lt hk)
      rw [State.shadowByte, State.accept_shadow, ← State.shadowByte, hblank]
      decide
  case failed =>
    exact ⟨_, hstep.trans (execWord_of_cfgErr _ hc), ⟨rfl, rfl, rfl, rfl, rfl⟩, State.relay_of_oeDis (hs.cfgErr_off hc)⟩

/-! ### Who enables the outputs (R105, R204(c)) -/

/-- Only OE_ON enables the outputs. -/
theorem seqStep_enables {s t : State} (h : seqStep s = .next t) (hoff : s.oeDis = true) (hon : t.oeDis = false) :
    ∃ u, s.seq = .oeOn u := by
  have kept {q : Prop} (hsame : t.oeDis = true) : q := absurd (hsame.symm.trans hon) (by decide)
  rcases seqStep_cases s with ⟨-, hs⟩ | ⟨-, hs⟩ | ⟨u, -, hs⟩ | ⟨u, k, b, p, -, -, hs⟩ | ⟨u, k, b, p, -, -, hs⟩ |
    ⟨u, p, -, hs⟩ | ⟨u, hq, -⟩ | ⟨-, hs⟩
  · cases hs.symm.trans h
  · cases hs.symm.trans h
    obtain ⟨-, -, -, hoe, -⟩ := seqCheck_sameLines s
    exact kept (hoe.trans hoff)
  · cases hs.symm.trans h
    exact kept rfl
  · cases hs.symm.trans h
    cases p <;> exact kept hoff
  · cases hs.symm.trans h
  · cases hs.symm.trans h
    cases p <;> exact kept hoff
  · exact ⟨u, hq⟩
  · cases hs.symm.trans h
    obtain ⟨-, -, -, hoe, -⟩ := seqWait_sameLines s
    exact kept (hoe.trans hoff)

/-- A word that enables the outputs is answered OK. -/
theorem execWord_enables {w : CmdWord} {s t : State} (h : execWord w s = .next t) (hoff : s.oeDis = true)
    (hon : t.oeDis = false) : t.Responded .ok := by
  rcases execWord_cases w s with ⟨e, hrejected⟩ | ⟨-, i, -, -, hcompleted⟩
  · cases hrejected.symm.trans h
    exact absurd (hoff.symm.trans hon) (by decide)
  · cases hcompleted.symm.trans h
    exact ⟨rfl, rfl, rfl, rfl, rfl⟩

/-- What a step that enables the outputs has done, whichever of its cases applies. -/
theorem StepCase.enables {s t : State} {o : Host.Outcome State Fault Refusal} (hc : StepCase s o) (ho : o = .next t)
    (hoff : s.oeDis = true) (hon : t.oeDis = false) :
    (∃ u, s.seq = .oeOn u) ∨ (s.busy = false ∧ s.inputs.cmdValid = true ∧ t.Responded .ok) := by
  have kept {q : Prop} (hsame : t.oeDis = true) : q := absurd (hsame.symm.trans hon) (by decide)
  cases hc with
  | foreignDriver _ => cases ho
  | hostFault _ => cases ho
  | powerUp _ => cases ho; exact kept rfl
  | reset _ => cases ho; exact kept rfl
  | busy _ => exact .inl (seqStep_enables ho hoff hon)
  | acceptEvent _ _ => cases ho; exact kept hoff
  | acceptWhole hb hv => exact .inr ⟨hb, hv, execWord_enables (s := s.accept _) ho hoff hon⟩
  | idle _ _ => cases ho; exact kept hoff

/-- Settles O55: a construction leaves the outputs disabled, and of what else a step does only the position OE_ON and a whole
command that answers OK enable them. -/
theorem outputsEnabledOnlyByAnUpdate : Obligations.OutputsEnabledOnlyByAnUpdate := by
  unfold Obligations.OutputsEnabledOnlyByAnUpdate
  exact fun s _ hstep hoff hon => (step_cases s).enables hstep hoff hon

end Sys2Proof.Machine
end

