-- ==== Sys2Proof/Proofs/UpdateEvents.lean ====
section
/-! The events of one UPDATE (R106, R109 to R111) and what single edges do to the chain (R114, R115): an UPDATE is OE off, one
bit cell per wire bit, the latch pulse, OE on, and claims about an instant inside it are claims about the events before. -/

namespace Sys2Proof.Machine

/-! ### One edge (R114, R115) -/

/-- One chip on a rising edge is the library's shift with a bit entering below. -/
theorem shiftChip_eq_shiftConcat (d : Bool) (b : Byte) : shiftChip d b = b.shiftConcat d :=
  BitVec.eq_of_getElem_eq fun _ hj => (getElem_shiftChip d b hj).trans (BitVec.getElem_shiftConcat hj).symm

/-- As a number, a shifted byte and the bit that left it are twice the byte and the bit that entered. -/
theorem toNat_shiftChip (d : Bool) (b : Byte) :
    (shiftChip d b).toNat + 256 * (b.getLsbD 7).toNat = 2 * b.toNat + d.toNat := by
  have hleft : b.getLsbD 7 = decide (2 ^ 7 ≤ b.toNat) := b.msb_eq_getLsbD_last.symm.trans b.msb_eq_decide
  have hb := b.isLt
  have hd := Bool.toNat_le d
  rw [shiftChip_eq_shiftConcat, BitVec.toNat_shiftConcat, hleft, Nat.shiftLeft_eq]
  by_cases hhigh : 2 ^ 7 ≤ b.toNat
  · rw [decide_eq_true hhigh, Bool.toNat_true]
    omega
  · rw [decide_eq_false hhigh, Bool.toNat_false]
    omega

/-- The chain as a number is doubled, DATA enters below, and what passes the last stage is lost (R114). -/
theorem chainNumber_shiftChain (d : Bool) (c : List Byte) :
    chainNumber (shiftChain d c) = (2 * chainNumber c + d.toNat) % 2 ^ (8 * c.length) := by
  induction c generalizing d with
  | nil => simp [shiftChain, chainNumber, Nat.mod_one]
  | cons b bs ih =>
    have hbyte := toNat_shiftChip d b
    have hlt := (shiftChip d b).isLt
    have hsplit : 2 * chainNumber (b :: bs) + d.toNat =
        256 * (2 * chainNumber bs + (b.getLsbD 7).toNat) + (shiftChip d b).toNat := by
      rw [chainNumber]
      omega
    have hpow : 2 ^ (8 * (b :: bs).length) = 256 * 2 ^ (8 * bs.length) := by
      rw [List.length_cons, Nat.mul_succ, Nat.add_comm, Nat.pow_add]
    have hdiv : (256 * (2 * chainNumber bs + (b.getLsbD 7).toNat) + (shiftChip d b).toNat) / 256 =
        2 * chainNumber bs + (b.getLsbD 7).toNat := by omega
    have hmod : (256 * (2 * chainNumber bs + (b.getLsbD 7).toNat) + (shiftChip d b).toNat) % 256 =
        (shiftChip d b).toNat := by omega
    rw [hsplit, hpow, Nat.mod_mul, hdiv, hmod, shiftChain, chainNumber, ih]

theorem getLsbD_shiftChip (d : Bool) (b : Byte) {j : Nat} (hj : j < 8) :
    (shiftChip d b).getLsbD j = if j ≠ 0 then b.getLsbD (j - 1) else d := by
  rw [shiftChip_eq_shiftConcat, BitVec.getLsbD_shiftConcat, decide_eq_true hj, Bool.true_and, ite_not]

/-- Stage by stage: each stage takes the one below it, stage 0 of a chip the last stage of the chip before, stage 0 of the first
chip DATA (R113, R114). -/
theorem getLsbD_shiftChain (d : Bool) (c : List Byte) {k j : Nat} (hk : k < c.length) (hj : j < 8) :
    ((shiftChain d c).getD k 0).getLsbD j =
      if j ≠ 0 then (c.getD k 0).getLsbD (j - 1)
      else if k = 0 then d else (c.getD (k - 1) 0).getLsbD 7 := by
  induction c generalizing d k with
  | nil => cases hk
  | cons b bs ih =>
    cases k with
    | zero => exact getLsbD_shiftChip d b hj
    | succ k =>
      have hrest := ih (b.getLsbD 7) (Nat.lt_of_succ_lt_succ hk)
      cases k with
      | zero => exact hrest
      | succ k => exact hrest

/-- Nothing but a rising edge of CLOCK moves SR (R114). -/
theorem State.emit_sr_of_no_clockRise {s : State} {e : Event} (h : e ≠ .emit .clock true ∨ s.clock = true) :
    (s.emit e).sr = s.sr := by
  rcases e with ⟨_ | _ | _ | _, v⟩ | t
  · rfl
  · rcases h with h | h
    · cases v with
      | true => exact absurd rfl h
      | false => rfl
    · simp [h]
  · rfl
  · rfl
  · rfl

/-- Nothing but a rising edge of LATCH moves OUT (R115). -/
theorem State.emit_out_of_no_latchRise {s : State} {e : Event} (h : e ≠ .emit .latch true ∨ s.latch = true) :
    (s.emit e).out = s.out := by
  rcases e with ⟨_ | _ | _ | _, v⟩ | t
  · rfl
  · rfl
  · rcases h with h | h
    · cases v with
      | true => exact absurd rfl h
      | false => rfl
    · simp [h]
  · rfl
  · rfl

/-- Settles O34: the rising edge is `shiftChain`, stage by stage and as a number. -/
theorem clockEdgeShiftsTheChain : Obligations.ClockEdgeShiftsTheChain := by
  unfold Obligations.ClockEdgeShiftsTheChain
  refine ⟨fun s hclock => ?_, fun _ _ => State.emit_sr_of_no_clockRise, fun _ _ => rfl⟩
  have hedge : (s.emit (.emit .clock true)).sr = shiftChain s.data s.sr := by simp [hclock]
  rw [hedge]
  exact ⟨length_shiftChain _ _, fun _ _ => getLsbD_shiftChain _ _, chainNumber_shiftChain _ _⟩

/-- Settles O35: a rising edge of LATCH copies SR, and every other event leaves OUT alone. -/
theorem latchEdgeCommitsTheChain : Obligations.LatchEdgeCommitsTheChain := by
  unfold Obligations.LatchEdgeCommitsTheChain
  exact ⟨fun s hlatch => ⟨by simp [hlatch], rfl⟩, fun _ _ => State.emit_out_of_no_latchRise⟩

/-- Settles O36: SHIFTOUT clocks the wire bits in. -/
theorem shiftOutLoadsTheRealChain : Obligations.ShiftOutLoadsTheRealChain := by
  unfold Obligations.ShiftOutLoadsTheRealChain
  intro s n m hclock
  obtain ⟨-, -, hsr⟩ := s.emitAll_shiftOut n m hclock
  exact hsr

/-! ### The trace of one UPDATE (R106) -/

/-- The events of an UPDATE after its bit cells (R103, R105). -/
def latchAndEnable : List Event :=
  [.emit .latch true, .delay .settle, .emit .latch false, .delay .settle, .emit .oe false]

theorem updateTrace_eq_bitCells (n : Nat) (m : Memory) :
    updateTrace n m = [.emit .oe true] ++ (wireBits n m).flatMap bitCell ++ latchAndEnable := by
  rw [updateTrace, shiftOut_eq_bitCells, List.append_assoc]
  rfl

theorem countP_bitCells {p : Event → Bool} {c : Nat} (hcell : ∀ v, (bitCell v).countP p = c) (bits : List Bool) :
    (bits.flatMap bitCell).countP p = c * bits.length := by
  induction bits with
  | nil => rfl
  | cons v bits ih => rw [List.flatMap_cons, List.countP_append, hcell, ih, List.length_cons, Nat.mul_succ, Nat.add_comm]

/-- How many events of a kind an UPDATE has, when every bit cell has `c` of them. -/
theorem countP_updateTrace {p : Event → Bool} {c : Nat} (hcell : ∀ v, (bitCell v).countP p = c) (n : Nat) (m : Memory) :
    (updateTrace n m).countP p = [Event.emit .oe true].countP p + c * (8 * n) + latchAndEnable.countP p := by
  rw [updateTrace_eq_bitCells, List.countP_append, List.countP_append, countP_bitCells hcell, length_wireBits]

theorem length_updateTrace (n : Nat) (m : Memory) : (updateTrace n m).length = 40 * n + 6 := by
  have hcells : ((wireBits n m).flatMap bitCell).length = 5 * (wireBits n m).length := by
    simpa using countP_bitCells (p := fun _ => true) (fun _ => rfl) (wireBits n m)
  rw [updateTrace_eq_bitCells, List.length_append, List.length_append, hcells, length_wireBits]
  simp only [latchAndEnable, List.length_cons, List.length_nil]
  omega

/-- Settles O33: one bit cell per wire bit, of three line writes, one of them the rising edge of CLOCK, and two delays. -/
theorem updateTraceInFull : Obligations.UpdateTraceInFull := by
  unfold Obligations.UpdateTraceInFull
  refine fun n m => ⟨?full, length_updateTrace n m, ?emits, ?delays, ?clockRises, ?latchRises⟩
  case full =>
    rw [updateTrace_eq_bitCells, wireBits, List.flatMap_map]
    rfl
  case emits =>
    have hcell (v : Bool) : (bitCell v).countP (fun e => e.isEmit) = 3 := rfl
    have hframe : latchAndEnable.countP (fun e => e.isEmit) = 3 := rfl
    have hfirst : [Event.emit .oe true].countP (fun e => e.isEmit) = 1 := rfl
    rw [countP_updateTrace hcell, hframe, hfirst]
    omega
  case delays =>
    have hcell (v : Bool) : (bitCell v).countP (fun e => !e.isEmit) = 2 := rfl
    have hframe : latchAndEnable.countP (fun e => !e.isEmit) = 2 := rfl
    have hfirst : [Event.emit .oe true].countP (fun e => !e.isEmit) = 0 := rfl
    rw [countP_updateTrace hcell, hframe, hfirst]
    omega
  case clockRises =>
    have hcell (v : Bool) : (bitCell v).countP (· == .emit .clock true) = 1 := by cases v <;> rfl
    have hframe : latchAndEnable.countP (· == .emit .clock true) = 0 := rfl
    have hfirst : [Event.emit .oe true].countP (· == .emit .clock true) = 0 := rfl
    rw [List.count, countP_updateTrace hcell, hframe, hfirst]
    omega
  case latchRises =>
    have hcell (v : Bool) : (bitCell v).countP (· == .emit .latch true) = 0 := by cases v <;> rfl
    have hframe : latchAndEnable.countP (· == .emit .latch true) = 1 := rfl
    have hfirst : [Event.emit .oe true].countP (· == .emit .latch true) = 0 := rfl
    rw [List.count, countP_updateTrace hcell, hframe, hfirst]
    omega

/-! ### Lines that a stretch of events leaves alone -/

/-- Events that do not write OE leave it where it was. -/
theorem State.emitAll_oeDis_of_no_oe (s : State) {es : List Event} (h : ∀ v, .emit .oe v ∉ es) :
    (s.emitAll es).oeDis = s.oeDis := by
  induction es generalizing s with
  | nil => rfl
  | cons e es ih =>
    rw [State.emitAll_cons, ih _ fun v hv => h v (List.mem_cons_of_mem e hv)]
    rcases e with ⟨_ | _ | _ | _, v⟩ | t
    case emit.oe => exact absurd List.mem_cons_self (h v)
    all_goals rfl

/-- Events that do not write CLOCK leave it and SR where they were (R114). -/
theorem State.emitAll_clock_of_no_clock (s : State) {es : List Event} (h : ∀ v, .emit .clock v ∉ es) :
    (s.emitAll es).clock = s.clock ∧ (s.emitAll es).sr = s.sr := by
  induction es generalizing s with
  | nil => exact ⟨rfl, rfl⟩
  | cons e es ih =>
    obtain ⟨hclock, hsr⟩ := ih (s.emit e) fun v hv => h v (List.mem_cons_of_mem e hv)
    rw [State.emitAll_cons, hclock, hsr]
    rcases e with ⟨_ | _ | _ | _, v⟩ | t
    case emit.clock => exact absurd List.mem_cons_self (h v)
    all_goals exact ⟨rfl, rfl⟩

/-- Between its first event and its last an UPDATE does not write OE (R105). -/
theorem oe_not_mem_shiftOut_latchOp (n : Nat) (m : Memory) (v : Bool) : .emit .oe v ∉ shiftOut n m ++ latchOp := by
  simp [shiftOut_eq_bitCells, bitCell, latchOp, pulse]

theorem clock_not_mem_latchAndEnable (v : Bool) : .emit .clock v ∉ latchAndEnable := by simp [latchAndEnable]

/-! ### Instants inside an UPDATE (R109 to R111) -/

/-- An UPDATE cut in two between its first event and its last. -/
theorem updateTrace_split {n : Nat} {m : Memory} {before after : List Event} (h : updateTrace n m = before ++ after)
    (hbefore : before ≠ []) (hafter : after ≠ []) :
    ∃ sent left, before = .emit .oe true :: sent ∧ shiftOut n m ++ latchOp = sent ++ left := by
  obtain ⟨e, sent, rfl⟩ := List.exists_cons_of_ne_nil hbefore
  obtain ⟨left, e', rfl⟩ := (List.eq_nil_or_concat after).resolve_left hafter
  rw [updateTrace_eq_updateHead, List.concat_eq_append, ← List.append_assoc, List.append_singleton_inj] at h
  obtain ⟨hhead, -⟩ := h
  obtain ⟨rfl, hrest⟩ := List.cons.inj hhead
  exact ⟨sent, left, rfl, hrest⟩

/-- Settles O39: the first event disables the outputs, and no event but the last enables them. -/
theorem outputsDisabledThroughoutUpdate : Obligations.OutputsDisabledThroughoutUpdate := by
  unfold Obligations.OutputsDisabledThroughoutUpdate
  intro s before after h hbefore hafter
  obtain ⟨sent, left, rfl, hsplit⟩ := updateTrace_split h hbefore hafter
  have hno (v : Bool) : .emit .oe v ∉ sent := fun hv =>
    oe_not_mem_shiftOut_latchOp s.n.toNat s.shadow v (hsplit ▸ List.mem_append_left left hv)
  have hoe : (s.emitAll (.emit .oe true :: sent)).oeDis = true :=
    State.emitAll_oeDis_of_no_oe (s.emit (.emit .oe true)) hno
  exact ⟨hoe, State.relay_of_oeDis hoe⟩

/-- The one rising edge of CLOCK in a bit cell follows the cell's DATA (R102). -/
theorem before_clockRise_bitCell {v : Bool} {before after : List Event}
    (h : bitCell v = before ++ .emit .clock true :: after) : before = [.emit .data v] := by
  have hsplit : bitCell v = [.emit .data v] ++ .emit .clock true :: [.delay .settle, .emit .clock false, .delay .settle] := rfl
  rw [hsplit] at h
  obtain ⟨hbefore, -, -⟩ := (List.append_cons_inj_of_notMem (by simp) (by simp)).mp h
  exact hbefore.symm

/-- A rising edge of CLOCK among bit cells follows the DATA of its own cell, and whole cells before that. -/
theorem before_clockRise_bitCells {bits : List Bool} {before after : List Event}
    (h : bits.flatMap bitCell = before ++ .emit .clock true :: after) :
    ∃ sent v left, bits = sent ++ v :: left ∧ before = sent.flatMap bitCell ++ [.emit .data v] := by
  induction bits generalizing before with
  | nil => simp at h
  | cons v bits ih =>
    rw [List.flatMap_cons] at h
    rcases List.append_eq_append_iff.mp h with ⟨later, rfl, hlater⟩ | ⟨rest, hcell, hrest⟩
    · obtain ⟨sent, w, left, rfl, rfl⟩ := ih hlater
      exact ⟨v :: sent, w, left, rfl, by simp⟩
    · cases rest with
      | nil => cases bits <;> cases hrest
      | cons e rest =>
        obtain ⟨rfl, -⟩ := List.cons.inj hrest
        exact ⟨[], v, bits, rfl, before_clockRise_bitCell hcell⟩

/-- A rising edge of CLOCK inside an UPDATE, with the wire bits sent before it and the one DATA then holds (R106). -/
theorem before_clockRise {n : Nat} {m : Memory} {before after : List Event}
    (h : updateTrace n m = before ++ .emit .clock true :: after) :
    ∃ sent v left, wireBits n m = sent ++ v :: left ∧
      before = .emit .oe true :: (sent.flatMap bitCell ++ [.emit .data v]) := by
  rw [updateTrace_eq_bitCells] at h
  rcases List.append_eq_append_iff.mp h with ⟨late, -, hlate⟩ | ⟨rest, hcells, hrest⟩
  · exact absurd (hlate ▸ List.mem_append_right late List.mem_cons_self) (clock_not_mem_latchAndEnable true)
  · cases rest with
    | nil => cases hrest
    | cons e rest =>
      obtain ⟨rfl, -⟩ := List.cons.inj hrest
      cases before with
      | nil => cases hcells
      | cons e before =>
        obtain ⟨rfl, hinner⟩ := List.cons.inj hcells
        obtain ⟨sent, v, left, hbits, rfl⟩ := before_clockRise_bitCells hinner
        exact ⟨sent, v, left, hbits, rfl⟩

theorem count_clockRise_bitCells (bits : List Bool) :
    (bits.flatMap bitCell).count (.emit .clock true) = bits.length := by
  have hcell (v : Bool) : (bitCell v).countP (· == .emit .clock true) = 1 := by cases v <;> rfl
  rw [List.count, countP_bitCells hcell, Nat.one_mul]

/-- Settles O40: before the edge stand whole cells, one rising edge each, and the DATA of the bit that comes next. -/
theorem dataStableAtEachClockEdge : Obligations.DataStableAtEachClockEdge := by
  unfold Obligations.DataStableAtEachClockEdge
  intro s before after hclock h
  obtain ⟨sent, v, left, hbits, rfl⟩ := before_clockRise h
  obtain ⟨hlow, -⟩ := State.emitAll_bitCells (s.emit (.emit .oe true)) sent hclock
  have hcount : (Event.emit .oe true :: (sent.flatMap bitCell ++ [.emit .data v])).count (.emit .clock true) =
      sent.length := by
    rw [List.count_cons_of_ne (by decide), List.count_append, count_clockRise_bitCells]
    simp
  have hbit : wireBit s.n.toNat s.shadow sent.length = v := by
    have hlen : sent.length < (wireBits s.n.toNat s.shadow).length := by rw [hbits]; simp
    rw [← getElem_wireBits s.shadow hlen]
    simp [hbits]
  rw [hcount, hbit, State.emitAll_cons, State.emitAll_append]
  exact ⟨hlow, rfl⟩

/-- Settles O41: before the rising edge of LATCH stand OE off and all the bit cells, and after it no event writes CLOCK. -/
theorem latchPulseAfterLastClock : Obligations.LatchPulseAfterLastClock := by
  unfold Obligations.LatchPulseAfterLastClock
  intro s before after hclock h
  obtain rfl := before_latchRise h
  have hafter : .emit .latch true :: after = latchAndEnable := by
    have hsplit : updateTrace s.n.toNat s.shadow = (.emit .oe true :: shiftOut s.n.toNat s.shadow) ++ latchAndEnable := by
      rw [updateTrace_eq_bitCells, shiftOut_eq_bitCells]
      rfl
    exact (List.append_cancel_left (hsplit.symm.trans h)).symm
  obtain ⟨hlow, -⟩ := State.emitAll_shiftOut (s.emit (.emit .oe true)) s.n.toNat s.shadow hclock
  have hoe : (s.emitAll (.emit .oe true :: shiftOut s.n.toNat s.shadow)).oeDis = true :=
    State.emitAll_oeDis_of_no_oe (s.emit (.emit .oe true)) fun v hv =>
      oe_not_mem_shiftOut_latchOp _ _ v (List.mem_append_left latchOp hv)
  refine ⟨?_, hlow, hoe, fun part rest hpart => ?_⟩
  · rw [List.count_cons_of_ne (by decide), shiftOut_eq_bitCells, count_clockRise_bitCells, length_wireBits]
  · have hno (v : Bool) : .emit .clock v ∉ Event.emit .latch true :: part := fun hv =>
      clock_not_mem_latchAndEnable v (by rw [← hafter, hpart, ← List.cons_append]; exact List.mem_append_left rest hv)
    obtain ⟨hclock', hsr⟩ :=
      State.emitAll_clock_of_no_clock (s.emitAll (.emit .oe true :: shiftOut s.n.toNat s.shadow)) hno
    rw [State.emitAll_append]
    exact ⟨hsr, hclock'.trans hlow⟩

/-! ### A second UPDATE (R118) -/

/-- Events move the lines, the chain and the trace, and nothing else (R12). -/
theorem State.emitAll_eq (s : State) (es : List Event) :
    s.emitAll es =
      { s with
        data := (s.emitAll es).data, clock := (s.emitAll es).clock, latch := (s.emitAll es).latch
        oeDis := (s.emitAll es).oeDis, sr := (s.emitAll es).sr, out := (s.emitAll es).out, trace := s.trace ++ es } := by
  induction es generalizing s with
  | nil => simp [State.emitAll]
  | cons e es ih =>
    have htrace : s.trace ++ e :: es = (s.emit e).trace ++ es := by simp
    rw [State.emitAll_cons, htrace, ih]
    rcases e with ⟨_ | _ | _ | _, v⟩ | t <;> rfl

/-- Events after which the lines and the chain are where they were have only entered the trace. -/
theorem State.emitAll_of_sameLines {s : State} {es : List Event} (h : State.SameLines s (s.emitAll es)) :
    s.emitAll es = { s with trace := s.trace ++ es } := by
  obtain ⟨hdata, hclock, hlatch, hoe, hsr, hout⟩ := h
  rw [State.emitAll_eq, hdata, hclock, hlatch, hoe, hsr, hout]

/-- DATA after an UPDATE: the last bit sent, or what it was when no bit is sent. -/
theorem State.update_data (s : State) :
    s.update.data = if s.n.toNat = 0 then s.data else (s.shadowByte 0).getLsbD 0 := by
  split
  · next hn => simp [State.update, hn, updateTrace, shiftOut, latchOp, pulse, State.emitAll_cons, State.emitAll_nil]
  · next hn =>
    obtain ⟨-, -, -, hdata⟩ := State.update_linesAfterUpdate (Nat.pos_of_ne_zero hn)
    rw [hdata, State.shadowByte_update]

theorem State.update_update_sameLines {s : State} (hfit : s.chainFits) (hidle : s.linesIdle) :
    State.SameLines s.update s.update.update := by
  obtain ⟨hidle₁, hoe₁, -⟩ := State.update_of_linesIdle hidle
  obtain ⟨⟨hclock₂, hlatch₂⟩, hoe₂, -⟩ := State.update_of_linesIdle hidle₁
  obtain ⟨hsr₁, hout₁, -⟩ := State.update_chainShowsShadow hfit hidle
  obtain ⟨hsr₂, hout₂, -⟩ := State.update_chainShowsShadow (State.update_chainFits hfit) hidle₁
  have hbytes : s.update.update.shadowBytes = s.update.shadowBytes := by simp [State.shadowBytes]
  have hdata : s.update.update.data = s.update.data := by
    rw [State.update_data, State.update_n, State.shadowByte_update, State.update_data]
    split <;> rfl
  exact ⟨hdata, hclock₂.trans hidle₁.left.symm, hlatch₂.trans hidle₁.right.symm, hoe₂.trans hoe₁.symm,
    by rw [hsr₂, hbytes, hsr₁], by rw [hout₂, hbytes, hout₁]⟩

/-- Settles O38: the second UPDATE finds the lines idle and the chain loaded, so it leaves them where they are. -/
theorem updateTwiceIsUpdateOnce : Obligations.UpdateTwiceIsUpdateOnce := by
  unfold Obligations.UpdateTwiceIsUpdateOnce
  intro s hfit hidle
  have htrace : s.update.trace ++ updateTrace s.update.n.toNat s.update.shadow =
      s.trace ++ updateTrace s.n.toNat s.shadow ++ updateTrace s.n.toNat s.shadow := by
    rw [State.update_trace, State.update_n, State.update_shadow]
  exact (State.emitAll_of_sameLines (State.update_update_sameLines hfit hidle)).trans (by rw [htrace])

end Sys2Proof.Machine
end

