-- ==== Sys2Proof/Proofs/CommandEffects.lean ====
section
/-! The commands that are put together from others: SETRT as a set, a wait and a hold (R135 to R137), HOLD as a SETR of zero
(R140), the reversal of a chip (R145), how many events each command has (R152), and the positions and steps that move no line
(R108). -/

namespace Sys2Proof.Machine

/-! ### Bytes that are written (R133, R134, R140, R150) -/

/-- A merged byte keeps none of the old low nibble. -/
theorem clearLow_merge (old v : Byte) : clearLow (merge old v) = clearLow old := merge_and_highMask old v

theorem merge_zero (old : Byte) : merge old 0x00 = clearLow old := by simp [merge, clearLow]

/-- The low nibble of a merged byte is the request's. -/
theorem merge_and_nibbleMask (old v : Byte) : merge old v &&& Config.nibbleMask = v &&& Config.nibbleMask :=
  merge_and_lowMask old v (by decide) (by decide)

/-- Settles O29: the predicate reads bits 3 to 0, which the mask and the merge take from the request. -/
theorem verdictSurvivesMaskAndMerge : Obligations.VerdictSurvivesMaskAndMerge := by
  unfold Obligations.VerdictSurvivesMaskAndMerge
  exact fun old v => ⟨(contra_lowNibble v).symm, contra_merge old v, contra_clearLow old⟩

/-! ### SETRT (R135 to R137) -/

theorem State.shadowByte_waitFor (s : State) (dur : BitVec 12) (k : Nat) :
    (s.waitFor dur).shadowByte k = s.shadowByte k := rfl

/-- The byte a SETRT addresses ends with its low nibble cleared, whatever was set in between; no other byte is written. -/
theorem shadowByte_commandWork_setrt (idx val : BitVec 8) (dur : BitVec 12) (s : State) (a : Nat) :
    (commandWork (.setrt idx val dur) s).shadowByte a =
      if a = idx.toNat then clearLow (s.shadowByte idx.toNat) else s.shadowByte a := by
  have hset (k : Nat) : (((firstWrite (.setrt idx val dur) s).update).waitFor dur).shadowByte k =
      if k = idx.toNat then merge (s.shadowByte idx.toNat) val else s.shadowByte k := by
    rw [State.shadowByte_waitFor, State.shadowByte_update]
    exact State.shadowByte_mergeShadow s idx val k
  rw [commandWork_setrt, State.shadowByte_update, State.shadowByte_holdShadow, hset, if_pos rfl, clearLow_merge, hset]
  split <;> rfl

/-- The hold timer has run down before the second UPDATE (R136). -/
theorem holdCnt_commandWork_setrt (idx val : BitVec 8) (dur : BitVec 12) (s : State) :
    (commandWork (.setrt idx val dur) s).holdCnt = 0 := by
  rw [commandWork_setrt, State.update_holdCnt]
  rfl

/-- Settles O17: the tests of SETR, and then the work, whose trace is two UPDATEs around the wait. -/
theorem setrtSetsWaitsAndHolds : Obligations.SetrtSetsWaitsAndHolds := by
  unfold Obligations.SetrtSetsWaitsAndHolds
  refine fun idx val dur s hc => ⟨exec_of_index_out rfl hc, fun hidx hboth => ?rejected, fun hidx hone => ?completed⟩
  case rejected => exact exec_of_test_fires hc (State.setTests_of_contra hidx ((contra_iff val).mpr hboth))
  case completed =>
    have hv : contra val = false := by rwa [← Bool.not_eq_true, contra_iff]
    have hset (a : Nat) := State.shadowByte_mergeShadow s idx val a
    have hend (a : Nat) := shadowByte_commandWork_setrt idx val dur s a
    have htrace : State.TraceGrewBy s (commandWork (.setrt idx val dur) s)
        (updateTrace s.n.toNat (s.mergeShadow idx val).shadow ++ [.delay (.ticks dur)] ++
          updateTrace s.n.toNat (commandWork (.setrt idx val dur) s).shadow) := by
      rw [State.TraceGrewBy, commandWork_trace_setrt, List.append_assoc, List.append_assoc, List.append_assoc]
      rfl
    have hexec : exec (.setrt idx val dur) s = .next ((commandWork (.setrt idx val dur) s).respond .ok) :=
      exec_of_tests_pass hc (State.setTests_of_allowed hidx hv)
    have hcount := holdCnt_commandWork_setrt idx val dur s
    have hdone := commandWork_completedOk (.setrt idx val dur) (Nat.zero_lt_of_lt hidx)
    generalize commandWork (.setrt idx val dur) s = t at hend htrace hexec hcount hdone
    exact ⟨t.respond .ok, (s.mergeShadow idx val).shadow, hexec, (hset _).trans (if_pos rfl),
      fun a ha => (hset a).trans (if_neg ha), (hend _).trans (if_pos rfl), fun a ha => (hend a).trans (if_neg ha), hcount,
      htrace, hdone⟩

/-- Settles O59: the periods of the wait, then the position that ends it with its one event and the SHADOW write of HOLD. -/
theorem waitCountsDownAndEnds : Obligations.WaitCountsDownAndEnds := by
  unfold Obligations.WaitCountsDownAndEnds
  intro s hq
  refine ⟨seqRun_wait_countdown hq, ?_⟩
  have hrun : seqRun (s.holdCnt.toNat + 1) s =
      .next (((s.waitFor s.cmd.dur).holdShadow s.cmd.idx).goto (.oeOff .second)) := by
    rw [seqRun_add 1 (seqRun_wait_countdown hq _ le_rfl)]
    exact seqRun_one (seqStep_wait_end hq (by simp))
  have hbyte (a : Nat) := State.shadowByte_holdShadow (s.waitFor s.cmd.dur) s.cmd.idx a
  exact ⟨_, hrun, rfl, rfl, rfl, (hbyte _).trans (if_pos rfl), fun a ha => (hbyte a).trans (if_neg ha),
    ⟨rfl, rfl, rfl, rfl, rfl, rfl⟩, ⟨rfl, rfl, rfl, rfl⟩, rfl, rfl⟩

/-! ### HOLD and SETR (R140) -/

/-- Settles O22: a request of zero passes the interlock test, and merging it clears the low nibble. -/
theorem holdIsSetrOfZero : Obligations.HoldIsSetrOfZero := by
  unfold Obligations.HoldIsSetrOfZero
  intro idx s
  have htests : commandTests (.hold idx) s = commandTests (.setr idx 0x00) s := by
    rw [commandTests, commandTests, State.testIndex_eq, State.setTests_eq, if_neg (by decide : ¬contra 0x00 = true)]
  have hwork : commandWork (.hold idx) = commandWork (.setr idx 0x00) := by
    funext u
    rw [commandWork, commandWork, holdWork, setWork, State.holdShadow, State.mergeShadow, merge_zero]
  rw [exec_eq, exec_eq, htests, hwork]

/-! ### The reversal (R145) -/

/-- Settles O23: the interlock test of DEFLATE reads its own request, not the SHADOW that INFLATE has left. -/
theorem reversalIsAccepted : Obligations.ReversalIsAccepted := by
  unfold Obligations.ReversalIsAccepted
  intro idx s hc hidx
  obtain ⟨-, -, hinflate⟩ := inflateSetsTheInflatePair idx s
  obtain ⟨t, hexec, hpair, -, -, -, -, ⟨hn, hcfg, -⟩, -⟩ := hinflate hc hidx
  obtain ⟨-, -, hdeflate⟩ := deflateSetsTheDeflatePair idx (t.accept (encode (.deflate idx)))
  obtain ⟨u, hexec', hpair', -, -, -, ⟨hok, -⟩, -⟩ := hdeflate (hcfg.trans hc) (by rwa [State.accept_n, hn])
  refine ⟨t, u, hexec, ?_, hexec', hok, ?_⟩
  · rw [hpair, ← merge_inflatePair]
    exact merge_and_nibbleMask _ _
  · rw [hpair', ← merge_deflatePair]
    exact merge_and_nibbleMask _ _

/-- Refutes O24: on a fresh block of one chip INFLATE 0 and then DEFLATE 0 both answer OK. -/
theorem not_reversalIsRejected : ¬ Obligations.ReversalIsRejected := by
  unfold Obligations.ReversalIsRejected
  intro h
  obtain ⟨t, u, hinflate, -, hdeflate, hok, -⟩ := reversalIsAccepted 0 (State.afterReset 1) rfl (by decide)
  exact h 0 (State.afterReset 1) t u rfl (by decide) hinflate hdeflate hok

/-! ### How many events a command has (R152) -/

/-- Settles O26: a completed command's trace is put together from UPDATEs of 40N + 6 events and the one of the wait. -/
theorem traceLengths : Obligations.TraceLengths := by
  unfold Obligations.TraceLengths
  refine fun i s t hexec => ⟨trace_of_rejected hexec, fun hok => ?_⟩
  rw [eq_commandWork_of_ok hexec hok, State.respond_trace]
  cases hd : durationOf i with
  | none => rw [commandWork_trace_untimed hd, List.length_append, length_updateTrace]
  | some dur =>
    obtain ⟨idx, val, rfl⟩ := setrt_of_durationOf hd
    simp only [commandWork_trace_setrt, List.length_append, length_updateTrace, List.length_singleton]
    omega

/-! ### Steps and positions that move no line (R33, R108) -/

/-- Settles O60: CHECK writes SHADOW at most, and so does the wait. -/
theorem checksAndWaitMoveNoLine : Obligations.ChecksAndWaitMoveNoLine := by
  unfold Obligations.ChecksAndWaitMoveNoLine
  intro s t hq hstep
  rcases hq with hq | hq
  · rw [seqStep, hq] at hstep
    cases hstep
    exact seqCheck_sameLines s
  · rw [seqStep, hq] at hstep
    cases hstep
    exact seqWait_sameLines s

/-- Settles O14: none of the things a step looks at before it idles is there. -/
theorem idleCoreMovesNothing : Obligations.IdleCoreMovesNothing := by
  unfold Obligations.IdleCoreMovesNothing
  rintro s ⟨hreset, hpower, hforeign, hfault⟩ hbusy hvalid
  simp [step, hreset, hpower, hforeign, hfault, hbusy, hvalid, State.idle]

/-- Settles O56: with no other input held, a busy core's step is the sequencer's. -/
theorem busyStepIsOnePosition : Obligations.BusyStepIsOnePosition := by
  unfold Obligations.BusyStepIsOnePosition
  exact fun _ => step_of_busy

/-! ### The fresh block (R42) -/

/-- Settles O45, field by field; the relays are off because the outputs are disabled (log 13). -/
theorem freshBlockHoldsResetValues : Obligations.FreshBlockHoldsResetValues := by
  unfold Obligations.FreshBlockHoldsResetValues
  exact ⟨rfl, fun c => ⟨rfl, beq_iff_eq, Memory.bytes_nil _, rfl, rfl, rfl, rfl, rfl, rfl, rfl, rfl,
    State.relay_of_oeDis rfl⟩⟩

end Sys2Proof.Machine
end
